-- ==== Sys2Proof/Word.lean ====
section
/-! DEFINITION. The word types of the UDC: a byte, a 16-bit port word, a 10-bit ring operation word (R10, R71, R77, R78). -/

namespace Sys2Proof

/-- A byte, 0x00..0xFF (R10). -/
abbrev Byte := BitVec 8

/-- A 16-bit word of the host port or the cause input (R70, R71, R77). -/
abbrev Word := BitVec 16

/-- A 10-bit operation word of a ring's internal port (R78). -/
abbrev RingWord := BitVec 10

end Sys2Proof
end

