-- ==== Sys2Proof/Config.lean ====
section
/-! DEFINITION. The implementation parameters of the UDC (R8, R57), and the one value the spec leaves free. -/

namespace Sys2Proof

/-- KICK_POLICY: when a TXB checks for an idle engine (R8, R121). -/
inductive KickPolicy where
  | firstOnly
  | everyPut
  deriving DecidableEq, Repr

/-- The parameters of R8 and the platform's UDC_BASE of R57.
The spec gives none of the open ones a value; State carries them, so that a statement over all states is a statement
over all parameters (DESIGN CHOICE, safe: log 3). -/
structure Config where
  /-- TX_CAP, capacity of the transmit ring in bytes. -/
  txCap : Nat
  /-- RX_CAP, capacity of the receive ring in bytes. -/
  rxCap : Nat
  /-- LB_CAP, capacity of the line buffer in bytes. -/
  lbCap : Nat
  /-- BAUD_SET, the accepted baud-rate indices; order and repeats have no meaning. -/
  baudSet : List (BitVec 4)
  /-- LPM_WAKE, the target has a low-power sleep mode. -/
  lpmWake : Bool
  /-- KICK_POLICY. -/
  kickPolicy : KickPolicy
  /-- TX_EV_ON_IDLE, the transmit handler sets EV_TX when the engine goes idle. -/
  txEvOnIdle : Bool
  /-- UDC_BASE, where a platform maps the host port; none where it maps it nowhere (R57). -/
  udcBase : Option Nat
  deriving DecidableEq, Repr

/-- The parameter values the spec's test vectors use (R8). The spec maps the port nowhere there. -/
def Config.vectors : Config where
  txCap := 4
  rxCap := 4
  lbCap := 4
  baudSet := [0, 1, 2, 3]
  lpmWake := true
  kickPolicy := .firstOnly
  txEvOnIdle := false
  udcBase := none

/-- A FREE VALUE: the bits the spec leaves open in a word read over a mapped port (log 15).
It has no body, so nothing can be proved about its value. -/
opaque Config.freeWord : Nat → Word

end Sys2Proof
end

