-- ==== Sys2Proof/Syntax.lean ====
section
/-! DEFINITION. The operations of the UDC as syntax: one constructor per row of spec/opcode_table.json (R72, R77, R78). -/

namespace Sys2Proof

/-- TXMODE, the transmit mode (R23). -/
inductive TxMode where
  | polled
  | intr
  deriving DecidableEq, Repr

/-- The two rings, each with an internal operation port of its own (R26, R78). -/
inductive RingId where
  | txr
  | rxr
  deriving DecidableEq, Repr

/-- The 13 commands of the host port, the 3 operations of a ring's internal port and the 3 cases of the cause input.
The ignored D byte of RB.INIT and RB.GET and the code of DISP.NONE are kept, so that no bit of a word is dropped
(DESIGN CHOICE, safe: log 17). -/
inductive Instr where
  /-- NOP (R190). -/
  | nop
  /-- INIT with rr = 00, the line policy (R191). -/
  | initLine (baud : BitVec 4) (t : TxMode)
  /-- INIT with rr = 01, the ring policy (R191). -/
  | initRing (baud : BitVec 4) (t : TxMode)
  /-- INIT with rr = 10, a caller-supplied handler (R193). -/
  | initCustom (baud : BitVec 4) (t : TxMode)
  /-- TXB with F = 0 (R121, R126). -/
  | txb (d : Byte)
  /-- TXB with F = 1, the first byte of a send call (R121, R126). -/
  | txbF (d : Byte)
  /-- GETEV (R176). -/
  | getev
  /-- CLREV (R177). -/
  | clrev
  /-- GETLN (R150). -/
  | getln
  /-- LBRD of index i (R151). -/
  | lbrd (i : Byte)
  /-- REARM (R152). -/
  | rearm
  /-- RXGET (R153). -/
  | rxget
  /-- RDERR (R154). -/
  | rderr
  /-- RB_INIT on ring r; d is ignored (R101). -/
  | rbInit (r : RingId) (d : Byte)
  /-- RB_PUT of byte d on ring r (R102). -/
  | rbPut (r : RingId) (d : Byte)
  /-- RB_GET on ring r; d is ignored (R103). -/
  | rbGet (r : RingId) (d : Byte)
  /-- DISP.RX, cause code 0x0002 (R171). -/
  | dispRx
  /-- DISP.TX, cause code 0x0004 (R172). -/
  | dispTx
  /-- DISP.NONE, any other cause code iv (R173). -/
  | dispNone (iv : Word)
  deriving DecidableEq, Repr

end Sys2Proof
end

