-- ==== Sys2Proof/WellFormed.lean ====
section
/-! DEFINITION. Which terms of Instr stand for a word of the hardware: the code of DISP.NONE is neither of the two
recognised cause codes (R173, R77); every other field admits all its values (R73, R78). -/

namespace Sys2Proof

/-- The one check a term needs: DISP.NONE carries a code other than 0x0002 and 0x0004 (R173). -/
def Instr.wellFormed : Instr → Bool
  | .nop => true
  | .initLine _ _ => true
  | .initRing _ _ => true
  | .initCustom _ _ => true
  | .txb _ => true
  | .txbF _ => true
  | .getev => true
  | .clrev => true
  | .getln => true
  | .lbrd _ => true
  | .rearm => true
  | .rxget => true
  | .rderr => true
  | .rbInit _ _ => true
  | .rbPut _ _ => true
  | .rbGet _ _ => true
  | .dispRx => true
  | .dispTx => true
  | .dispNone iv => iv != 0x0002#16 && iv != 0x0004#16

end Sys2Proof
end

