-- ==== Sys2Proof/Decode.lean ====
section
/-! DEFINITION. Decoding of command words, ring operation words and cause codes, the encoder written from the same
tables, the pseudo-operations and the command syntax (R70-R85, R77, R78, R196, R197). -/

namespace Sys2Proof

/-- Why a word is no operation. Each is answered by status ILLEGAL with no effect (R79, R104, R196). -/
inductive DecodeError where
  /-- A command opcode 0xA..0xF (R79). Safe: the answer is the spec's. -/
  | reservedOpcode
  /-- A command with a nonzero reserved operand bit (R74). Safe: the answer is the spec's. -/
  | reservedBits
  /-- INIT with rr = 11 (R79). Safe: the answer is the spec's. -/
  | illegalPolicy
  /-- Ring operation 11 (R104). Safe: the answer is the spec's. -/
  | reservedRingOp
  deriving DecidableEq, Repr

/-- A word on one of the UDC's three word inputs (R70): the same bits mean different things on each. -/
inductive PortWord where
  /-- A command word on the host port (R71). -/
  | command (w : Word)
  /-- A cause code on the cause input (R77). -/
  | cause (iv : Word)
  /-- An operation word on the internal port of ring r (R78). -/
  | ring (r : RingId) (w : RingWord)
  deriving DecidableEq, Repr

/-- CAUSE_RX (R8, R77). -/
def causeRx : Word := 0x0002#16

/-- CAUSE_TX (R8, R77). -/
def causeTx : Word := 0x0004#16

/-- TXMODE from operand bit T (R73, R76). -/
def txModeOfBit (t : Bool) : TxMode := if t then .intr else .polled

/-- The operand bit T of a TXMODE (R73). -/
def bitOfTxMode : TxMode → BitVec 1
  | .polled => 0#1
  | .intr => 1#1

/-- A command without operands: every operand bit is reserved (R72, R74). -/
def plainCommand (w : Word) (i : Instr) : Except DecodeError Instr :=
  if w.extractLsb' 0 12 = 0#12 then .ok i else .error .reservedBits

/-- INIT by its policy field rr (R73, R79). -/
def decodeInit (w : Word) : Except DecodeError Instr :=
  if w.extractLsb' 3 5 ≠ 0#5 then .error .reservedBits
  else
    let baud := w.extractLsb' 8 4
    let t := txModeOfBit (w.getLsbD 2)
    match (w.extractLsb' 0 2).toNat with
    | 0 => .ok (.initLine baud t)
    | 1 => .ok (.initRing baud t)
    | 2 => .ok (.initCustom baud t)
    | _ => .error .illegalPolicy

/-- TXB by its flag F (R73). -/
def decodeTxb (w : Word) : Except DecodeError Instr :=
  if w.extractLsb' 9 3 ≠ 0#3 then .error .reservedBits
  else if w.getLsbD 8 then .ok (.txbF (w.extractLsb' 0 8))
  else .ok (.txb (w.extractLsb' 0 8))

/-- LBRD (R73). -/
def decodeLbrd (w : Word) : Except DecodeError Instr :=
  if w.extractLsb' 8 4 ≠ 0#4 then .error .reservedBits else .ok (.lbrd (w.extractLsb' 0 8))

/-- A command word, opcode w[15:12] and operand w[11:0] (R71, R72, R197). -/
def decodeCommand (w : Word) : Except DecodeError Instr :=
  match (w.extractLsb' 12 4).toNat with
  | 0 => plainCommand w .nop
  | 1 => decodeInit w
  | 2 => decodeTxb w
  | 3 => plainCommand w .getev
  | 4 => plainCommand w .clrev
  | 5 => plainCommand w .getln
  | 6 => decodeLbrd w
  | 7 => plainCommand w .rearm
  | 8 => plainCommand w .rxget
  | 9 => plainCommand w .rderr
  | _ => .error .reservedOpcode

/-- A cause code; total, since every other value is DISP.NONE (R77, R170). -/
def decodeCause (iv : Word) : Instr :=
  if iv = causeRx then .dispRx else if iv = causeTx then .dispTx else .dispNone iv

/-- An operation word of ring r (R78, R104). -/
def decodeRing (r : RingId) (w : RingWord) : Except DecodeError Instr :=
  let d := w.extractLsb' 0 8
  match (w.extractLsb' 8 2).toNat with
  | 0 => .ok (.rbInit r d)
  | 1 => .ok (.rbPut r d)
  | 2 => .ok (.rbGet r d)
  | _ => .error .reservedRingOp

/-- A word on its port (R70). -/
def decode : PortWord → Except DecodeError Instr
  | .command w => decodeCommand w
  | .cause iv => .ok (decodeCause iv)
  | .ring r w => decodeRing r w

/-- The word of INIT (R72, R73). -/
def encodeInit (baud : BitVec 4) (t : TxMode) (rr : BitVec 2) : Word :=
  0x1#4 ++ baud ++ 0#5 ++ bitOfTxMode t ++ rr

/-- The word of an operation and the port it stands on (R72, R73, R77, R78). -/
def encode : Instr → PortWord
  | .nop => .command 0x0000#16
  | .initLine baud t => .command (encodeInit baud t 0b00#2)
  | .initRing baud t => .command (encodeInit baud t 0b01#2)
  | .initCustom baud t => .command (encodeInit baud t 0b10#2)
  | .txb d => .command (0x20#8 ++ d)
  | .txbF d => .command (0x21#8 ++ d)
  | .getev => .command 0x3000#16
  | .clrev => .command 0x4000#16
  | .getln => .command 0x5000#16
  | .lbrd i => .command (0x60#8 ++ i)
  | .rearm => .command 0x7000#16
  | .rxget => .command 0x8000#16
  | .rderr => .command 0x9000#16
  | .rbInit r d => .ring r (0b00#2 ++ d)
  | .rbPut r d => .ring r (0b01#2 ++ d)
  | .rbGet r d => .ring r (0b10#2 ++ d)
  | .dispRx => .cause causeRx
  | .dispTx => .cause causeTx
  | .dispNone iv => .cause iv

/-- The port a bare table word stands on, since spec/opcode_table.json does not say (DESIGN CHOICE, safe: log 12).
A legal command word is one; then the two recognised causes; then a legal ring word, on TXR's port; any other is a
cause code. -/
def portOfTableWord (nbits w : Nat) : PortWord :=
  if nbits ≤ 10 then .ring .txr (BitVec.ofNat 10 w)
  else
    match decodeCommand (BitVec.ofNat 16 w) with
    | .ok _ => .command (BitVec.ofNat 16 w)
    | .error _ =>
      if BitVec.ofNat 16 w = causeRx ∨ BitVec.ofNat 16 w = causeTx then .cause (BitVec.ofNat 16 w)
      else if w < 0x300 then .ring .txr (BitVec.ofNat 10 w)
      else .cause (BitVec.ofNat 16 w)

/-- The operation the decoder reads from a table word (the host's question; log 12). -/
def decodeTableWord (nbits w : Nat) : Option Instr :=
  match decode (portOfTableWord nbits w) with
  | .ok i => some i
  | .error _ => none

/-- The pseudo-operation SEND: TXB.F for the first byte, TXB for each later one (R82). -/
def sendOps : List Byte → List Instr
  | [] => []
  | b :: bs => .txbF b :: bs.map .txb

/-- The bytes of a string that PRINT sends: those before its first 0x00 (R83). -/
def printBytes (bs : List Byte) : List Byte := bs.takeWhile (fun b => b != 0x00#8)

/-- The pseudo-operation PRINT: SEND of the bytes before the first 0x00 (R83). -/
def printOps (bs : List Byte) : List Instr := sendOps (printBytes bs)

/-- get_event() (R84). -/
def getEventOps : List Instr := [.getev]

/-- clear_event() (R84). -/
def clearEventOps : List Instr := [.clrev]

/-- rearm() (R84). -/
def rearmOps : List Instr := [.rearm]

/-- get_completed_line(): GETLN, then, where a line is pending, LBRD of index 0, 1, ... up to n reads; the host stops at
the first 0x00 it reads (R84, R145). -/
def getCompletedLineOps (n : Nat) : List Instr := .getln :: (List.range n).map fun k => .lbrd (BitVec.ofNat 8 k)

/-- The read-and-clear idiom, two commands and not atomic (R84, R252). -/
def readAndClearOps : List Instr := getEventOps ++ clearEventOps

/-- The command words of a list of operations; operations of the other two ports have none (R81). -/
def commandWords (is : List Instr) : List Word :=
  is.filterMap fun i => match encode i with
    | .command w => some w
    | .cause _ => none
    | .ring _ _ => none

/-- How the command syntax writes a transmit mode (R81). -/
def TxMode.render : TxMode → String
  | .polled => "POLLED"
  | .intr => "INTR"

/-- The operands of INIT in the command syntax; numbers in decimal (R81). -/
def renderInit (baud : BitVec 4) (t : TxMode) (rx : String) : String :=
  "INIT  baud=" ++ toString baud.toNat ++ ", tx=" ++ t.render ++ ", rx=" ++ rx

/-- A command in the spec's syntax; an operation of another port has none and is given as its table mnemonic (R81). -/
def Instr.render : Instr → String
  | .nop => "NOP"
  | .initLine baud t => renderInit baud t "LINE"
  | .initRing baud t => renderInit baud t "RING"
  | .initCustom baud t => renderInit baud t "CUSTOM"
  | .txb d => "TXB   " ++ toString d.toNat
  | .txbF d => "TXB.F " ++ toString d.toNat
  | .getev => "GETEV"
  | .clrev => "CLREV"
  | .getln => "GETLN"
  | .lbrd i => "LBRD  " ++ toString i.toNat
  | .rearm => "REARM"
  | .rxget => "RXGET"
  | .rderr => "RDERR"
  | .rbInit _ _ => "RB.INIT"
  | .rbPut _ _ => "RB.PUT"
  | .rbGet _ _ => "RB.GET"
  | .dispRx => "DISP.RX"
  | .dispTx => "DISP.TX"
  | .dispNone _ => "DISP.NONE"

end Sys2Proof
end

