-- ==== Sys2Proof/Machine/State.lean ====
section
/-! DEFINITION. The state of the machine as plain data: the UDC's registers and arrays (R20), the peripheral (R220), the
host's position and what the ports have answered (R21, R75), the output trace (R38), the parameters (R8), and the
schedule that says which agent moves next (R228). -/

namespace Sys2Proof.Machine

/-- Why a step stops with a fault (R213). -/
inductive Fault where
  /-- A byte array is read at an index nothing has written since power-on: LBRD and RB_GET (R103, R151, D26).
  Safe: the hardware goes on with an unspecified byte. -/
  | unwrittenRead
  /-- TXWR while the peripheral's transmit slot is occupied: TXC (R225, D35). Safe: the hardware's effect is unspecified. -/
  | txOverwrite
  /-- A byte array is reached at an index outside its range: a ring or line cursor outside its legal values, which no run
  from power-on has (R50; DESIGN CHOICE: log 7). Safe: no such access exists in the hardware. -/
  | indexRange
  deriving DecidableEq, Repr

/-- Why the model gives no meaning. -/
inductive Refusal where
  /-- An operation whose meaning is not written; named by its mnemonic. Safe. -/
  | notModelled (mnemonic : String)
  /-- INIT with rr = 10 installs caller code (R193, R213). Safe: a run that does it is given no meaning. -/
  | customHandler
  /-- A configuration with a capacity 0 (R9, R213). Safe: meaningless in the hardware. -/
  | zeroCapacity
  /-- A configuration with a parameter outside the range of R8 (DESIGN CHOICE: log 10). Safe. -/
  | parameterRange
  /-- A misaligned or byte-wide access to a mapped port register, or one against its direction (R53; log 14). Safe. -/
  | portAccess
  /-- A bus access to an address that is none of the UDC's port registers (R57; log 14). Safe. -/
  | notMapped
  deriving DecidableEq, Repr

/-- A byte array as its written cells, indices strictly rising; an unlisted cell is unwritten (R30). -/
abbrev Memory := List Host.Cell

/-- RXPOL, the installed receive handler; no other value can be stored (R24). -/
inductive RxPolicy where
  | line
  | ring
  deriving DecidableEq, Repr

/-- A ring: read cursor RD, write cursor WR, occupancy CNT, and its backing array (R26). -/
@[ext]
structure RingBuf where
  rd : Word
  wr : Word
  cnt : Word
  cells : Memory
  deriving DecidableEq, Repr

/-- The registers and arrays of the table of R20. -/
@[ext]
structure Udc where
  /-- INITED (R22). -/
  inited : Bool
  /-- TXMODE (R23). -/
  txMode : TxMode
  /-- RXPOL (R24). -/
  rxPol : RxPolicy
  /-- BAUD (R25). -/
  baud : BitVec 4
  /-- TXR with TXS (R26). -/
  txr : RingBuf
  /-- RXR with RXS (R26). -/
  rxr : RingBuf
  /-- TX_BUSY (R29). -/
  txBusy : Bool
  /-- LBS (R30). -/
  lbs : Memory
  /-- LB_P (R31). -/
  lbP : Byte
  /-- LB_EN, the completion latch inverted (R32). -/
  lbEn : Bool
  /-- OVR (R34). -/
  ovr : Word
  /-- EV (R35). -/
  ev : Byte
  deriving DecidableEq, Repr

/-- The UART peripheral (R220). -/
@[ext]
structure Periph where
  /-- P.RXIFG, a byte waits in the receive latch. -/
  rxifg : Bool
  /-- P.RXB, the latch byte. -/
  rxb : Byte
  /-- P.RXE, the latch's error flag. -/
  rxe : Bool
  /-- P.TXIFG, the transmit interrupt flag. -/
  txifg : Bool
  /-- P.SLOT, the byte being shifted out. -/
  slot : Option Byte
  /-- P.RXIE. -/
  rxie : Bool
  /-- P.TXIE. -/
  txie : Bool
  /-- P.SINK, every byte that left on the line, oldest first. -/
  sink : List Byte
  deriving DecidableEq, Repr

/-- The status of a command's response (R75). -/
inductive Status where
  | ok
  | empty
  | none
  | badArg
  | illegal
  | notInit
  deriving DecidableEq, Repr

/-- A response: status and data (R75). -/
structure Response where
  status : Status
  data : Word
  deriving DecidableEq, Repr

/-- The status a ring's internal port returns (R78). -/
inductive RingStatus where
  | ok
  | full
  | empty
  | illegal
  deriving DecidableEq, Repr

/-- What a ring's internal port returns for one operation word (R78). -/
structure RingAnswer where
  ring : RingId
  status : RingStatus
  data : Byte
  deriving DecidableEq, Repr

/-- The host: its commands from its current position on (R21), the responses it got (R75; log 13), and the words it
read over a mapped port (R57; log 14). Both logs are oldest first. -/
@[ext]
structure HostSide where
  prog : List Word
  resps : List Response
  reads : List Word
  deriving DecidableEq, Repr

/-- An output event of the UDC (R38). -/
inductive OutEvent where
  | txwr (b : Byte)
  | kick
  | rxrd
  | errclr
  | wake
  | baudsel (k : BitVec 4)
  | ie (rx tx : Bool)
  deriving DecidableEq, Repr

/-- A platform's access to the mapped host port; a 16-bit write carries its bytes in address order (R52, R53). -/
inductive BusOp where
  | read8
  | read16
  | write8 (b : Byte)
  | write16 (lo hi : Byte)
  deriving DecidableEq, Repr

/-- Which agent moves next (R6, R228; DESIGN CHOICE, safe: log 1). -/
inductive Event where
  /-- HOST performs, or holds, the command at the head of its program. -/
  | host
  /-- DISP takes a pending enabled interrupt, if there is one (R227). -/
  | disp
  /-- PERIPH's TXDONE, if the slot is occupied (R223). -/
  | txdone
  /-- PERIPH's RXIN(b, e) (R224). -/
  | rxin (b : Byte) (e : Bool)
  /-- DISPATCH entered with a code a peripheral outside the contract presents (R173; log 11). -/
  | cause (iv : Word)
  /-- An operation word on the internal port of ring r, from outside the UDC (R78; log 11). -/
  | ring (r : RingId) (w : RingWord)
  /-- A platform access to the mapped host port (R57; log 14). -/
  | bus (addr : Nat) (op : BusOp)
  deriving DecidableEq, Repr

/-- The whole machine. `sched` and `freeCount` are the model's own fields; `cfg` never changes. -/
@[ext]
structure State where
  cfg : Config
  udc : Udc
  periph : Periph
  host : HostSide
  ringAnswers : List RingAnswer
  trace : List OutEvent
  sched : List Event
  freeCount : Nat
  deriving DecidableEq, Repr

/-- A ring at power-on: cursors unspecified, here zero; no cell written (R240; DESIGN CHOICE, unsafe: log 4). -/
def RingBuf.reset : RingBuf where
  rd := 0
  wr := 0
  cnt := 0
  cells := []

/-- The UDC at power-on. INITED and the arrays are R240's; every other register is unspecified there, here zero
(DESIGN CHOICE, unsafe: log 4). -/
def Udc.reset : Udc where
  inited := false
  txMode := .polled
  rxPol := .line
  baud := 0
  txr := RingBuf.reset
  rxr := RingBuf.reset
  txBusy := false
  lbs := []
  lbP := 0
  lbEn := false
  ovr := 0
  ev := 0

/-- The peripheral at power-on: both enables 0 (R240), the rest by the clean-entry premise (R244); RXB has no value in
the spec (DESIGN CHOICE, unsafe: log 5). -/
def Periph.reset : Periph where
  rxifg := false
  rxb := 0
  rxe := false
  txifg := false
  slot := Option.none
  rxie := false
  txie := false
  sink := []

/-- The machine right after power-on, with given parameters (R240, R242, R244). -/
def State.resetWith (cfg : Config) : State where
  cfg := cfg
  udc := Udc.reset
  periph := Periph.reset
  host := ⟨[], [], []⟩
  ringAnswers := []
  trace := []
  sched := []
  freeCount := 0

/-- The machine right after power-on, with the test vectors' parameters (R8; DESIGN CHOICE, unsafe: log 3). -/
def State.reset : State := State.resetWith Config.vectors

end Sys2Proof.Machine
end

