-- ==== Sys2Proof/Machine/Ops.lean ====
section
/-! DEFINITION. The named operations every meaning is built from: array cells (R10, R30), the ring operations (R101-R103),
the effect of output events on the peripheral (R225), interrupt entry and return (R227, R229, R230), the response of a
command (R75), the INITED check (R195), and the check of the parameters (R8, R9). -/

namespace Sys2Proof.Machine

/-! ### Byte arrays -/

/-- MemRead: the byte of a cell, none where nothing has written it since power-on (R10). -/
def Memory.read : Memory → Nat → Option Byte
  | [], _ => none
  | (a, b) :: m, i => if i = a then some b else Memory.read m i

/-- MemWrite: one byte, keeping the indices strictly rising (R10). -/
def Memory.write : Memory → Nat → Byte → Memory
  | [], i, b => [(i, b)]
  | (a, c) :: m, i, b =>
    if i < a then (i, b) :: (a, c) :: m
    else if i = a then (i, b) :: m
    else (a, c) :: Memory.write m i b

/-- The canonical form: indices strictly rising. Every entry is a written cell, and an unlisted cell is unwritten. -/
abbrev Memory.wf (m : Memory) : Prop := List.Pairwise (fun x y => x.1 < y.1) m

/-- Every listed index lies in an array of `cap` cells (R50). -/
abbrev Memory.within (cap : Nat) (m : Memory) : Prop := ∀ c ∈ m, c.1 < cap

/-- Reading a cell of an array of `cap` cells; the faults are log 6 and log 7. -/
def cellRead (cap : Nat) (m : Memory) (i : Nat) : Except Fault Byte :=
  if i < cap then
    match m.read i with
    | some b => .ok b
    | none => .error .unwrittenRead
  else .error .indexRange

/-- Writing a cell of an array of `cap` cells; the fault is log 7. -/
def cellWrite (cap : Nat) (m : Memory) (i : Nat) (b : Byte) : Except Fault Memory :=
  if i < cap then .ok (m.write i b) else .error .indexRange

/-! ### Rings -/

/-- (v + 1) mod C on the naturals, stored in a 16-bit cursor (R102, R103, R10; DEDUCED, safe: log 8). -/
def cursorNext (cap : Nat) (v : Word) : Word := BitVec.ofNat 16 ((v.toNat + 1) % cap)

/-- RB_INIT: cursors to empty; the array is not touched (R101). -/
def RingBuf.init (r : RingBuf) : RingBuf := { r with rd := 0, wr := 0, cnt := 0 }

/-- RB_PUT: none is FULL, with no change (R102). -/
def RingBuf.put (cap : Nat) (r : RingBuf) (b : Byte) : Except Fault (Option RingBuf) :=
  if r.cnt.toNat = cap then .ok none
  else
    match cellWrite cap r.cells r.wr.toNat b with
    | .error f => .error f
    | .ok cells =>
      .ok (some { r with cells := cells, wr := cursorNext cap r.wr, cnt := BitVec.ofNat 16 (r.cnt.toNat + 1) })

/-- RB_GET: none is EMPTY, with no change (R103). -/
def RingBuf.get (cap : Nat) (r : RingBuf) : Except Fault (Option (Byte × RingBuf)) :=
  if r.cnt.toNat = 0 then .ok none
  else
    match cellRead cap r.cells r.rd.toNat with
    | .error f => .error f
    | .ok b =>
      .ok (some (b, { r with rd := cursorNext cap r.rd, cnt := BitVec.ofNat 16 (r.cnt.toNat - 1) }))

/-- The capacity of a ring: TX_CAP or RX_CAP (R26). -/
def ringCap (cfg : Config) : RingId → Nat
  | .txr => cfg.txCap
  | .rxr => cfg.rxCap

/-- The ring a port belongs to (R26, R78). -/
def State.ring (s : State) : RingId → RingBuf
  | .txr => s.udc.txr
  | .rxr => s.udc.rxr

/-- The machine with one ring replaced. -/
def State.setRing (s : State) (r : RingId) (x : RingBuf) : State :=
  match r with
  | .txr => { s with udc := { s.udc with txr := x } }
  | .rxr => { s with udc := { s.udc with rxr := x } }

/-! ### Output events -/

/-- What an output event does to the peripheral (R225); BAUDSEL and WAKE do nothing to it. -/
def periphEffect (e : OutEvent) (p : Periph) : Periph :=
  match e with
  | .txwr b => { p with slot := some b, txifg := false }
  | .kick => { p with txifg := true }
  | .rxrd => { p with rxifg := false }
  | .errclr => { p with rxe := false }
  | .wake => p
  | .baudsel _ => p
  | .ie rx tx => { p with rxie := rx, txie := tx }

/-- An output event: appended to the trace, and its effect on the peripheral, in the same step (R38, R225). -/
def emit (e : OutEvent) (s : State) : State :=
  { s with trace := s.trace ++ [e], periph := periphEffect e s.periph }

/-- The hardware-ready flag: the transmit slot is empty (R226). -/
def txReady (s : State) : Bool := s.periph.slot.isNone

/-- TXWR(b): a write to an occupied slot is a fault (R225). -/
def emitTxwr (b : Byte) (s : State) : Except Fault State :=
  if txReady s then .ok (emit (.txwr b) s) else .error .txOverwrite

/-! ### Interrupt entry and return -/

/-- DISPATCH is enabled exactly when this holds (R227). -/
def dispatchEnabled (p : Periph) : Bool := (p.rxifg && p.rxie) || (p.txifg && p.txie)

/-- CAUSE: RX first; delivering the TX cause clears its flag (R227). -/
def deliverCause (s : State) : Word × State :=
  if s.periph.rxifg && s.periph.rxie then (causeRx, s)
  else (causeTx, { s with periph := { s.periph with txifg := false } })

/-- Interrupt entry: the code DISP reads and the state it starts in, none where no interrupt is enabled and pending.
The UDC saves nothing and changes no mode (R227, R229). -/
def enterInterrupt (s : State) : Option (Word × State) :=
  if dispatchEnabled s.periph then some (deliverCause s) else none

/-- Return from DISPATCH: the UDC restores nothing (R230). -/
def returnFromInterrupt (o : Host.Outcome State Fault Refusal) : Host.Outcome State Fault Refusal := o

/-! ### Outcomes and responses -/

/-- A computation that may raise a model fault, as an outcome. -/
def finish : Except Fault State → Host.Outcome State Fault Refusal
  | .ok s => .next s
  | .error f => .fault f

/-- resp(st, d) and next: one response, and the host moves to its next command (R10, R75). -/
def respond (st : Status) (d : Word) (s : State) : State :=
  { s with host := { s.host with prog := s.host.prog.tail, resps := s.host.resps ++ [⟨st, d⟩] } }

/-- hold: the agent makes no step (R10, R122). -/
def hold (s : State) : Host.Outcome State Fault Refusal := .next s

/-- The NOTINIT check of every command but NOP and INIT (R195, R196). -/
def requireInit (s : State) (body : Host.Outcome State Fault Refusal) : Host.Outcome State Fault Refusal :=
  if s.udc.inited then body else .next (respond .notInit 0 s)

/-- A ring port's answer to an operation word (R78; log 11). -/
def answerRing (r : RingId) (st : RingStatus) (d : Byte) (s : State) : State :=
  { s with ringAnswers := s.ringAnswers ++ [⟨r, st, d⟩] }

/-! ### Parameters -/

/-- Why a configuration is refused, if it is: a capacity 0 (R9), or a parameter outside R8's range (log 10). -/
def configCheck (cfg : Config) : Option Refusal :=
  if cfg.txCap = 0 ∨ cfg.rxCap = 0 ∨ cfg.lbCap = 0 then some .zeroCapacity
  else if 65535 < cfg.txCap ∨ 65535 < cfg.rxCap ∨ 255 < cfg.lbCap ∨ cfg.baudSet = [] then some .parameterRange
  else none

end Sys2Proof.Machine
end

