-- ==== Sys2Proof/Machine/Operands.lean ====
section
/-! DEFINITION. Operand and data assembly: response data (R76), the numeric codes of statuses (R75, R78), the character
constants (R11), the null-terminated line a consumer reads (R84, R145), and the values of the host's calls (R82-R84). -/

namespace Sys2Proof.Machine

/-- CR = 0x0D (R11). -/
def charCR : Byte := 0x0D#8

/-- LF = 0x0A (R11). -/
def charLF : Byte := 0x0A#8

/-- zext_16 of a byte or of EV (R76). -/
def dataOfByte (b : Byte) : Word := b.zeroExtend 16

/-- The data word of a line-pending response (R150). -/
def linePendingData : Word := 0x0001#16

/-- The 4-bit code of a status (R75). -/
def Status.code : Status → BitVec 4
  | .ok => 0x0#4
  | .empty => 0x1#4
  | .none => 0x2#4
  | .badArg => 0x3#4
  | .illegal => 0x4#4
  | .notInit => 0x5#4

/-- The 2-bit code of a ring status (R78). -/
def RingStatus.code : RingStatus → BitVec 2
  | .ok => 0b00#2
  | .full => 0b01#2
  | .empty => 0b10#2
  | .illegal => 0b11#2

/-- The bytes of a line buffer from index i on, before the first 0x00, over at most n cells (R84, R145).
None where an unwritten cell is reached first: an LBRD of it faults. -/
def lineFrom (m : Memory) : Nat → Nat → Option (List Byte)
  | _, 0 => some []
  | i, n + 1 =>
    match m.read i with
    | none => none
    | some b => if b = 0x00#8 then some [] else (lineFrom m (i + 1) n).map (b :: ·)

/-- The line a consumer reads: LBRD 0, LBRD 1, ... up to and excluding the first 0x00 (R84, R145). -/
def consumerLine (cfg : Config) (m : Memory) : Option (List Byte) := lineFrom m 0 cfg.lbCap

/-! ### Values of the host's calls, from the responses to their commands -/

/-- The value of SEND (bytes_accepted, count_enqueued): the number of bytes, there once the last TXB has completed; `rs`
are the responses since the SEND began. A TXB has completed where it was answered OK (DEDUCED, safe: log 22) (R82). -/
def sendValue (bs : List Byte) (rs : List Response) : Option Nat :=
  if bs.length ≤ rs.length ∧ (rs.take bs.length).all (fun r => r.status == .ok) = true then some bs.length else none

/-- The value of PRINT: the number of bytes sent, the first 0x00 not counted (R83). -/
def printValue (bs : List Byte) (rs : List Response) : Option Nat := sendValue (printBytes bs) rs

/-- The value of get_event(): data bits 7..0 of GETEV's response (R84). -/
def getEventValue (r : Response) : Byte := r.data.extractLsb' 0 8

/-- The value of get_completed_line(): the document's "none", or a line (R84). -/
inductive LineValue where
  | noLine
  | line (bs : List Byte)
  deriving DecidableEq, Repr

/-- The line in the responses to LBRD 0, LBRD 1, ...: the bytes up to and excluding the first 0x00.
None while no 0x00 has been read, or where a read before it was not answered OK (R84). -/
def lineOfReads : List Response → Option (List Byte)
  | [] => none
  | r :: rs =>
    if r.status = .ok then
      if r.data.extractLsb' 0 8 = 0x00#8 then some [] else (lineOfReads rs).map (r.data.extractLsb' 0 8 :: ·)
    else none

/-- The value of get_completed_line(), from GETLN's response and those of its reads: "none" on status NONE, the line on
OK, and no value yet while its reads have not reached the 0x00; a GETLN the UDC did not perform has none
(DEDUCED, safe: log 22) (R84). -/
def getCompletedLineValue (getln : Response) (reads : List Response) : Option LineValue :=
  match getln.status with
  | .none => some .noLine
  | .ok => (lineOfReads reads).map .line
  | .empty => none
  | .badArg => none
  | .illegal => none
  | .notInit => none

end Sys2Proof.Machine
end

