-- ==== Sys2Proof/Machine/Flags.lean ====
section
/-! DEFINITION. The flag and counter computations: the mailbox bits (R35, R175, R177), the overrun counter (R34), the
engine's busy flag and the kick (R29, R123). -/

namespace Sys2Proof.Machine

/-- EV_RX (R8, R35). -/
def evRx : Byte := 0x01#8

/-- EV_TX (R8, R35). -/
def evTx : Byte := 0x02#8

/-- EV <- EV | m, the only write DISP makes to the mailbox (R175). -/
def orEvent (m : Byte) (s : State) : State := { s with udc := { s.udc with ev := s.udc.ev ||| m } }

/-- OVR <- (OVR + 1) mod 2^16 (R34). -/
def countOverrun (s : State) : State := { s with udc := { s.udc with ovr := s.udc.ovr + 1 } }

/-- TX_BUSY <- v (R29). -/
def setBusy (v : Bool) (s : State) : State := { s with udc := { s.udc with txBusy := v } }

/-- KICK: idle to busy, and a transmit interrupt request (R123). -/
def kick (s : State) : State := emit .kick (setBusy true s)

/-- Whether a TXB with flag F kicks: F = 1 or KICK_POLICY = EVERY_PUT, and the engine is idle (R121). -/
def kickWanted (f : Bool) (s : State) : Bool :=
  (f || s.cfg.kickPolicy == .everyPut) && !s.udc.txBusy

/-- The line assembler armed: LB_EN = 1, cursor 0 (R32, R143, R152). -/
def armLine (s : State) : State := { s with udc := { s.udc with lbEn := true, lbP := 0 } }

/-- A completed line: receive-ready set, and WAKE where the target has a low-power mode (R171, R231). -/
def signalLine (s : State) : State :=
  if s.cfg.lpmWake then emit .wake (orEvent evRx s) else orEvent evRx s

end Sys2Proof.Machine
end

