-- ==== Sys2Proof/Machine/Control.lean ====
section
/-! DEFINITION. NOP and initialisation (R190-R194). -/

namespace Sys2Proof.Machine

/-- NOP (R190). -/
def execNop (s : State) : Host.Outcome State Fault Refusal := .next (respond .ok 0 s)

/-- The registers after INIT: every one of R20 but the arrays (R191, R241). -/
def initUdc (baud : BitVec 4) (t : TxMode) (pol : RxPolicy) (u : Udc) : Udc :=
  { u with
    inited := true, txMode := t, rxPol := pol, baud := baud
    txr := u.txr.init, rxr := u.rxr.init
    txBusy := false, lbP := 0, lbEn := true, ovr := 0, ev := 0 }

/-- The interrupt enables INIT sets: RX always, TX only in INTR mode (R191). -/
def initEnables (t : TxMode) : OutEvent := .ie true (decide (t = .intr))

/-- INIT, after the checks of R196 and R193: BADARG for an unsupported rate, else initialisation (R191, R192). -/
def initWith (baud : BitVec 4) (t : TxMode) (pol : RxPolicy) (s : State) : Host.Outcome State Fault Refusal :=
  if baud ∈ s.cfg.baudSet then
    .next (respond .ok 0
      (emit (initEnables t) (emit (.baudsel baud) { s with udc := initUdc baud t pol s.udc })))
  else .next (respond .badArg 0 s)

/-- INIT with the line policy (R191). -/
def execInitLine (baud : BitVec 4) (t : TxMode) (s : State) : Host.Outcome State Fault Refusal :=
  initWith baud t .line s

/-- INIT with the ring policy (R191). -/
def execInitRing (baud : BitVec 4) (t : TxMode) (s : State) : Host.Outcome State Fault Refusal :=
  initWith baud t .ring s

/-- INIT with a caller-supplied handler is refused, before the rate is looked at (R193). -/
def execInitCustom (_baud : BitVec 4) (_t : TxMode) (_s : State) : Host.Outcome State Fault Refusal :=
  .refused .customHandler

end Sys2Proof.Machine
end

