-- ==== Sys2Proof/Machine/Receive.lean ====
section
/-! DEFINITION. The two receive handlers and the consumer commands (R140-R154). -/

namespace Sys2Proof.Machine

/-- A received byte the line assembler does not accept: disabled or full (R142, R143). -/
def lineRejects (s : State) : Bool := !s.udc.lbEn || s.udc.lbP.toNat == s.cfg.lbCap

/-- RXL, the line-buffer handler: `done` and the state after (R142-R144). -/
def rxLine (b : Byte) (s : State) : Except Fault (Bool × State) :=
  if b = charLF then .ok (false, s)
  else if lineRejects s then
    .ok (false, if b = charCR then armLine (countOverrun s) else countOverrun s)
  else if b = charCR then
    match cellWrite s.cfg.lbCap s.udc.lbs s.udc.lbP.toNat 0x00#8 with
    | .error f => .error f
    | .ok m => .ok (true, { s with udc := { s.udc with lbs := m, lbEn := false, lbP := 0 } })
  else
    match cellWrite s.cfg.lbCap s.udc.lbs s.udc.lbP.toNat b with
    | .error f => .error f
    | .ok m => .ok (false, { s with udc := { s.udc with lbs := m, lbP := BitVec.ofNat 8 (s.udc.lbP.toNat + 1) } })

/-- RXR, the ring-buffer handler: every byte is put, a byte on a full ring is counted, CR signals either way (R146). -/
def rxRing (b : Byte) (s : State) : Except Fault (Bool × State) :=
  match s.udc.rxr.put s.cfg.rxCap b with
  | .error f => .error f
  | .ok none => .ok (decide (b = charCR), countOverrun s)
  | .ok (some r) => .ok (decide (b = charCR), s.setRing .rxr r)

/-- The installed receive handler (R141). -/
def rxHandler (b : Byte) (s : State) : Except Fault (Bool × State) :=
  match s.udc.rxPol with
  | .line => rxLine b s
  | .ring => rxRing b s

/-- GETLN: is a completed line pending (R150). -/
def execGetln (s : State) : Host.Outcome State Fault Refusal :=
  requireInit s (.next (if s.udc.lbEn then respond .none 0 s else respond .ok linePendingData s))

/-- LBRD: one line buffer byte; an unwritten cell faults (R151). -/
def execLbrd (i : Byte) (s : State) : Host.Outcome State Fault Refusal :=
  requireInit s
    (if s.cfg.lbCap ≤ i.toNat then .next (respond .badArg 0 s)
    else
      match cellRead s.cfg.lbCap s.udc.lbs i.toNat with
      | .error f => .fault f
      | .ok b => .next (respond .ok (dataOfByte b) s))

/-- REARM: arm the line assembler again (R152). -/
def execRearm (s : State) : Host.Outcome State Fault Refusal :=
  requireInit s (.next (respond .ok 0 (armLine s)))

/-- RXGET: take one byte from the receive ring (R153). -/
def execRxget (s : State) : Host.Outcome State Fault Refusal :=
  requireInit s
    (match s.udc.rxr.get s.cfg.rxCap with
    | .error f => .fault f
    | .ok none => .next (respond .empty 0 s)
    | .ok (some (b, r)) => .next (respond .ok (dataOfByte b) (s.setRing .rxr r)))

/-- RDERR: read the overrun counter (R154). -/
def execRderr (s : State) : Host.Outcome State Fault Refusal :=
  requireInit s (.next (respond .ok s.udc.ovr s))

end Sys2Proof.Machine
end

