-- ==== Sys2Proof/Machine/Transmit.lean ====
section
/-! DEFINITION. The transmit pump: TXB in both modes and the transmit-complete handler TXC (R120-R128). -/

namespace Sys2Proof.Machine

/-- TXB in INTR mode: hold on a full ring, else put, then kick an idle engine where wanted; the put does not
touch what the kick test reads (R121, R122). -/
def txbIntr (f : Bool) (d : Byte) (s : State) : Host.Outcome State Fault Refusal :=
  match s.udc.txr.put s.cfg.txCap d with
  | .error e => .fault e
  | .ok none => hold s
  | .ok (some r) =>
    .next (respond .ok 0 (if kickWanted f s then kick (s.setRing .txr r) else s.setRing .txr r))

/-- TXB in POLLED mode: hold while the slot is occupied, else write it directly; F has no effect (R126). -/
def txbPolled (d : Byte) (s : State) : Host.Outcome State Fault Refusal :=
  if txReady s then .next (respond .ok 0 (emit (.txwr d) s)) else hold s

/-- TXB by transmit mode (R121, R126). -/
def txbWith (f : Bool) (d : Byte) (s : State) : Host.Outcome State Fault Refusal :=
  match s.udc.txMode with
  | .intr => txbIntr f d s
  | .polled => txbPolled d s

/-- TXB with F = 0. -/
def execTxb (d : Byte) (s : State) : Host.Outcome State Fault Refusal := requireInit s (txbWith false d s)

/-- TXB with F = 1. -/
def execTxbF (d : Byte) (s : State) : Host.Outcome State Fault Refusal := requireInit s (txbWith true d s)

/-- The engine goes idle on an empty ring; EV_TX only where TX_EV_ON_IDLE (R124). -/
def txIdle (s : State) : State :=
  if s.cfg.txEvOnIdle then orEvent evTx (setBusy false s) else setBusy false s

/-- TXC, the transmit-complete handler (R124). -/
def txComplete (s : State) : Except Fault State :=
  match s.udc.txr.get s.cfg.txCap with
  | .error e => .error e
  | .ok none => .ok (txIdle s)
  | .ok (some (b, r)) => (emitTxwr b (s.setRing .txr r)).map (setBusy true)

end Sys2Proof.Machine
end

