-- ==== Sys2Proof/Machine/Dispatcher.lean ====
section
/-! DEFINITION. The three cases of DISPATCH (R170-R174). -/

namespace Sys2Proof.Machine

/-- What DISP.RX does with a byte that has no hardware error: the handler, then the mailbox and WAKE (R171). -/
def acceptByte (b : Byte) (s : State) : Except Fault State :=
  (rxHandler b s).map fun r => if r.1 then signalLine r.2 else r.2

/-- DISP.RX: the latch is read unconditionally; an erroneous byte is discarded before any handler (R171, R212). -/
def execDispRx (s : State) : Host.Outcome State Fault Refusal :=
  if s.periph.rxe then .next (emit .errclr (emit .rxrd s))
  else finish (acceptByte s.periph.rxb (emit .rxrd s))

/-- DISP.TX: TXC (R172). -/
def execDispTx (s : State) : Host.Outcome State Fault Refusal := finish (txComplete s)

/-- DISP.NONE: no change, no event (R173). -/
def execDispNone (_iv : Word) (s : State) : Host.Outcome State Fault Refusal := .next s

end Sys2Proof.Machine
end

