-- ==== Sys2Proof/Machine/Mailbox.lean ====
section
/-! DEFINITION. The host side of the event mailbox: GETEV and CLREV (R176, R177). -/

namespace Sys2Proof.Machine

/-- GETEV: read EV without clearing it (R176). -/
def execGetev (s : State) : Host.Outcome State Fault Refusal :=
  requireInit s (.next (respond .ok (dataOfByte s.udc.ev) s))

/-- CLREV: clear all of EV (R177). -/
def execClrev (s : State) : Host.Outcome State Fault Refusal :=
  requireInit s (.next (respond .ok 0 { s with udc := { s.udc with ev := 0 } }))

end Sys2Proof.Machine
end

