-- ==== Sys2Proof/Machine/RingPort.lean ====
section
/-! DEFINITION. The three operations of a ring's internal port, as a block of its own (R78, R101-R104). -/

namespace Sys2Proof.Machine

/-- RB.INIT on ring r; D is ignored (R101). -/
def execRbInit (r : RingId) (_d : Byte) (s : State) : Host.Outcome State Fault Refusal :=
  .next (answerRing r .ok 0 (s.setRing r (s.ring r).init))

/-- RB.PUT of byte d on ring r (R102). -/
def execRbPut (r : RingId) (d : Byte) (s : State) : Host.Outcome State Fault Refusal :=
  match (s.ring r).put (ringCap s.cfg r) d with
  | .error f => .fault f
  | .ok none => .next (answerRing r .full 0 s)
  | .ok (some x) => .next (answerRing r .ok 0 (s.setRing r x))

/-- RB.GET on ring r; D is ignored (R103). -/
def execRbGet (r : RingId) (_d : Byte) (s : State) : Host.Outcome State Fault Refusal :=
  match (s.ring r).get (ringCap s.cfg r) with
  | .error f => .fault f
  | .ok none => .next (answerRing r .empty 0 s)
  | .ok (some (b, x)) => .next (answerRing r .ok b (s.setRing r x))

end Sys2Proof.Machine
end

