-- ==== Sys2Proof/Machine/Dispatch.lean ====
section
/-! DEFINITION. One arm per operation (spec/opcode_table.json). -/

namespace Sys2Proof.Machine

/-- The meaning of an operation. -/
def exec (i : Instr) (s : State) : Host.Outcome State Fault Refusal :=
  match i with
  | .nop => Sys2Proof.Machine.execNop s
  | .initLine baud t => Sys2Proof.Machine.execInitLine baud t s
  | .initRing baud t => Sys2Proof.Machine.execInitRing baud t s
  | .initCustom baud t => Sys2Proof.Machine.execInitCustom baud t s
  | .txb d => Sys2Proof.Machine.execTxb d s
  | .txbF d => Sys2Proof.Machine.execTxbF d s
  | .getev => Sys2Proof.Machine.execGetev s
  | .clrev => Sys2Proof.Machine.execClrev s
  | .getln => Sys2Proof.Machine.execGetln s
  | .lbrd k => Sys2Proof.Machine.execLbrd k s
  | .rearm => Sys2Proof.Machine.execRearm s
  | .rxget => Sys2Proof.Machine.execRxget s
  | .rderr => Sys2Proof.Machine.execRderr s
  | .rbInit r d => Sys2Proof.Machine.execRbInit r d s
  | .rbPut r d => Sys2Proof.Machine.execRbPut r d s
  | .rbGet r d => Sys2Proof.Machine.execRbGet r d s
  | .dispRx => Sys2Proof.Machine.execDispRx s
  | .dispTx => Sys2Proof.Machine.execDispTx s
  | .dispNone iv => Sys2Proof.Machine.execDispNone iv s

end Sys2Proof.Machine
end

