-- ==== Sys2Proof/Machine/Peripheral.lean ====
section
/-! DEFINITION. The steps of the UART peripheral, the environment's contract (R220-R224). -/

namespace Sys2Proof.Machine

/-- TXDONE: enabled when the slot is occupied; otherwise PERIPH makes no step (R223). -/
def periphTxdone (p : Periph) : Periph :=
  match p.slot with
  | some b => { p with sink := p.sink ++ [b], slot := none, txifg := true }
  | none => p

/-- RXIN(b, e): a byte arrives; one not yet read makes it a peripheral-level overrun (R224). -/
def periphRxin (b : Byte) (e : Bool) (p : Periph) : Periph :=
  { p with rxb := b, rxe := (if p.rxifg then true else e), rxifg := true }

end Sys2Proof.Machine
end

