-- ==== Sys2Proof/Machine/PortMap.lean ====
section
/-! DEFINITION. The host port mapped into a platform's byte-addressed memory at UDC_BASE: offset 0 command word (write),
offset 2 response status in bits 3..0 (read), offset 4 response data (read); little-endian, aligned 16-bit accesses only
(R52, R53, R57; log 14). -/

namespace Sys2Proof.Machine

/-- A 16-bit word of its two bytes, the low byte at the lower address (R52). -/
def wordOfBytes (lo hi : Byte) : Word := hi ++ lo

/-- A fresh value the spec leaves open (log 15). -/
def freshWord (s : State) : Word := Config.freeWord s.freeCount

/-- The status word the host reads: status in bits 3..0, the other bits open; all open before the first response
(R57; log 14, log 15). -/
def statusWord (s : State) : Word :=
  match s.host.resps.getLast? with
  | some r => (freshWord s).extractLsb' 4 12 ++ r.status.code
  | none => freshWord s

/-- The data word the host reads; open before the first response (R57; log 14, log 15). -/
def dataWord (s : State) : Word :=
  match s.host.resps.getLast? with
  | some r => r.data
  | none => freshWord s

/-- The host reads a word over the bus; the free-value counter moves on. -/
def deliverRead (w : Word) (s : State) : State :=
  { s with host := { s.host with reads := s.host.reads ++ [w] }, freeCount := s.freeCount + 1 }

/-- A command word written over the bus is the host's next command after those it has already issued (R57, R70). -/
def issueCommand (w : Word) (s : State) : State :=
  { s with host := { s.host with prog := s.host.prog ++ [w] } }

/-- An access the spec does not cover: against a register's width, alignment or direction, or outside the window
(R53, R57). -/
def outsidePort (off : Nat) : Host.Outcome State Fault Refusal :=
  if off < 6 then .refused .portAccess else .refused .notMapped

/-- One bus access at an offset from UDC_BASE (R53, R57). -/
def portAccessAt (off : Nat) (op : BusOp) (s : State) : Host.Outcome State Fault Refusal :=
  match op with
  | .write16 lo hi => if off = 0 then .next (issueCommand (wordOfBytes lo hi) s) else outsidePort off
  | .read16 =>
    if off = 2 then .next (deliverRead (statusWord s) s)
    else if off = 4 then .next (deliverRead (dataWord s) s)
    else outsidePort off
  | .read8 => outsidePort off
  | .write8 _ => outsidePort off

/-- One bus access at an address (R57). -/
def busAccess (addr : Nat) (op : BusOp) (s : State) : Host.Outcome State Fault Refusal :=
  match s.cfg.udcBase with
  | none => .refused .notMapped
  | some base =>
    if addr < base then .refused .notMapped
    else if base % 2 = 1 then .refused .portAccess
    else portAccessAt (addr - base) op s

end Sys2Proof.Machine
end

