-- ==== Sys2Proof/Machine/Agents.lean ====
section
/-! DEFINITION. One step of each agent, by the event the schedule names (R6, R7, R170, R197, R227, R228). -/

namespace Sys2Proof.Machine

/-- HOST: the command at the head of its program; an illegal word is answered ILLEGAL with no effect; a host whose
program is exhausted makes no step (R70, R196, R197). -/
def hostStep (s : State) : Host.Outcome State Fault Refusal :=
  match s.host.prog with
  | [] => .next s
  | w :: _ =>
    match decodeCommand w with
    | .ok i => exec i s
    | .error _ => .next (respond .illegal 0 s)

/-- DISP: one DISPATCH where an enabled interrupt is pending, else no step (R170, R227, R229, R230). -/
def dispStep (s : State) : Host.Outcome State Fault Refusal :=
  match enterInterrupt s with
  | none => .next s
  | some (iv, s1) => returnFromInterrupt (exec (decodeCause iv) s1)

/-- DISPATCH entered with a code from outside the contract; the peripheral's flags are as they are (R170, R173; log 11). -/
def causeStep (iv : Word) (s : State) : Host.Outcome State Fault Refusal :=
  returnFromInterrupt (exec (decodeCause iv) s)

/-- A word on a ring's internal port; operation 11 is answered ILLEGAL with no effect (R78, R104). -/
def ringStep (r : RingId) (w : RingWord) (s : State) : Host.Outcome State Fault Refusal :=
  match decodeRing r w with
  | .ok i => exec i s
  | .error _ => .next (answerRing r .illegal 0 s)

/-- The step of the agent an event names. -/
def agentStep (e : Event) (s : State) : Host.Outcome State Fault Refusal :=
  match e with
  | .host => hostStep s
  | .disp => dispStep s
  | .txdone => .next { s with periph := periphTxdone s.periph }
  | .rxin b err => .next { s with periph := periphRxin b err s.periph }
  | .cause iv => causeStep iv s
  | .ring r w => ringStep r w s
  | .bus addr op => busAccess addr op s

/-- The machine with a word placed on a port, to be the very next thing done (log 2, log 12). -/
def placeWord (s : State) (p : PortWord) : State :=
  match p with
  | .command w => { s with host := { s.host with prog := w :: s.host.prog }, sched := .host :: s.sched }
  | .cause iv => { s with sched := .cause iv :: s.sched }
  | .ring r w => { s with sched := .ring r w :: s.sched }

end Sys2Proof.Machine
end

