-- ==== Sys2Proof/Machine/Step.lean ====
section
/-! DEFINITION. One step of the machine: the agent the schedule names (R7, R228), in a machine whose parameters are
legal (R9); and the placing of a word for the host's question. -/

namespace Sys2Proof.Machine

/-- One step. The event at the head of the schedule is taken off and its agent steps; with no event no agent moves. -/
def step (s : State) : Host.Outcome State Fault Refusal :=
  match configCheck s.cfg with
  | some r => .refused r
  | none =>
    match s.sched with
    | [] => .next s
    | e :: es => agentStep e { s with sched := es }

/-- The state with a table word placed where the next step finds it (log 2, log 12). -/
def State.withFetchWord (s : State) (nbits w : Nat) : State := placeWord s (portOfTableWord nbits w)

end Sys2Proof.Machine
end

