-- ==== Sys2Proof/Safety.lean ====
section
/-! DEFINITION. What claims about the machine are stated in: legal parameters (R8), the machine's invariant (R27, R36,
R128 and others), who runs what (R219), runs, final states and hangs (R245), the bytes queued and sent (R127), and the
error classes (R211). -/

namespace Sys2Proof.Machine

/-- Parameters in the ranges of R8. -/
structure LegalConfig (cfg : Config) : Prop where
  txCap_pos : 1 ≤ cfg.txCap
  txCap_le : cfg.txCap ≤ 65535
  rxCap_pos : 1 ≤ cfg.rxCap
  rxCap_le : cfg.rxCap ≤ 65535
  lbCap_pos : 1 ≤ cfg.lbCap
  lbCap_le : cfg.lbCap ≤ 255
  baudSet_ne : cfg.baudSet ≠ []

/-! ### Invariants -/

/-- The ring invariant of R27, for a ring of capacity `cap`. -/
structure RingInv (cap : Nat) (r : RingBuf) : Prop where
  cnt_le : r.cnt.toNat ≤ cap
  rd_lt : r.rd.toNat < cap
  wr_lt : r.wr.toNat < cap
  wr_eq : r.wr.toNat = (r.rd.toNat + r.cnt.toNat) % cap
  written : ∀ k < r.cnt.toNat, (r.cells.read ((r.rd.toNat + k) % cap)).isSome

/-- An array of `cap` cells in canonical form. -/
structure ArrayInv (cap : Nat) (m : Memory) : Prop where
  wf : m.wf
  within : m.within cap

/-- The line buffer holds a readable line: written cells up to a 0x00 (R145). -/
def LineReadable (cap : Nat) (m : Memory) : Prop :=
  ∃ k < cap, m.read k = some 0x00#8 ∧ ∀ j < k, (m.read j).isSome

/-- What holds of the registers once INITED = 1. -/
structure InitedInv (s : State) : Prop where
  /-- R27 for TXR. -/
  txr : RingInv s.cfg.txCap s.udc.txr
  /-- R27 for RXR. -/
  rxr : RingInv s.cfg.rxCap s.udc.rxr
  /-- R31: LB_P is in 0..LB_CAP. -/
  lbP_le : s.udc.lbP.toNat ≤ s.cfg.lbCap
  /-- The cells below the cursor hold accepted bytes (R31). -/
  accumulated : ∀ k < s.udc.lbP.toNat, (s.udc.lbs.read k).isSome
  /-- A pending line is readable, and the cursor is at 0 (R142, R145). -/
  pending : s.udc.lbEn = false → s.udc.lbP = 0 ∧ LineReadable s.cfg.lbCap s.udc.lbs
  /-- R25: BAUD is in BAUD_SET. -/
  baud_mem : s.udc.baud ∈ s.cfg.baudSet
  /-- R36: bits 7..2 of EV are 0. -/
  ev_reserved : s.udc.ev &&& 0xFC#8 = 0#8
  /-- EV_TX is set only where TX_EV_ON_IDLE (R124). -/
  ev_tx : s.cfg.txEvOnIdle = false → s.udc.ev.getLsbD 1 = false
  /-- R128: a busy engine has a transmit interrupt pending or coming. -/
  busy : s.udc.txBusy = true → s.periph.txifg = true ∨ s.periph.slot.isSome
  /-- R33, R146: in RING policy no line is ever pending, and the line cursor stays at 0. -/
  ring_armed : s.udc.rxPol = .ring → s.udc.lbEn = true ∧ s.udc.lbP = 0

/-- The invariant of the machine: holds at power-on, and every step keeps it. -/
structure MachineInv (s : State) : Prop where
  legal : LegalConfig s.cfg
  txs : ArrayInv s.cfg.txCap s.udc.txr.cells
  rxs : ArrayInv s.cfg.rxCap s.udc.rxr.cells
  lbs : ArrayInv s.cfg.lbCap s.udc.lbs
  /-- No interrupt is enabled before INIT; after it RX is, and TX in INTR mode (R227, R240, R241). -/
  rxie : s.periph.rxie = s.udc.inited
  txie : s.periph.txie = (s.udc.inited && decide (s.udc.txMode = .intr))
  inited : s.udc.inited = true → InitedInv s

/-- The ring an installed policy does not use stays empty, and so does the engine in POLLED mode (R126, R153). -/
def UnusedRingsEmpty (s : State) : Prop :=
  s.udc.inited = true →
    (s.udc.rxPol = .line → s.udc.rxr.cnt = 0) ∧
    (s.udc.txMode = .polled → s.udc.txr.cnt = 0 ∧ s.udc.txBusy = false)

/-- In INTR mode an occupied slot goes with a busy engine and a clear transmit flag; a run keeps this unless INIT is
issued while the slot is occupied (R255). -/
def SlotTracked (s : State) : Prop :=
  s.udc.inited = true → s.udc.txMode = .intr → s.periph.slot.isSome →
    s.udc.txBusy = true ∧ s.periph.txifg = false

/-! ### Agents and what the next step runs -/

/-- The two execution contexts (R219). -/
inductive Context where
  | mainLoop
  | interrupt
  deriving DecidableEq, Repr

/-- The context an operation runs in; a word on a ring's internal port runs in neither (R219, R78). -/
def contextOf (i : Instr) : Option Context :=
  match encode i with
  | .command _ => some .mainLoop
  | .cause _ => some .interrupt
  | .ring _ _ => none

/-- An event of the three agents under the peripheral contract: neither a code from outside it nor a word on an internal
port (R173, R107). -/
def Event.inContract : Event → Bool
  | .host => true
  | .disp => true
  | .txdone => true
  | .rxin _ _ => true
  | .cause _ => false
  | .ring _ _ => false
  | .bus _ _ => true

/-- A step of HOST, DISP or PERIPH, the three agents of a run (R6, R59). A bus access is none of them: it is the platform
handing the host a further command. -/
def Event.isAgentStep : Event → Bool
  | .host => true
  | .disp => true
  | .txdone => true
  | .rxin _ _ => true
  | .cause _ => false
  | .ring _ _ => false
  | .bus _ _ => false

/-- The operation the next step runs, if it runs one. -/
def nextInstr (s : State) : Option Instr :=
  match s.sched with
  | .host :: _ => s.host.prog.head?.bind fun w => (decodeCommand w).toOption
  | .disp :: _ => (enterInterrupt s).map fun p => decodeCause p.1
  | .cause iv :: _ => some (decodeCause iv)
  | .ring r w :: _ => (decodeRing r w).toOption
  | _ => none

/-- INIT with a built-in policy, of any rate and mode. -/
def isInitOp : Instr → Bool
  | .initLine _ _ => true
  | .initRing _ _ => true
  | _ => false

/-- The next step is an INIT that completes. -/
def nextInitialises (s : State) : Prop :=
  ∃ baud t, baud ∈ s.cfg.baudSet ∧ (nextInstr s = some (.initLine baud t) ∨ nextInstr s = some (.initRing baud t))

/-- The byte of the TXB the next step performs, as a list: empty where it performs none (R121, R126). -/
def nextAcceptedBytes (s : State) : List Byte :=
  match nextInstr s with
  | some (.txb d) | some (.txbF d) =>
    if s.udc.inited = false then []
    else match s.udc.txMode with
      | .intr => if s.udc.txr.cnt.toNat = s.cfg.txCap then [] else [d]
      | .polled => if s.periph.slot.isSome then [] else [d]
  | _ => []

/-- The host after resp(st, d) and next (R10, R75). -/
def answered (s : State) (st : Status) (d : Word) : HostSide :=
  ⟨s.host.prog.tail, s.host.resps ++ [⟨st, d⟩], s.host.reads⟩

/-! ### Queues, lines and errors -/

/-- The bytes a ring holds, oldest first (R106). -/
def RingBuf.contents (cap : Nat) (r : RingBuf) : List Byte :=
  (List.range r.cnt.toNat).filterMap fun k => r.cells.read ((r.rd.toNat + k) % cap)

/-- The bytes of the TXWR events of a trace, oldest first (R127). -/
def sentBytes (tr : List OutEvent) : List Byte :=
  tr.filterMap fun e => match e with
    | .txwr b => some b
    | _ => none

/-- The state of a ring under a sequence of operations, and the bytes put into and got from it so far. -/
structure RingRun where
  ring : RingBuf
  puts : List Byte
  gets : List Byte

/-- A sequence of RB_PUT (some byte) and RB_GET (none) on one ring (R106). -/
def ringRun (cap : Nat) : List (Option Byte) → RingRun → Except Fault RingRun
  | [], x => .ok x
  | some b :: ops, x =>
    match x.ring.put cap b with
    | .error f => .error f
    | .ok none => ringRun cap ops x
    | .ok (some r) => ringRun cap ops { x with ring := r, puts := x.puts ++ [b] }
  | none :: ops, x =>
    match x.ring.get cap with
    | .error f => .error f
    | .ok none => ringRun cap ops x
    | .ok (some (b, r)) => ringRun cap ops { x with ring := r, gets := x.gets ++ [b] }

/-- A sequence of received bytes given to the line assembler; the list says what each one signalled (R140). -/
def feedLine : List Byte → State → Except Fault (List Bool × State)
  | [], s => .ok ([], s)
  | b :: bs, s =>
    match rxLine b s with
    | .error f => .error f
    | .ok (d, s1) => (feedLine bs s1).map fun r => (d :: r.1, r.2)

/-- The spec's labels for the document's error classes; no register holds them (R211). -/
inductive ErrorClass where
  | errA
  | errB
  | errC
  | errD
  deriving DecidableEq, Repr

/-- ERR_A: a TXB in INTR mode meets a full ring (R211). -/
def txbError (s : State) : Option ErrorClass :=
  if s.udc.txMode = .intr ∧ s.udc.txr.cnt.toNat = s.cfg.txCap then some .errA else none

/-- ERR_B, ERR_C, ERR_D: what DISP.RX meets with the byte in the latch (R211). -/
def receiveError (s : State) : Option ErrorClass :=
  if s.periph.rxe then some .errB
  else match s.udc.rxPol with
    | .line =>
      if s.periph.rxb ≠ charLF ∧ (s.udc.lbEn = false ∨ s.udc.lbP.toNat = s.cfg.lbCap) then some .errC else none
    | .ring => if s.udc.rxr.cnt.toNat = s.cfg.rxCap then some .errD else none

/-- Two machines before INIT that differ at most in the registers R240 leaves unspecified, with no interrupt enabled. -/
structure PowerOnAlike (s t : State) : Prop where
  uninit : s.udc.inited = false
  uninit' : t.udc.inited = false
  rxie : s.periph.rxie = false
  txie : s.periph.txie = false
  outside : t = { s with udc := t.udc }
  txs : t.udc.txr.cells = s.udc.txr.cells
  rxs : t.udc.rxr.cells = s.udc.rxr.cells
  lbs : t.udc.lbs = s.udc.lbs

/-! ### Runs -/

/-- The run in which the given events are taken in order. -/
def runEvents (evs : List Event) (s : State) : Host.Outcome State Fault Refusal :=
  Host.Core.run core evs.length { s with sched := evs }

/-- A final state: the host program is exhausted, no DISPATCH is enabled, the slot is empty, and in INTR mode the ring
is empty and the engine idle (R245). -/
def IsFinal (s : State) : Prop :=
  s.host.prog = [] ∧ dispatchEnabled s.periph = false ∧ s.periph.slot = none ∧
    (s.udc.inited = true → s.udc.txMode = .intr → s.udc.txr.cnt = 0 ∧ s.udc.txBusy = false)

/-- A hang: no sequence of steps of HOST, DISP and PERIPH leads to a final state (R245). -/
def IsHang (s : State) : Prop :=
  ∀ evs : List Event, (∀ e ∈ evs, e.isAgentStep = true) → ∀ t, runEvents evs s = .next t → ¬ IsFinal t

end Sys2Proof.Machine
end

