-- ==== Sys2Proof/Certificates/Slice0/Obligations.lean ====
section
/-! DEFINITION. The statements for the provers. -/

open Sys2Proof Sys2Proof.Machine

/-! ### Encoding -/

/-- Words of the spec's example table, a cause code each and a ring word each, decode to what they stand for
(R85, R77, R78). -/
def Obligations.SpecWordsDecode : Prop :=
  decodeCommand 0x0000#16 = .ok .nop ∧
  decodeCommand 0x1004#16 = .ok (.initLine 0#4 .intr) ∧
  decodeCommand 0x1005#16 = .ok (.initRing 0#4 .intr) ∧
  decodeCommand 0x1000#16 = .ok (.initLine 0#4 .polled) ∧
  decodeCommand 0x1306#16 = .ok (.initCustom 3#4 .intr) ∧
  decodeCommand 0x1007#16 = .error .illegalPolicy ∧
  decodeCommand 0x2148#16 = .ok (.txbF 0x48#8) ∧
  decodeCommand 0x2069#16 = .ok (.txb 0x69#8) ∧
  decodeCommand 0x2200#16 = .error .reservedBits ∧
  decodeCommand 0x6003#16 = .ok (.lbrd 3#8) ∧
  decodeCommand 0x8000#16 = .ok .rxget ∧
  decodeCommand 0xA000#16 = .error .reservedOpcode ∧
  decodeCause 0x0002#16 = .dispRx ∧ decodeCause 0x0004#16 = .dispTx ∧ decodeCause 0x0006#16 = .dispNone 0x0006#16 ∧
  decodeRing .txr 0x141#10 = .ok (.rbPut .txr 0x41#8) ∧ decodeRing .rxr 0x300#10 = .error .reservedRingOp

/-- Every well-formed operation is read back from its word (R71-R73, R77, R78). -/
def Obligations.DecodeEncode : Prop :=
  ∀ i : Instr, i.wellFormed = true → decode (encode i) = .ok i

/-- Every word that decodes is the word of what it decodes to, on every port: no bit of a word is dropped
(R71-R73, R77, R78, R80). -/
def Obligations.EncodeDecode : Prop :=
  ∀ (p : PortWord) (i : Instr), decode p = .ok i → encode i = p ∧ i.wellFormed = true

/-- A command word is illegal exactly when its opcode is 0xA..0xF, a reserved bit of its operand is 1, or it is INIT with
rr = 11 (R73, R74, R79, R196, R197). -/
def Obligations.IllegalWordsExactly : Prop :=
  ∀ w : Word,
    (∃ e, decodeCommand w = .error e) ↔
      (0xA ≤ w.toNat / 0x1000 ∨
       (w.toNat / 0x1000 ∈ [0x0, 0x3, 0x4, 0x5, 0x7, 0x8, 0x9] ∧ w.toNat % 0x1000 ≠ 0) ∨
       (w.toNat / 0x1000 = 0x1 ∧ (w.toNat % 0x100 / 8 ≠ 0 ∨ w.toNat % 4 = 3)) ∨
       (w.toNat / 0x1000 = 0x2 ∧ w.toNat % 0x1000 / 0x200 ≠ 0) ∨
       (w.toNat / 0x1000 = 0x6 ∧ w.toNat % 0x1000 / 0x100 ≠ 0))

/-- SEND of bytes b0 ... b(n-1) is TXB.F b0 and then TXB bk, in order, and nothing for n = 0, and its value is n once its n
commands are answered OK, and not before; PRINT is SEND of the bytes before the first 0x00, with the number of those as
its value (R82, R83). -/
def Obligations.SendExpandsToTxb : Prop :=
  commandWords (sendOps []) = [] ∧
  (∀ (b : Byte) (bs : List Byte),
    (commandWords (sendOps (b :: bs))).map decodeCommand = .ok (.txbF b) :: bs.map (fun c => .ok (.txb c))) ∧
  (∀ bs cs : List Byte, 0x00#8 ∉ bs → printOps (bs ++ 0x00#8 :: cs) = sendOps bs ∧ printOps bs = sendOps bs) ∧
  (∀ (bs : List Byte) (rs later : List Response), rs.length = bs.length → (∀ r ∈ rs, r.status = .ok) →
    sendValue bs (rs ++ later) = some bs.length) ∧
  (∀ (bs : List Byte) (rs : List Response), rs.length < bs.length → sendValue bs rs = none) ∧
  (∀ (bs cs : List Byte) (rs : List Response), 0x00#8 ∉ bs →
    printValue (bs ++ 0x00#8 :: cs) rs = sendValue bs rs ∧ printValue bs rs = sendValue bs rs)

/-! ### Steps of the agents -/

/-- A HOST step runs the decoded command at the head of the program, and answers an illegal word ILLEGAL with no effect
(R70, R197). -/
def Obligations.StepRunsTheCommand : Prop :=
  ∀ (s : State) (w : Word) (ws : List Word) (es : List Event),
    LegalConfig s.cfg → s.sched = .host :: es → s.host.prog = w :: ws →
    (∀ i, decodeCommand w = .ok i → step s = exec i { s with sched := es }) ∧
    (∀ e, decodeCommand w = .error e → step s = .next { s with sched := es, host := answered s .illegal 0 })

/-- A word on a ring's internal port runs the decoded ring operation; operation 11 is answered ILLEGAL and changes nothing
else; a cause code presented runs the case it selects (R78, R104, R170). -/
def Obligations.StepRunsPortWords : Prop :=
  ∀ (s : State) (es : List Event), LegalConfig s.cfg →
    (∀ (r : RingId) (w : RingWord) (i : Instr), s.sched = .ring r w :: es → decodeRing r w = .ok i →
      step s = exec i { s with sched := es }) ∧
    (∀ (r : RingId) (w : RingWord), s.sched = .ring r w :: es → w.extractLsb' 8 2 = 3#2 →
      step s = .next { s with sched := es, ringAnswers := s.ringAnswers ++ [⟨r, .illegal, 0⟩] }) ∧
    (∀ iv : Word, s.sched = .cause iv :: es → step s = exec (decodeCause iv) { s with sched := es })

/-- DISP takes an interrupt exactly when one is pending and enabled; RX comes first, and delivering the TX cause clears
its flag. Entry changes nothing else (R227, R229). -/
def Obligations.StepTakesTheInterrupt : Prop :=
  ∀ (s : State) (es : List Event), LegalConfig s.cfg → s.sched = .disp :: es →
    (s.periph.rxifg = true ∧ s.periph.rxie = true → step s = exec .dispRx { s with sched := es }) ∧
    (¬ (s.periph.rxifg = true ∧ s.periph.rxie = true) → s.periph.txifg = true ∧ s.periph.txie = true →
      step s = exec .dispTx { s with sched := es, periph := { s.periph with txifg := false } }) ∧
    (¬ (s.periph.rxifg = true ∧ s.periph.rxie = true) → ¬ (s.periph.txifg = true ∧ s.periph.txie = true) →
      step s = .next { s with sched := es })

/-- The peripheral's own steps: TXDONE moves the slot's byte to the line and raises the transmit flag, RXIN fills the
latch and is an overrun where the last byte was not read (R223, R224). -/
def Obligations.PeripheralSteps : Prop :=
  ∀ (s : State) (es : List Event), LegalConfig s.cfg →
    (∀ b, s.sched = .txdone :: es → s.periph.slot = some b →
      step s = .next { s with
        sched := es
        periph := { s.periph with sink := s.periph.sink ++ [b], slot := none, txifg := true } }) ∧
    (∀ b e, s.sched = .rxin b e :: es → s.periph.rxifg = true →
      step s = .next { s with sched := es, periph := { s.periph with rxb := b, rxe := true, rxifg := true } }) ∧
    (∀ b e, s.sched = .rxin b e :: es → s.periph.rxifg = false →
      step s = .next { s with sched := es, periph := { s.periph with rxb := b, rxe := e, rxifg := true } })

/-- A turn given to an agent that has no enabled step changes nothing: a host whose program is exhausted, a peripheral
with an empty slot, an empty schedule. That a turn is given and used up so is the model's (log 1, log 20); R223 and R245
say only that there is no such step. -/
def Obligations.DisabledAgentsMakeNoStep : Prop :=
  ∀ (s : State) (es : List Event), LegalConfig s.cfg →
    (s.sched = .host :: es → s.host.prog = [] → step s = .next { s with sched := es }) ∧
    (s.sched = .txdone :: es → s.periph.slot = none → step s = .next { s with sched := es }) ∧
    (s.sched = [] → step s = .next s)

/-- A configuration with a capacity 0 is refused, whatever else the state holds (R9). -/
def Obligations.ZeroCapacityRefused : Prop :=
  ∀ s : State, (s.cfg.txCap = 0 ∨ s.cfg.rxCap = 0 ∨ s.cfg.lbCap = 0) → step s = .refused .zeroCapacity

/-- The mapped host port: a 16-bit write at offset 0 is the host's next command word, low byte at the lower address;
16-bit reads at offsets 2 and 4 give the last response's status in bits 3..0 and its data; byte-wide accesses of the
port registers are outside the spec (R52, R53, R57). Which refusal, and that a written word waits its turn, are the
model's (log 14). -/
def Obligations.MappedPort : Prop :=
  ∀ (s : State) (base : Nat) (es : List Event), LegalConfig s.cfg → s.cfg.udcBase = some base → base % 2 = 0 →
    (∀ w : Word, s.sched = .bus base (.write16 (w.extractLsb' 0 8) (w.extractLsb' 8 8)) :: es →
      step s = .next { s with sched := es, host := { s.host with prog := s.host.prog ++ [w] } }) ∧
    (∀ r : Response, s.host.resps.getLast? = some r → s.sched = .bus (base + 2) .read16 :: es →
      ∃ v : Word, v.extractLsb' 0 4 = r.status.code ∧ step s = .next { s with
        sched := es
        host := { s.host with reads := s.host.reads ++ [v] }, freeCount := s.freeCount + 1 }) ∧
    (∀ r : Response, s.host.resps.getLast? = some r → s.sched = .bus (base + 4) .read16 :: es →
      step s = .next { s with
        sched := es
        host := { s.host with reads := s.host.reads ++ [r.data] }, freeCount := s.freeCount + 1 }) ∧
    (∀ off : Nat, off < 6 → ∀ b : Byte,
      (s.sched = .bus (base + off) .read8 :: es ∨ s.sched = .bus (base + off) (.write8 b) :: es) →
      step s = .refused .portAccess)

/-! ### Commands -/

/-- Before the first INIT every command other than NOP and INIT answers NOTINIT and changes nothing (R195). -/
def Obligations.NotInitBeforeInit : Prop :=
  ∀ (s : State) (i : Instr), s.udc.inited = false →
    (i = .getev ∨ i = .clrev ∨ i = .getln ∨ i = .rearm ∨ i = .rxget ∨ i = .rderr ∨
      (∃ d, i = .txb d ∨ i = .txbF d ∨ i = .lbrd d)) →
    exec i s = .next { s with host := answered s .notInit 0 }

/-- NOP is accepted in every state, answers OK with data 0, and writes nothing; NOP with a nonzero operand is illegal
(R190). -/
def Obligations.NopAnswersOk : Prop :=
  decodeCommand 0x0000#16 = .ok .nop ∧
  (∀ x : BitVec 12, x ≠ 0 → ∃ e, decodeCommand (0x0#4 ++ x) = .error e) ∧
  ∀ s : State, exec .nop s = .next { s with host := answered s .ok 0 }

/-- INIT with a rate of BAUD_SET leaves every register at the value of the table of R241, the arrays unchanged, both
interrupt enables set, and two output events (R191, R194, R241). -/
def Obligations.InitLeavesInitialState : Prop :=
  ∀ (s : State) (baud : BitVec 4) (t : TxMode), baud ∈ s.cfg.baudSet →
    ∀ (i : Instr) (pol : RxPolicy), (i = .initLine baud t ∧ pol = .line ∨ i = .initRing baud t ∧ pol = .ring) →
    exec i s = .next { s with
      udc := {
        inited := true, txMode := t, rxPol := pol, baud := baud
        txr := ⟨0, 0, 0, s.udc.txr.cells⟩, rxr := ⟨0, 0, 0, s.udc.rxr.cells⟩
        txBusy := false, lbs := s.udc.lbs, lbP := 0, lbEn := true, ovr := 0, ev := 0 }
      periph := { s.periph with rxie := true, txie := decide (t = .intr) }
      trace := s.trace ++ [.baudsel baud, .ie true (decide (t = .intr))]
      host := answered s .ok 0 }

/-- INIT with a baud index not in BAUD_SET answers BADARG and changes nothing (R192). -/
def Obligations.InitUnsupportedBaud : Prop :=
  ∀ (s : State) (baud : BitVec 4) (t : TxMode) (i : Instr), baud ∉ s.cfg.baudSet →
    (i = .initLine baud t ∨ i = .initRing baud t) → exec i s = .next { s with host := answered s .badArg 0 }

/-- INIT with rr = 10, a caller-supplied handler, is refused in every state, whatever the rate; INIT with rr = 11 is no
command at all (R193). -/
def Obligations.InitCustomRefused : Prop :=
  ∀ (s : State) (baud : BitVec 4) (t : TxMode),
    decodeCommand (encodeInit baud t 0b10#2) = .ok (.initCustom baud t) ∧
    exec (.initCustom baud t) s = .refused .customHandler ∧
    decodeCommand (encodeInit baud t 0b11#2) = .error .illegalPolicy

/-- TXB and TXB.F in INTR mode with room in TXR: the byte is stored at the write cursor and nowhere else, the cursor and
the count advance, an idle engine is kicked where F = 1 or KICK_POLICY = EVERY_PUT, the answer is OK with data 0, and
nothing else changes (R102, R121, R123). -/
def Obligations.TxbEnqueues : Prop :=
  ∀ (s : State) (d : Byte) (f : Bool) (i : Instr), (i = .txb d ∧ f = false ∨ i = .txbF d ∧ f = true) →
    LegalConfig s.cfg → s.udc.inited = true → s.udc.txMode = .intr → RingInv s.cfg.txCap s.udc.txr →
    s.udc.txr.cnt.toNat ≠ s.cfg.txCap →
    ∃ t, exec i s = .next t ∧
      t.udc.txr.cells.read s.udc.txr.wr.toNat = some d ∧
      (∀ j, j ≠ s.udc.txr.wr.toNat → t.udc.txr.cells.read j = s.udc.txr.cells.read j) ∧
      t.udc.txr.rd = s.udc.txr.rd ∧
      t.udc.txr.wr.toNat = (s.udc.txr.wr.toNat + 1) % s.cfg.txCap ∧
      t.udc.txr.cnt.toNat = s.udc.txr.cnt.toNat + 1 ∧
      ((f = true ∨ s.cfg.kickPolicy = .everyPut) ∧ s.udc.txBusy = false →
        t = { s with
          udc := { s.udc with txr := t.udc.txr, txBusy := true }
          periph := { s.periph with txifg := true }
          trace := s.trace ++ [.kick]
          host := answered s .ok 0 }) ∧
      (¬ ((f = true ∨ s.cfg.kickPolicy = .everyPut) ∧ s.udc.txBusy = false) →
        t = { s with udc := { s.udc with txr := t.udc.txr }, host := answered s .ok 0 })

/-- TXB and TXB.F on a full ring in INTR mode hold: no state changes, and the command stays at the head of the host's
program with no response; in a state that differs only in having room the same command completes (R122). -/
def Obligations.TxbHoldsOnFullRing : Prop :=
  ∀ (s : State) (d : Byte) (i : Instr), (i = .txb d ∨ i = .txbF d) →
    s.udc.inited = true → s.udc.txMode = .intr →
    (s.udc.txr.cnt.toNat = s.cfg.txCap → exec i s = .next s) ∧
    (LegalConfig s.cfg → RingInv s.cfg.txCap s.udc.txr → s.udc.txr.cnt.toNat < s.cfg.txCap →
      ∃ t, exec i s = .next t ∧ t.host = answered s .ok 0)

/-- TXB and TXB.F in POLLED mode write the byte to an empty slot directly and change no register of the UDC; they hold,
changing nothing, while the slot is occupied; F has no effect (R126, R226). -/
def Obligations.TxbPolled : Prop :=
  ∀ (s : State) (d : Byte) (i : Instr), (i = .txb d ∨ i = .txbF d) →
    s.udc.inited = true → s.udc.txMode = .polled →
    (s.periph.slot = none → exec i s = .next { s with
      periph := { s.periph with slot := some d, txifg := false }
      trace := s.trace ++ [.txwr d]
      host := answered s .ok 0 }) ∧
    (s.periph.slot.isSome → exec i s = .next s)

/-- GETEV answers EV zero-extended and does not clear it, so that get_event() has EV as its value; in a state of the
machine's invariant bits 15..2 of the answer are 0 (R84, R176). -/
def Obligations.GetevReadsMailbox : Prop :=
  ∀ s : State, s.udc.inited = true →
    exec .getev s = .next { s with host := answered s .ok (BitVec.ofNat 16 s.udc.ev.toNat) } ∧
    getEventValue ⟨.ok, BitVec.ofNat 16 s.udc.ev.toNat⟩ = s.udc.ev ∧
    (MachineInv s → (BitVec.ofNat 16 s.udc.ev.toNat) &&& 0xFFFC#16 = 0)

/-- CLREV clears every bit of EV, answers OK with data 0, and changes nothing else (R177). -/
def Obligations.ClrevClearsMailbox : Prop :=
  ∀ s : State, s.udc.inited = true →
    exec .clrev s = .next { s with udc := { s.udc with ev := 0x00#8 }, host := answered s .ok 0 }

/-- GETLN answers OK with 0x0001 exactly when a completed line is pending, else NONE, and writes nothing; in RING policy,
in a state of the machine's invariant, it answers NONE. On NONE get_completed_line() is "none" (R33, R84, R150). -/
def Obligations.GetlnReportsPendingLine : Prop :=
  ∀ s : State, s.udc.inited = true →
    (s.udc.lbEn = false → exec .getln s = .next { s with host := answered s .ok 0x0001#16 }) ∧
    (s.udc.lbEn = true → exec .getln s = .next { s with host := answered s .none 0 }) ∧
    (MachineInv s → s.udc.rxPol = .ring → exec .getln s = .next { s with host := answered s .none 0 }) ∧
    (∀ reads, getCompletedLineValue ⟨.none, 0⟩ reads = some .noLine)

/-- LBRD answers BADARG for an index outside the line buffer, the byte of a written cell zero-extended, and faults on a
cell nothing has written; it writes nothing (R151). -/
def Obligations.LbrdReadsLineBuffer : Prop :=
  ∀ (s : State) (k : Byte), s.udc.inited = true →
    (s.cfg.lbCap ≤ k.toNat → exec (.lbrd k) s = .next { s with host := answered s .badArg 0 }) ∧
    (∀ b, k.toNat < s.cfg.lbCap → s.udc.lbs.read k.toNat = some b →
      exec (.lbrd k) s = .next { s with host := answered s .ok (BitVec.ofNat 16 b.toNat) }) ∧
    (k.toNat < s.cfg.lbCap → s.udc.lbs.read k.toNat = none → exec (.lbrd k) s = .fault .unwrittenRead)

/-- A pending line can be read to its end: in a state of the machine's invariant with a line pending, the consumer's
reads from index 0 give a line of at most LB_CAP - 1 bytes, none of them 0x00, then the 0x00, and no fault; the answers
of GETLN and of these reads give that line as the value of get_completed_line() (R84, R145, R150). -/
def Obligations.PendingLineCanBeRead : Prop :=
  ∀ s : State, MachineInv s → s.udc.inited = true → s.udc.lbEn = false →
    ∃ bs, consumerLine s.cfg s.udc.lbs = some bs ∧ bs.length < s.cfg.lbCap ∧ 0x00#8 ∉ bs ∧
      (∀ (k : Nat) (hk : k < bs.length),
        exec (.lbrd (BitVec.ofNat 8 k)) s =
          .next { s with host := answered s .ok (BitVec.ofNat 16 (bs[k]'hk).toNat) }) ∧
      exec (.lbrd (BitVec.ofNat 8 bs.length)) s = .next { s with host := answered s .ok 0 } ∧
      exec .getln s = .next { s with host := answered s .ok 0x0001#16 } ∧
      getCompletedLineValue ⟨.ok, 0x0001#16⟩ (bs.map (fun b => ⟨.ok, BitVec.ofNat 16 b.toNat⟩) ++ [⟨.ok, 0⟩]) =
        some (.line bs)

/-- REARM arms the line assembler with its cursor at 0, answers OK with data 0, and changes nothing else; in RING policy,
in a state of the machine's invariant, it changes no register at all (R152). -/
def Obligations.RearmArms : Prop :=
  ∀ s : State, s.udc.inited = true →
    exec .rearm s = .next { s with udc := { s.udc with lbEn := true, lbP := 0 }, host := answered s .ok 0 } ∧
    (MachineInv s → s.udc.rxPol = .ring → exec .rearm s = .next { s with host := answered s .ok 0 })

/-- RXGET takes the oldest byte of RXR, or answers EMPTY and changes nothing; the array is not written; in LINE policy,
where the ring stays empty, it answers EMPTY (R103, R153). -/
def Obligations.RxgetTakesOldestByte : Prop :=
  ∀ s : State, LegalConfig s.cfg → s.udc.inited = true → RingInv s.cfg.rxCap s.udc.rxr →
    (s.udc.rxr.cnt = 0 → exec .rxget s = .next { s with host := answered s .empty 0 }) ∧
    (UnusedRingsEmpty s → s.udc.rxPol = .line → exec .rxget s = .next { s with host := answered s .empty 0 }) ∧
    (s.udc.rxr.cnt ≠ 0 → ∃ b t, exec .rxget s = .next t ∧
      s.udc.rxr.contents s.cfg.rxCap = b :: t.udc.rxr.contents s.cfg.rxCap ∧
      t.udc.rxr.rd.toNat = (s.udc.rxr.rd.toNat + 1) % s.cfg.rxCap ∧
      t.udc.rxr.cnt.toNat + 1 = s.udc.rxr.cnt.toNat ∧
      t = { s with
        udc := { s.udc with rxr := { s.udc.rxr with rd := t.udc.rxr.rd, cnt := t.udc.rxr.cnt } }
        host := answered s .ok (BitVec.ofNat 16 b.toNat) })

/-- RDERR answers OVR and does not clear it (R154). -/
def Obligations.RderrReadsOverrun : Prop :=
  ∀ s : State, s.udc.inited = true → exec .rderr s = .next { s with host := answered s .ok s.udc.ovr }

/-! ### The rings' internal ports -/

/-- RB.INIT empties its ring by resetting the cursors; the array, the other ring and all else are untouched; D is
ignored (R101, R78). -/
def Obligations.RbInitEmptiesRing : Prop :=
  ∀ (s : State) (r : RingId) (d : Byte), ∃ t, exec (.rbInit r d) s = .next t ∧
    t.ring r = ⟨0, 0, 0, (s.ring r).cells⟩ ∧ t.ringAnswers = s.ringAnswers ++ [⟨r, .ok, 0⟩] ∧
    (∀ q, q ≠ r → t.ring q = s.ring q) ∧
    { t with udc := { t.udc with txr := s.udc.txr, rxr := s.udc.rxr }, ringAnswers := s.ringAnswers } = s

/-- RB.PUT stores the byte at the write cursor and nowhere else and advances cursor and count; on a full ring it answers
FULL and changes nothing; the other ring and all else are untouched (R102, R78). -/
def Obligations.RbPutStoresOrFull : Prop :=
  ∀ (s : State) (r : RingId) (d : Byte), LegalConfig s.cfg → RingInv (ringCap s.cfg r) (s.ring r) →
    ((s.ring r).cnt.toNat = ringCap s.cfg r →
      exec (.rbPut r d) s = .next { s with ringAnswers := s.ringAnswers ++ [⟨r, .full, 0⟩] }) ∧
    ((s.ring r).cnt.toNat ≠ ringCap s.cfg r → ∃ t, exec (.rbPut r d) s = .next t ∧
      (t.ring r).cells.read (s.ring r).wr.toNat = some d ∧
      (∀ j, j ≠ (s.ring r).wr.toNat → (t.ring r).cells.read j = (s.ring r).cells.read j) ∧
      (t.ring r).rd = (s.ring r).rd ∧
      (t.ring r).wr.toNat = ((s.ring r).wr.toNat + 1) % ringCap s.cfg r ∧
      (t.ring r).cnt.toNat = (s.ring r).cnt.toNat + 1 ∧
      t.ringAnswers = s.ringAnswers ++ [⟨r, .ok, 0⟩] ∧
      (∀ q, q ≠ r → t.ring q = s.ring q) ∧
      { t with udc := { t.udc with txr := s.udc.txr, rxr := s.udc.rxr }, ringAnswers := s.ringAnswers } = s)

/-- RB.GET gives the byte at the read cursor and advances cursor and count without writing the array; on an empty ring it
answers EMPTY and changes nothing; a cell never written is the fault UNWRITTEN_READ; D is ignored (R103, R78). -/
def Obligations.RbGetTakesOrEmpty : Prop :=
  ∀ (s : State) (r : RingId) (d : Byte), LegalConfig s.cfg → (s.ring r).rd.toNat < ringCap s.cfg r →
    ((s.ring r).cnt = 0 →
      exec (.rbGet r d) s = .next { s with ringAnswers := s.ringAnswers ++ [⟨r, .empty, 0⟩] }) ∧
    ((s.ring r).cnt ≠ 0 → (s.ring r).cells.read (s.ring r).rd.toNat = none →
      exec (.rbGet r d) s = .fault .unwrittenRead) ∧
    (∀ b, (s.ring r).cnt ≠ 0 → (s.ring r).cells.read (s.ring r).rd.toNat = some b →
      ∃ t, exec (.rbGet r d) s = .next t ∧
        (t.ring r).rd.toNat = ((s.ring r).rd.toNat + 1) % ringCap s.cfg r ∧
        (t.ring r).cnt.toNat + 1 = (s.ring r).cnt.toNat ∧
        (t.ring r).wr = (s.ring r).wr ∧ (t.ring r).cells = (s.ring r).cells ∧
        t.ringAnswers = s.ringAnswers ++ [⟨r, .ok, b⟩] ∧
        (∀ q, q ≠ r → t.ring q = s.ring q) ∧
        { t with udc := { t.udc with txr := s.udc.txr, rxr := s.udc.rxr }, ringAnswers := s.ringAnswers } = s)

/-- FIFO: after RB_INIT, under any sequence of puts and gets no operation faults, the bytes got followed by the bytes held
are the bytes put, in order, and the occupancy is puts minus gets and stays within the capacity (R106). -/
def Obligations.RingIsFifo : Prop :=
  ∀ (cap : Nat) (r : RingBuf) (ops : List (Option Byte)), 1 ≤ cap → cap ≤ 65535 →
    ∃ x, ringRun cap ops ⟨r.init, [], []⟩ = .ok x ∧
      x.puts = x.gets ++ x.ring.contents cap ∧
      x.ring.cnt.toNat = x.puts.length - x.gets.length ∧ x.gets.length ≤ x.puts.length ∧
      x.ring.cnt.toNat ≤ cap

/-! ### The dispatcher -/

/-- DISP.TX: on a nonempty ring with the slot empty the oldest byte goes to the slot and the engine stays busy; on an
empty ring the engine goes idle, with EV_TX only where TX_EV_ON_IDLE; on a nonempty ring with the slot occupied the write
faults (R124, R172, R225). -/
def Obligations.DispTxPumpsOneByte : Prop :=
  ∀ s : State, LegalConfig s.cfg → RingInv s.cfg.txCap s.udc.txr →
    (s.udc.txr.cnt = 0 → exec .dispTx s = .next { s with udc := { s.udc with
      txBusy := false, ev := if s.cfg.txEvOnIdle then s.udc.ev ||| 0x02#8 else s.udc.ev } }) ∧
    (s.udc.txr.cnt ≠ 0 → s.periph.slot = none → ∃ b t, exec .dispTx s = .next t ∧
      s.udc.txr.contents s.cfg.txCap = b :: t.udc.txr.contents s.cfg.txCap ∧
      t.udc.txr.rd.toNat = (s.udc.txr.rd.toNat + 1) % s.cfg.txCap ∧
      t.udc.txr.cnt.toNat + 1 = s.udc.txr.cnt.toNat ∧
      t = { s with
        udc := { s.udc with
          txr := { s.udc.txr with rd := t.udc.txr.rd, cnt := t.udc.txr.cnt }, txBusy := true }
        periph := { s.periph with slot := some b, txifg := false }
        trace := s.trace ++ [.txwr b] }) ∧
    (s.udc.txr.cnt ≠ 0 → s.periph.slot.isSome → exec .dispTx s = .fault .txOverwrite)

/-- DISP.RX of a byte with a hardware error: the latch is read, the error cleared, and no register of the UDC changes
(R171, R212). -/
def Obligations.DispRxDiscardsErroneousByte : Prop :=
  ∀ s : State, s.periph.rxe = true →
    exec .dispRx s = .next { s with
      periph := { s.periph with rxifg := false, rxe := false }, trace := s.trace ++ [.rxrd, .errclr] }

/-- DISP.RX in LINE policy where nothing is stored: LF is dropped in every state; any other byte that meets a disabled or
full assembler is counted, and a CR among those re-arms it without signalling (R142, R143, R144, R171). -/
def Obligations.DispRxLineDropsAndRejects : Prop :=
  ∀ s : State, s.periph.rxe = false → s.udc.rxPol = .line →
    (s.periph.rxb = 0x0A#8 → exec .dispRx s = .next { s with
      periph := { s.periph with rxifg := false }, trace := s.trace ++ [.rxrd] }) ∧
    (s.periph.rxb ≠ 0x0A#8 → s.udc.lbEn = false ∨ s.udc.lbP.toNat = s.cfg.lbCap →
      (s.periph.rxb ≠ 0x0D#8 → exec .dispRx s = .next { s with
        udc := { s.udc with ovr := s.udc.ovr + 1 }
        periph := { s.periph with rxifg := false }, trace := s.trace ++ [.rxrd] }) ∧
      (s.periph.rxb = 0x0D#8 → exec .dispRx s = .next { s with
        udc := { s.udc with ovr := s.udc.ovr + 1, lbEn := true, lbP := 0 }
        periph := { s.periph with rxifg := false }, trace := s.trace ++ [.rxrd] }))

/-- DISP.RX in LINE policy where the assembler accepts: a CR stores the terminator, completes the line, sets EV_RX and
wakes the CPU where LPM_WAKE; any other byte is stored at the cursor, which advances. No other cell, ring or register
changes (R142, R171). -/
def Obligations.DispRxLineAccepts : Prop :=
  ∀ s : State, LegalConfig s.cfg → s.periph.rxe = false → s.udc.rxPol = .line → s.periph.rxb ≠ 0x0A#8 →
    s.udc.lbEn = true → s.udc.lbP.toNat < s.cfg.lbCap →
    ∃ t, exec .dispRx s = .next t ∧
      (∀ j, j ≠ s.udc.lbP.toNat → t.udc.lbs.read j = s.udc.lbs.read j) ∧
      t.periph = { s.periph with rxifg := false } ∧
      t = { s with udc := t.udc, periph := t.periph, trace := t.trace } ∧
      (s.periph.rxb = 0x0D#8 →
        t.udc.lbs.read s.udc.lbP.toNat = some 0x00#8 ∧
        t.udc = { s.udc with lbs := t.udc.lbs, lbEn := false, lbP := 0, ev := s.udc.ev ||| 0x01#8 } ∧
        t.trace = s.trace ++ .rxrd :: (if s.cfg.lpmWake then [.wake] else [])) ∧
      (s.periph.rxb ≠ 0x0D#8 →
        t.udc.lbs.read s.udc.lbP.toNat = some s.periph.rxb ∧
        t.udc.lbP.toNat = s.udc.lbP.toNat + 1 ∧
        t.udc = { s.udc with lbs := t.udc.lbs, lbP := t.udc.lbP } ∧
        t.trace = s.trace ++ [.rxrd])

/-- DISP.RX in RING policy: every byte without a hardware error is put into RXR, or counted and dropped where it is full;
a CR sets EV_RX and wakes either way; the line assembler is untouched (R146, R171). -/
def Obligations.DispRxRingPolicy : Prop :=
  ∀ s : State, LegalConfig s.cfg → s.periph.rxe = false → s.udc.rxPol = .ring → RingInv s.cfg.rxCap s.udc.rxr →
    ∃ t, exec .dispRx s = .next t ∧
      t.periph = { s.periph with rxifg := false } ∧
      t = { s with udc := t.udc, periph := t.periph, trace := t.trace } ∧
      t.trace = s.trace ++ .rxrd :: (if s.periph.rxb = 0x0D#8 ∧ s.cfg.lpmWake = true then [.wake] else []) ∧
      t.udc = { s.udc with
        rxr := t.udc.rxr, ovr := t.udc.ovr
        ev := if s.periph.rxb = 0x0D#8 then s.udc.ev ||| 0x01#8 else s.udc.ev } ∧
      (s.udc.rxr.cnt.toNat = s.cfg.rxCap → t.udc.rxr = s.udc.rxr ∧ t.udc.ovr = s.udc.ovr + 1) ∧
      (s.udc.rxr.cnt.toNat ≠ s.cfg.rxCap →
        t.udc.ovr = s.udc.ovr ∧
        t.udc.rxr.cells.read s.udc.rxr.wr.toNat = some s.periph.rxb ∧
        (∀ j, j ≠ s.udc.rxr.wr.toNat → t.udc.rxr.cells.read j = s.udc.rxr.cells.read j) ∧
        t.udc.rxr.rd = s.udc.rxr.rd ∧
        t.udc.rxr.wr.toNat = (s.udc.rxr.wr.toNat + 1) % s.cfg.rxCap ∧
        t.udc.rxr.cnt.toNat = s.udc.rxr.cnt.toNat + 1 ∧
        t.udc.rxr.contents s.cfg.rxCap = s.udc.rxr.contents s.cfg.rxCap ++ [s.periph.rxb])

/-- DISP.NONE changes nothing, and every code other than 0x0002 and 0x0004 selects it (R77, R173). -/
def Obligations.DispNoneChangesNothing : Prop :=
  ∀ (s : State) (iv : Word), exec (.dispNone iv) s = .next s ∧
    (iv ≠ 0x0002#16 → iv ≠ 0x0004#16 → exec (decodeCause iv) s = .next s)

/-! ### The line assembler over sequences of bytes -/

/-- Fewer than LB_CAP bytes and then a CR: an armed assembler drops the LFs, stores the rest from index 0, terminates them,
and only the CR signals; a consumer reads them back where none is 0x00 (R140, R142, R144, R145). -/
def Obligations.LineIsAssembled : Prop :=
  ∀ (s : State) (bs acc : List Byte), LegalConfig s.cfg → s.udc.lbEn = true → s.udc.lbP = 0 →
    0x0D#8 ∉ bs → acc = bs.filter (fun b => b != 0x0A#8) → acc.length < s.cfg.lbCap →
    ∃ t, feedLine (bs ++ [0x0D#8]) s = .ok (List.replicate bs.length false ++ [true], t) ∧
      (∀ (k : Nat) (hk : k < acc.length), t.udc.lbs.read k = some (acc[k]'hk)) ∧
      t.udc.lbs.read acc.length = some 0x00#8 ∧
      (∀ j, acc.length < j → t.udc.lbs.read j = s.udc.lbs.read j) ∧
      t = { s with udc := { s.udc with lbs := t.udc.lbs, lbEn := false, lbP := 0 } } ∧
      (0x00#8 ∉ acc → consumerLine s.cfg t.udc.lbs = some acc)

/-- LB_CAP or more bytes and then a CR: the first LB_CAP are stored from index 0 in order and no other cell is written, each
later one and the CR are counted, nothing signals, and the assembler is armed again with its cursor at 0
(R142, R143, R148). -/
def Obligations.OverlongLineResynchronises : Prop :=
  ∀ (s : State) (bs acc : List Byte), LegalConfig s.cfg → s.udc.lbEn = true → s.udc.lbP = 0 →
    0x0D#8 ∉ bs → acc = bs.filter (fun b => b != 0x0A#8) → s.cfg.lbCap ≤ acc.length →
    ∃ t, feedLine (bs ++ [0x0D#8]) s = .ok (List.replicate (bs.length + 1) false, t) ∧
      (∀ k (hk : k < acc.length), k < s.cfg.lbCap → t.udc.lbs.read k = some (acc[k]'hk)) ∧
      (∀ j, s.cfg.lbCap ≤ j → t.udc.lbs.read j = s.udc.lbs.read j) ∧
      t = { s with udc := { s.udc with
        lbs := t.udc.lbs, lbEn := true, lbP := 0
        ovr := s.udc.ovr + BitVec.ofNat 16 (acc.length - s.cfg.lbCap + 1) } }

/-! ### Invariants and whole-machine rules -/

/-- Power-on: not initialised, both interrupt enables 0, every cell of the three arrays unwritten, the trace empty (R240); and
the peripheral clean, which is no rule about power-on but the premise of R244, taken as the model's choice (log 5). -/
def Obligations.ResetLeaves : Prop :=
  ∀ cfg : Config, ∀ s : State, s = State.reset ∨ s = State.resetWith cfg →
    s.udc.inited = false ∧ s.periph.rxie = false ∧ s.periph.txie = false ∧
    (∀ j, s.udc.txr.cells.read j = none ∧ s.udc.rxr.cells.read j = none ∧ s.udc.lbs.read j = none) ∧ s.trace = [] ∧
    s.periph.rxifg = false ∧ s.periph.rxe = false ∧ s.periph.txifg = false ∧ s.periph.slot = none ∧ s.periph.sink = []

/-- The invariant holds at power-on for every legal configuration, and with it the other two (R240, R244). -/
def Obligations.ResetMeetsInvariant : Prop :=
  MachineInv State.reset ∧
  ∀ cfg, LegalConfig cfg → MachineInv (State.resetWith cfg) ∧ UnusedRingsEmpty (State.resetWith cfg) ∧
    SlotTracked (State.resetWith cfg)

/-- Every step of every agent keeps the invariant: the ring invariant of R27, canonical arrays within their range, the
cursor's range, a readable pending line, EV's reserved bits 0, a busy engine with an interrupt pending or coming, and
the interrupt enables (R27, R31, R33, R36, R128). -/
def Obligations.StepKeepsInvariant : Prop :=
  ∀ s t : State, MachineInv s → step s = .next t → MachineInv t

/-- The ring the installed policy does not use stays empty, and so do TXR and the engine in POLLED mode, under every step
but a word placed on a ring's internal port (R126, R153, R172). -/
def Obligations.StepKeepsUnusedRingsEmpty : Prop :=
  ∀ (s t : State) (e : Event) (es : List Event), MachineInv s → UnusedRingsEmpty s → s.sched = e :: es →
    (∀ r w, e ≠ .ring r w) → step s = .next t → UnusedRingsEmpty t

/-- Under the contract of the three agents a step faults only where the spec says: an LBRD of an unwritten cell, or a TXC
that writes an occupied slot. No index outside an array is formed, and RB_GET never reads an unwritten cell
(R50, R103, R151, R213, R225). -/
def Obligations.FaultsOnlyWhereSpecified : Prop :=
  ∀ (s : State) (e : Event) (es : List Event) (f : Fault), MachineInv s → s.sched = e :: es → e.inContract = true →
    step s = .fault f →
    (f = .unwrittenRead ∧ ∃ k : Byte, nextInstr s = some (.lbrd k) ∧ s.udc.lbs.read k.toNat = none) ∨
    (f = .txOverwrite ∧ nextInstr s = some .dispTx ∧ s.periph.slot.isSome)

/-- Software that never issues INIT while the peripheral's slot is occupied never overwrites the slot: the slot is tracked
by TX_BUSY in INTR mode, every contract step but such an INIT keeps that, and none faults with TX_OVERWRITE
(R128, R194, R225, R255). -/
def Obligations.OverwriteNeedsReInit : Prop :=
  ∀ (s : State) (e : Event) (es : List Event), MachineInv s → SlotTracked s → s.sched = e :: es → e.inContract = true →
    (nextInitialises s → s.periph.slot = none) →
    step s ≠ .fault .txOverwrite ∧ ∀ t, step s = .next t → SlotTracked t

/-- The bytes sent followed by the bytes queued grow only by the byte of a TXB the host performs, at the end: in every
contract step but a completing INIT nothing is lost, reordered or duplicated (R60, R106, R127). -/
def Obligations.TransmitOrderPreserved : Prop :=
  ∀ (s t : State) (e : Event) (es : List Event), MachineInv s → UnusedRingsEmpty s → s.udc.inited = true →
    s.sched = e :: es → e.inContract = true → ¬ nextInitialises s → step s = .next t →
    sentBytes t.trace ++ t.udc.txr.contents t.cfg.txCap =
      sentBytes s.trace ++ s.udc.txr.contents s.cfg.txCap ++ nextAcceptedBytes s

/-- With the transmit flag up and the slot empty, alternating DISPATCH and TXDONE delivers every queued byte in order and
leaves the engine idle; with the host's program exhausted the state is final (R124, R128, R223, R245). -/
def Obligations.DrainDeliversEveryByte : Prop :=
  ∀ s : State, MachineInv s → s.udc.inited = true → s.udc.txMode = .intr → s.periph.slot = none →
    s.periph.rxifg = false → s.periph.txifg = true →
    ∃ t, runEvents ((List.replicate (s.udc.txr.contents s.cfg.txCap).length [Event.disp, Event.txdone]).flatten ++
        [Event.disp]) s = .next t ∧
      t.periph.sink = s.periph.sink ++ s.udc.txr.contents s.cfg.txCap ∧
      t.trace = s.trace ++ (s.udc.txr.contents s.cfg.txCap).map OutEvent.txwr ∧
      t.udc.txr.cnt = 0 ∧ t.udc.txBusy = false ∧ t.periph.slot = none ∧ t.periph.txifg = false ∧
      (s.host.prog = [] → IsFinal t)

/-- The transmit hang: a TXB at the head of the host's program in INTR mode, with the ring full, the engine idle, the
transmit flag clear and the slot empty, is held for ever: whatever HOST, DISP, PERIPH and the bus do, it stays at the head
of the program with no response, and the ring stays as it is; no final state is ever reached. Bytes stranded in the ring
with the host's program exhausted stay there too, whatever HOST, DISP and PERIPH do, and no final state is reached from
there either (R122, R245, R250, R251). -/
def Obligations.TransmitHang : Prop :=
  ∀ s : State, LegalConfig s.cfg → s.udc.inited = true → s.udc.txMode = .intr →
    s.udc.txBusy = false → s.periph.txifg = false → s.periph.slot = none →
    (∀ (w : Word) (ws : List Word) (d : Byte), s.host.prog = w :: ws →
      (decodeCommand w = .ok (.txb d) ∨ decodeCommand w = .ok (.txbF d)) → s.udc.txr.cnt.toNat = s.cfg.txCap →
      (∀ (evs : List Event) (t : State), (∀ e ∈ evs, e.inContract = true) → runEvents evs s = .next t →
        t.host.prog.head? = some w ∧ t.host.resps = s.host.resps ∧ t.udc.txr = s.udc.txr ∧
          t.udc.txBusy = false) ∧
      IsHang s) ∧
    (s.host.prog = [] → s.udc.txr.cnt ≠ 0 →
      (∀ (evs : List Event) (t : State), (∀ e ∈ evs, e.isAgentStep = true) → runEvents evs s = .next t →
        t.host = s.host ∧ t.udc.txr = s.udc.txr ∧ t.udc.txBusy = false) ∧
      IsHang s)

/-- The engine's transitions: idle to busy only by a TXB of the host that kicks or by a TXC on a nonempty ring, busy to
idle only by a TXC on an empty ring or by INIT; a HOST step that makes it busy raises KICK (R123, R124, R125). -/
def Obligations.BusyTransitions : Prop :=
  ∀ s t : State, step s = .next t →
    (s.udc.txBusy = false → t.udc.txBusy = true →
      (t.trace = s.trace ++ [.kick] ∧ ∃ d, nextInstr s = some (.txb d) ∨ nextInstr s = some (.txbF d)) ∨
      (nextInstr s = some .dispTx ∧ s.udc.txr.cnt ≠ 0)) ∧
    (s.udc.txBusy = true → t.udc.txBusy = false →
      (nextInstr s = some .dispTx ∧ s.udc.txr.cnt = 0) ∨ nextInitialises s)

/-- The completion latch: it closes only when DISP.RX accepts a CR in LINE policy, opens only by REARM, INIT or a rejected
CR, and while it is closed no byte of the line buffer changes (R32, R143, R147, R148). -/
def Obligations.CompletionLatch : Prop :=
  ∀ s t : State, step s = .next t →
    (s.udc.lbEn = true → t.udc.lbEn = false →
      nextInstr s = some .dispRx ∧ s.udc.rxPol = .line ∧ s.periph.rxe = false ∧ s.periph.rxb = 0x0D#8 ∧
        s.udc.lbP.toNat ≠ s.cfg.lbCap) ∧
    (s.udc.lbEn = false → t.udc.lbEn = true →
      nextInstr s = some .rearm ∨ nextInitialises s ∨
      (nextInstr s = some .dispRx ∧ s.udc.rxPol = .line ∧ s.periph.rxe = false ∧ s.periph.rxb = 0x0D#8)) ∧
    (s.udc.lbEn = false → t.udc.lbs = s.udc.lbs)

/-- The overrun counter is cleared by INIT, counts exactly the bytes of error classes ERR_C and ERR_D, and is changed by
nothing else; a byte with a hardware error is not counted (R34, R211, R212). -/
def Obligations.OverrunCountsRejectedBytes : Prop :=
  ∀ s t : State, step s = .next t →
    (nextInitialises s → t.udc.ovr = 0) ∧
    (nextInstr s = some .dispRx → (receiveError s = some .errC ∨ receiveError s = some .errD) →
      t.udc.ovr = s.udc.ovr + 1) ∧
    (¬ nextInitialises s →
      ¬ (nextInstr s = some .dispRx ∧ (receiveError s = some .errC ∨ receiveError s = some .errD)) →
      t.udc.ovr = s.udc.ovr)

/-- The mailbox: CLREV and INIT clear it; any other step only ORs bits into it, receive-ready only in DISP.RX and
transmit-ready only in DISP.TX where TX_EV_ON_IDLE (R35, R175, R178). -/
def Obligations.MailboxOnlyAccumulates : Prop :=
  ∀ s t : State, step s = .next t →
    ((nextInstr s = some .clrev ∧ s.udc.inited = true) ∨ nextInitialises s → t.udc.ev = 0) ∧
    (¬ (nextInstr s = some .clrev ∧ s.udc.inited = true) → ¬ nextInitialises s →
      t.udc.ev = s.udc.ev ∨
      (t.udc.ev = s.udc.ev ||| 0x01#8 ∧ nextInstr s = some .dispRx) ∨
      (t.udc.ev = s.udc.ev ||| 0x02#8 ∧ nextInstr s = some .dispTx ∧ s.cfg.txEvOnIdle = true))

/-- A cleared mailbox reads 0 until DISP runs: any sequence of other events from a state with EV = 0 leaves EV = 0
(R178). -/
def Obligations.ClearedMailboxStaysClear : Prop :=
  ∀ (evs : List Event) (s t : State), s.udc.ev = 0 → (∀ e ∈ evs, e ≠ .disp ∧ ∀ iv, e ≠ .cause iv) →
    runEvents evs s = .next t → t.udc.ev = 0

/-- Which agent writes what: DISP never writes the configuration, TXR's write side or RXR's read cursor; HOST never
writes LBS or RXS, and outside INIT never TXR's read cursor, RXR's write cursor or OVR; PERIPH and the bus write no
register of the UDC (R37). -/
def Obligations.SingleWriters : Prop :=
  ∀ (s t : State) (e : Event) (es : List Event), s.sched = e :: es → step s = .next t →
    ((e = .disp ∨ ∃ iv, e = .cause iv) →
      t.udc.inited = s.udc.inited ∧ t.udc.txMode = s.udc.txMode ∧ t.udc.rxPol = s.udc.rxPol ∧
      t.udc.baud = s.udc.baud ∧ t.udc.txr.wr = s.udc.txr.wr ∧ t.udc.txr.cells = s.udc.txr.cells ∧
      t.udc.rxr.rd = s.udc.rxr.rd ∧ t.host = s.host) ∧
    (e = .host →
      t.udc.lbs = s.udc.lbs ∧ t.udc.rxr.cells = s.udc.rxr.cells ∧
      (¬ nextInitialises s →
        t.udc.txr.rd = s.udc.txr.rd ∧ t.udc.rxr.wr = s.udc.rxr.wr ∧ t.udc.ovr = s.udc.ovr ∧
        t.udc.inited = s.udc.inited ∧ t.udc.txMode = s.udc.txMode ∧ t.udc.rxPol = s.udc.rxPol ∧
        t.udc.baud = s.udc.baud)) ∧
    ((e = .txdone ∨ (∃ b f, e = .rxin b f) ∨ ∃ a op, e = .bus a op) → t.udc = s.udc ∧ t.trace = s.trace)

/-- INITED is 0 at power-on, no step clears it, and only a completing INIT sets it; no step changes the parameters, and the
trace only grows (R8, R22, R38). -/
def Obligations.ConfigAndInitedPersist : Prop :=
  (∀ cfg, (State.resetWith cfg).udc.inited = false) ∧
  ∀ s t : State, step s = .next t →
    t.cfg = s.cfg ∧ (s.udc.inited = true → t.udc.inited = true) ∧
    (s.udc.inited = false → (t.udc.inited = true ↔ nextInitialises s)) ∧
    ∃ out, t.trace = s.trace ++ out

/-- The registers power-on leaves unspecified cannot be observed: two machines before INIT that differ only in them take
every contract step alike, and a completing INIT makes them equal (R240). -/
def Obligations.UnspecifiedRegistersUnobservable : Prop :=
  ∀ (s s' : State) (e : Event) (es : List Event), PowerOnAlike s s' → s.sched = e :: es → e.inContract = true →
    (∃ t t', step s = .next t ∧ step s' = .next t' ∧
      (nextInitialises s → t' = t) ∧ (¬ nextInitialises s → PowerOnAlike t t')) ∨
    (∃ r, step s = .refused r ∧ step s' = .refused r)

/-- The host cannot see the transmit side: every command but TXB ends alike, with the same response, in two states that
differ only in TXR, TXS and TX_BUSY (R51). -/
def Obligations.TransmitSideHidden : Prop :=
  ∀ (s s' : State) (i : Instr), s' = { s with udc := { s.udc with txr := s'.udc.txr, txBusy := s'.udc.txBusy } } →
    contextOf i = some .mainLoop → (∀ d, i ≠ .txb d ∧ i ≠ .txbF d) →
    (∃ t t', exec i s = .next t ∧ exec i s' = .next t' ∧ t'.host = t.host) ∨
    (∃ f, exec i s = .fault f ∧ exec i s' = .fault f) ∨
    (∃ r, exec i s = .refused r ∧ exec i s' = .refused r)

/-- GETEV, GETLN, LBRD and RDERR have no side effect: done twice in a row they give the same response twice and leave
everything but the host's own side as it was (R55). -/
def Obligations.ReadsAreRepeatable : Prop :=
  ∀ (s t : State) (i : Instr), (i = .getev ∨ i = .getln ∨ i = .rderr ∨ ∃ k, i = .lbrd k) → exec i s = .next t →
    t = { s with host := t.host } ∧
    ∃ r u, t.host.resps = s.host.resps ++ [r] ∧ exec i t = .next u ∧ u.host.resps = t.host.resps ++ [r]

/-- CLREV, REARM and INIT of the same operand, repeated with no step between, leave the same UDC and peripheral state; a
repeated INIT emits its events again (R56). -/
def Obligations.WritesAreIdempotent : Prop :=
  ∀ (s t : State) (i : Instr), (i = .clrev ∨ i = .rearm ∨ ∃ b m, i = .initLine b m ∨ i = .initRing b m) →
    exec i s = .next t →
    ∃ u, exec i t = .next u ∧ u.udc = t.udc ∧ u.periph = t.periph ∧
      ∃ out, t.trace = s.trace ++ out ∧ u.trace = t.trace ++ out
end

