-- ==== Sys2Proof/Laws/State.lean ====
section
/-! SUPPORT. One lemma per field per update of the state: what each named update writes and what it leaves, so that no
later proof unfolds a record update. -/

namespace Sys2Proof.Machine

variable (s : State)

@[simp] theorem emit_cfg (e : OutEvent) : (emit e s).cfg = s.cfg := rfl
@[simp] theorem emit_udc (e : OutEvent) : (emit e s).udc = s.udc := rfl
@[simp] theorem emit_periph (e : OutEvent) : (emit e s).periph = periphEffect e s.periph := rfl
@[simp] theorem emit_host (e : OutEvent) : (emit e s).host = s.host := rfl
@[simp] theorem emit_ringAnswers (e : OutEvent) : (emit e s).ringAnswers = s.ringAnswers := rfl
@[simp] theorem emit_trace (e : OutEvent) : (emit e s).trace = s.trace ++ [e] := rfl
@[simp] theorem emit_sched (e : OutEvent) : (emit e s).sched = s.sched := rfl
@[simp] theorem emit_freeCount (e : OutEvent) : (emit e s).freeCount = s.freeCount := rfl

@[simp] theorem respond_cfg (st : Status) (d : Word) : (respond st d s).cfg = s.cfg := rfl
@[simp] theorem respond_udc (st : Status) (d : Word) : (respond st d s).udc = s.udc := rfl
@[simp] theorem respond_periph (st : Status) (d : Word) : (respond st d s).periph = s.periph := rfl
@[simp] theorem respond_host (st : Status) (d : Word) : (respond st d s).host = ⟨s.host.prog.tail, s.host.resps ++ [⟨st, d⟩], s.host.reads⟩ := rfl
@[simp] theorem respond_ringAnswers (st : Status) (d : Word) : (respond st d s).ringAnswers = s.ringAnswers := rfl
@[simp] theorem respond_trace (st : Status) (d : Word) : (respond st d s).trace = s.trace := rfl
@[simp] theorem respond_sched (st : Status) (d : Word) : (respond st d s).sched = s.sched := rfl
@[simp] theorem respond_freeCount (st : Status) (d : Word) : (respond st d s).freeCount = s.freeCount := rfl

@[simp] theorem answerRing_cfg (r : RingId) (st : RingStatus) (d : Byte) : (answerRing r st d s).cfg = s.cfg := rfl
@[simp] theorem answerRing_udc (r : RingId) (st : RingStatus) (d : Byte) : (answerRing r st d s).udc = s.udc := rfl
@[simp] theorem answerRing_periph (r : RingId) (st : RingStatus) (d : Byte) : (answerRing r st d s).periph = s.periph := rfl
@[simp] theorem answerRing_host (r : RingId) (st : RingStatus) (d : Byte) : (answerRing r st d s).host = s.host := rfl
@[simp] theorem answerRing_ringAnswers (r : RingId) (st : RingStatus) (d : Byte) : (answerRing r st d s).ringAnswers = s.ringAnswers ++ [⟨r, st, d⟩] := rfl
@[simp] theorem answerRing_trace (r : RingId) (st : RingStatus) (d : Byte) : (answerRing r st d s).trace = s.trace := rfl
@[simp] theorem answerRing_sched (r : RingId) (st : RingStatus) (d : Byte) : (answerRing r st d s).sched = s.sched := rfl
@[simp] theorem answerRing_freeCount (r : RingId) (st : RingStatus) (d : Byte) : (answerRing r st d s).freeCount = s.freeCount := rfl

@[simp] theorem orEvent_cfg (m : Byte) : (orEvent m s).cfg = s.cfg := rfl
@[simp] theorem orEvent_udc (m : Byte) : (orEvent m s).udc = { s.udc with ev := s.udc.ev ||| m } := rfl
@[simp] theorem orEvent_periph (m : Byte) : (orEvent m s).periph = s.periph := rfl
@[simp] theorem orEvent_host (m : Byte) : (orEvent m s).host = s.host := rfl
@[simp] theorem orEvent_ringAnswers (m : Byte) : (orEvent m s).ringAnswers = s.ringAnswers := rfl
@[simp] theorem orEvent_trace (m : Byte) : (orEvent m s).trace = s.trace := rfl
@[simp] theorem orEvent_sched (m : Byte) : (orEvent m s).sched = s.sched := rfl
@[simp] theorem orEvent_freeCount (m : Byte) : (orEvent m s).freeCount = s.freeCount := rfl

@[simp] theorem countOverrun_cfg : (countOverrun s).cfg = s.cfg := rfl
@[simp] theorem countOverrun_udc : (countOverrun s).udc = { s.udc with ovr := s.udc.ovr + 1 } := rfl
@[simp] theorem countOverrun_periph : (countOverrun s).periph = s.periph := rfl
@[simp] theorem countOverrun_host : (countOverrun s).host = s.host := rfl
@[simp] theorem countOverrun_ringAnswers : (countOverrun s).ringAnswers = s.ringAnswers := rfl
@[simp] theorem countOverrun_trace : (countOverrun s).trace = s.trace := rfl
@[simp] theorem countOverrun_sched : (countOverrun s).sched = s.sched := rfl
@[simp] theorem countOverrun_freeCount : (countOverrun s).freeCount = s.freeCount := rfl

@[simp] theorem setBusy_cfg (v : Bool) : (setBusy v s).cfg = s.cfg := rfl
@[simp] theorem setBusy_udc (v : Bool) : (setBusy v s).udc = { s.udc with txBusy := v } := rfl
@[simp] theorem setBusy_periph (v : Bool) : (setBusy v s).periph = s.periph := rfl
@[simp] theorem setBusy_host (v : Bool) : (setBusy v s).host = s.host := rfl
@[simp] theorem setBusy_ringAnswers (v : Bool) : (setBusy v s).ringAnswers = s.ringAnswers := rfl
@[simp] theorem setBusy_trace (v : Bool) : (setBusy v s).trace = s.trace := rfl
@[simp] theorem setBusy_sched (v : Bool) : (setBusy v s).sched = s.sched := rfl
@[simp] theorem setBusy_freeCount (v : Bool) : (setBusy v s).freeCount = s.freeCount := rfl

@[simp] theorem kick_cfg : (kick s).cfg = s.cfg := rfl
@[simp] theorem kick_udc : (kick s).udc = { s.udc with txBusy := true } := rfl
@[simp] theorem kick_periph : (kick s).periph = { s.periph with txifg := true } := rfl
@[simp] theorem kick_host : (kick s).host = s.host := rfl
@[simp] theorem kick_ringAnswers : (kick s).ringAnswers = s.ringAnswers := rfl
@[simp] theorem kick_trace : (kick s).trace = s.trace ++ [.kick] := rfl
@[simp] theorem kick_sched : (kick s).sched = s.sched := rfl
@[simp] theorem kick_freeCount : (kick s).freeCount = s.freeCount := rfl

@[simp] theorem armLine_cfg : (armLine s).cfg = s.cfg := rfl
@[simp] theorem armLine_udc : (armLine s).udc = { s.udc with lbEn := true, lbP := 0 } := rfl
@[simp] theorem armLine_periph : (armLine s).periph = s.periph := rfl
@[simp] theorem armLine_host : (armLine s).host = s.host := rfl
@[simp] theorem armLine_ringAnswers : (armLine s).ringAnswers = s.ringAnswers := rfl
@[simp] theorem armLine_trace : (armLine s).trace = s.trace := rfl
@[simp] theorem armLine_sched : (armLine s).sched = s.sched := rfl
@[simp] theorem armLine_freeCount : (armLine s).freeCount = s.freeCount := rfl

@[simp] theorem setRingTxr_cfg (x : RingBuf) : (s.setRing .txr x).cfg = s.cfg := rfl
@[simp] theorem setRingTxr_udc (x : RingBuf) : (s.setRing .txr x).udc = { s.udc with txr := x } := rfl
@[simp] theorem setRingTxr_periph (x : RingBuf) : (s.setRing .txr x).periph = s.periph := rfl
@[simp] theorem setRingTxr_host (x : RingBuf) : (s.setRing .txr x).host = s.host := rfl
@[simp] theorem setRingTxr_ringAnswers (x : RingBuf) : (s.setRing .txr x).ringAnswers = s.ringAnswers := rfl
@[simp] theorem setRingTxr_trace (x : RingBuf) : (s.setRing .txr x).trace = s.trace := rfl
@[simp] theorem setRingTxr_sched (x : RingBuf) : (s.setRing .txr x).sched = s.sched := rfl
@[simp] theorem setRingTxr_freeCount (x : RingBuf) : (s.setRing .txr x).freeCount = s.freeCount := rfl

@[simp] theorem setRingRxr_cfg (x : RingBuf) : (s.setRing .rxr x).cfg = s.cfg := rfl
@[simp] theorem setRingRxr_udc (x : RingBuf) : (s.setRing .rxr x).udc = { s.udc with rxr := x } := rfl
@[simp] theorem setRingRxr_periph (x : RingBuf) : (s.setRing .rxr x).periph = s.periph := rfl
@[simp] theorem setRingRxr_host (x : RingBuf) : (s.setRing .rxr x).host = s.host := rfl
@[simp] theorem setRingRxr_ringAnswers (x : RingBuf) : (s.setRing .rxr x).ringAnswers = s.ringAnswers := rfl
@[simp] theorem setRingRxr_trace (x : RingBuf) : (s.setRing .rxr x).trace = s.trace := rfl
@[simp] theorem setRingRxr_sched (x : RingBuf) : (s.setRing .rxr x).sched = s.sched := rfl
@[simp] theorem setRingRxr_freeCount (x : RingBuf) : (s.setRing .rxr x).freeCount = s.freeCount := rfl

@[simp] theorem issueCommand_cfg (w : Word) : (issueCommand w s).cfg = s.cfg := rfl
@[simp] theorem issueCommand_udc (w : Word) : (issueCommand w s).udc = s.udc := rfl
@[simp] theorem issueCommand_periph (w : Word) : (issueCommand w s).periph = s.periph := rfl
@[simp] theorem issueCommand_host (w : Word) : (issueCommand w s).host = ⟨s.host.prog ++ [w], s.host.resps, s.host.reads⟩ := rfl
@[simp] theorem issueCommand_ringAnswers (w : Word) : (issueCommand w s).ringAnswers = s.ringAnswers := rfl
@[simp] theorem issueCommand_trace (w : Word) : (issueCommand w s).trace = s.trace := rfl
@[simp] theorem issueCommand_sched (w : Word) : (issueCommand w s).sched = s.sched := rfl
@[simp] theorem issueCommand_freeCount (w : Word) : (issueCommand w s).freeCount = s.freeCount := rfl

@[simp] theorem deliverRead_cfg (w : Word) : (deliverRead w s).cfg = s.cfg := rfl
@[simp] theorem deliverRead_udc (w : Word) : (deliverRead w s).udc = s.udc := rfl
@[simp] theorem deliverRead_periph (w : Word) : (deliverRead w s).periph = s.periph := rfl
@[simp] theorem deliverRead_host (w : Word) : (deliverRead w s).host = ⟨s.host.prog, s.host.resps, s.host.reads ++ [w]⟩ := rfl
@[simp] theorem deliverRead_ringAnswers (w : Word) : (deliverRead w s).ringAnswers = s.ringAnswers := rfl
@[simp] theorem deliverRead_trace (w : Word) : (deliverRead w s).trace = s.trace := rfl
@[simp] theorem deliverRead_sched (w : Word) : (deliverRead w s).sched = s.sched := rfl
@[simp] theorem deliverRead_freeCount (w : Word) : (deliverRead w s).freeCount = s.freeCount + 1 := rfl

@[simp] theorem setRing_cfg (r : RingId) (x : RingBuf) : (s.setRing r x).cfg = s.cfg := by cases r <;> rfl
@[simp] theorem setRing_periph (r : RingId) (x : RingBuf) : (s.setRing r x).periph = s.periph := by cases r <;> rfl
@[simp] theorem setRing_host (r : RingId) (x : RingBuf) : (s.setRing r x).host = s.host := by cases r <;> rfl
@[simp] theorem setRing_ringAnswers (r : RingId) (x : RingBuf) : (s.setRing r x).ringAnswers = s.ringAnswers := by cases r <;> rfl
@[simp] theorem setRing_trace (r : RingId) (x : RingBuf) : (s.setRing r x).trace = s.trace := by cases r <;> rfl
@[simp] theorem setRing_sched (r : RingId) (x : RingBuf) : (s.setRing r x).sched = s.sched := by cases r <;> rfl
@[simp] theorem setRing_freeCount (r : RingId) (x : RingBuf) : (s.setRing r x).freeCount = s.freeCount := by cases r <;> rfl
@[simp] theorem setRing_ring (r : RingId) (x : RingBuf) : (s.setRing r x).ring r = x := by cases r <;> rfl

@[simp] theorem signalLine_cfg : (signalLine s).cfg = s.cfg := by unfold signalLine; split <;> rfl
@[simp] theorem txIdle_cfg : (txIdle s).cfg = s.cfg := by unfold txIdle; split <;> rfl
@[simp] theorem signalLine_udc : (signalLine s).udc = { s.udc with ev := s.udc.ev ||| evRx } := by unfold signalLine; split <;> rfl
@[simp] theorem txIdle_udc : (txIdle s).udc =
    { s.udc with txBusy := false, ev := if s.cfg.txEvOnIdle then s.udc.ev ||| evTx else s.udc.ev } := by
  unfold txIdle; split <;> rfl
@[simp] theorem signalLine_periph : (signalLine s).periph = s.periph := by unfold signalLine; split <;> rfl
@[simp] theorem txIdle_periph : (txIdle s).periph = s.periph := by unfold txIdle; split <;> rfl
@[simp] theorem signalLine_host : (signalLine s).host = s.host := by unfold signalLine; split <;> rfl
@[simp] theorem txIdle_host : (txIdle s).host = s.host := by unfold txIdle; split <;> rfl
@[simp] theorem signalLine_ringAnswers : (signalLine s).ringAnswers = s.ringAnswers := by unfold signalLine; split <;> rfl
@[simp] theorem txIdle_ringAnswers : (txIdle s).ringAnswers = s.ringAnswers := by unfold txIdle; split <;> rfl
@[simp] theorem signalLine_trace : (signalLine s).trace = s.trace ++ (if s.cfg.lpmWake then [.wake] else []) := by
  unfold signalLine; split <;> simp
@[simp] theorem txIdle_trace : (txIdle s).trace = s.trace := by unfold txIdle; split <;> rfl
@[simp] theorem signalLine_sched : (signalLine s).sched = s.sched := by unfold signalLine; split <;> rfl
@[simp] theorem txIdle_sched : (txIdle s).sched = s.sched := by unfold txIdle; split <;> rfl
@[simp] theorem signalLine_freeCount : (signalLine s).freeCount = s.freeCount := by unfold signalLine; split <;> rfl
@[simp] theorem txIdle_freeCount : (txIdle s).freeCount = s.freeCount := by unfold txIdle; split <;> rfl

@[simp] theorem periphEffect_txwr_rxifg (b : Byte) (p : Periph) : (periphEffect (.txwr b) p).rxifg = p.rxifg := rfl
@[simp] theorem periphEffect_txwr_rxb (b : Byte) (p : Periph) : (periphEffect (.txwr b) p).rxb = p.rxb := rfl
@[simp] theorem periphEffect_txwr_rxe (b : Byte) (p : Periph) : (periphEffect (.txwr b) p).rxe = p.rxe := rfl
@[simp] theorem periphEffect_txwr_txifg (b : Byte) (p : Periph) : (periphEffect (.txwr b) p).txifg = false := rfl
@[simp] theorem periphEffect_txwr_slot (b : Byte) (p : Periph) : (periphEffect (.txwr b) p).slot = some b := rfl
@[simp] theorem periphEffect_txwr_rxie (b : Byte) (p : Periph) : (periphEffect (.txwr b) p).rxie = p.rxie := rfl
@[simp] theorem periphEffect_txwr_txie (b : Byte) (p : Periph) : (periphEffect (.txwr b) p).txie = p.txie := rfl
@[simp] theorem periphEffect_txwr_sink (b : Byte) (p : Periph) : (periphEffect (.txwr b) p).sink = p.sink := rfl
@[simp] theorem periphEffect_kick_rxifg (p : Periph) : (periphEffect (.kick) p).rxifg = p.rxifg := rfl
@[simp] theorem periphEffect_kick_rxb (p : Periph) : (periphEffect (.kick) p).rxb = p.rxb := rfl
@[simp] theorem periphEffect_kick_rxe (p : Periph) : (periphEffect (.kick) p).rxe = p.rxe := rfl
@[simp] theorem periphEffect_kick_txifg (p : Periph) : (periphEffect (.kick) p).txifg = true := rfl
@[simp] theorem periphEffect_kick_slot (p : Periph) : (periphEffect (.kick) p).slot = p.slot := rfl
@[simp] theorem periphEffect_kick_rxie (p : Periph) : (periphEffect (.kick) p).rxie = p.rxie := rfl
@[simp] theorem periphEffect_kick_txie (p : Periph) : (periphEffect (.kick) p).txie = p.txie := rfl
@[simp] theorem periphEffect_kick_sink (p : Periph) : (periphEffect (.kick) p).sink = p.sink := rfl
@[simp] theorem periphEffect_rxrd_rxifg (p : Periph) : (periphEffect (.rxrd) p).rxifg = false := rfl
@[simp] theorem periphEffect_rxrd_rxb (p : Periph) : (periphEffect (.rxrd) p).rxb = p.rxb := rfl
@[simp] theorem periphEffect_rxrd_rxe (p : Periph) : (periphEffect (.rxrd) p).rxe = p.rxe := rfl
@[simp] theorem periphEffect_rxrd_txifg (p : Periph) : (periphEffect (.rxrd) p).txifg = p.txifg := rfl
@[simp] theorem periphEffect_rxrd_slot (p : Periph) : (periphEffect (.rxrd) p).slot = p.slot := rfl
@[simp] theorem periphEffect_rxrd_rxie (p : Periph) : (periphEffect (.rxrd) p).rxie = p.rxie := rfl
@[simp] theorem periphEffect_rxrd_txie (p : Periph) : (periphEffect (.rxrd) p).txie = p.txie := rfl
@[simp] theorem periphEffect_rxrd_sink (p : Periph) : (periphEffect (.rxrd) p).sink = p.sink := rfl
@[simp] theorem periphEffect_errclr_rxifg (p : Periph) : (periphEffect (.errclr) p).rxifg = p.rxifg := rfl
@[simp] theorem periphEffect_errclr_rxb (p : Periph) : (periphEffect (.errclr) p).rxb = p.rxb := rfl
@[simp] theorem periphEffect_errclr_rxe (p : Periph) : (periphEffect (.errclr) p).rxe = false := rfl
@[simp] theorem periphEffect_errclr_txifg (p : Periph) : (periphEffect (.errclr) p).txifg = p.txifg := rfl
@[simp] theorem periphEffect_errclr_slot (p : Periph) : (periphEffect (.errclr) p).slot = p.slot := rfl
@[simp] theorem periphEffect_errclr_rxie (p : Periph) : (periphEffect (.errclr) p).rxie = p.rxie := rfl
@[simp] theorem periphEffect_errclr_txie (p : Periph) : (periphEffect (.errclr) p).txie = p.txie := rfl
@[simp] theorem periphEffect_errclr_sink (p : Periph) : (periphEffect (.errclr) p).sink = p.sink := rfl
@[simp] theorem periphEffect_ie_rxifg (rx tx : Bool) (p : Periph) : (periphEffect (.ie rx tx) p).rxifg = p.rxifg := rfl
@[simp] theorem periphEffect_ie_rxb (rx tx : Bool) (p : Periph) : (periphEffect (.ie rx tx) p).rxb = p.rxb := rfl
@[simp] theorem periphEffect_ie_rxe (rx tx : Bool) (p : Periph) : (periphEffect (.ie rx tx) p).rxe = p.rxe := rfl
@[simp] theorem periphEffect_ie_txifg (rx tx : Bool) (p : Periph) : (periphEffect (.ie rx tx) p).txifg = p.txifg := rfl
@[simp] theorem periphEffect_ie_slot (rx tx : Bool) (p : Periph) : (periphEffect (.ie rx tx) p).slot = p.slot := rfl
@[simp] theorem periphEffect_ie_rxie (rx tx : Bool) (p : Periph) : (periphEffect (.ie rx tx) p).rxie = rx := rfl
@[simp] theorem periphEffect_ie_txie (rx tx : Bool) (p : Periph) : (periphEffect (.ie rx tx) p).txie = tx := rfl
@[simp] theorem periphEffect_ie_sink (rx tx : Bool) (p : Periph) : (periphEffect (.ie rx tx) p).sink = p.sink := rfl
@[simp] theorem periphEffect_wake (p : Periph) : periphEffect .wake p = p := rfl
@[simp] theorem periphEffect_baudsel (k : BitVec 4) (p : Periph) : periphEffect (.baudsel k) p = p := rfl

@[simp] theorem ringInit_rd (r : RingBuf) : r.init.rd = 0 := rfl
@[simp] theorem ringInit_wr (r : RingBuf) : r.init.wr = 0 := rfl
@[simp] theorem ringInit_cnt (r : RingBuf) : r.init.cnt = 0 := rfl
@[simp] theorem ringInit_cells (r : RingBuf) : r.init.cells = r.cells := rfl

end Sys2Proof.Machine
end

