-- ==== Sys2Proof/Laws/Memory.lean ====
section
/-! SUPPORT. Byte arrays: read after write, and that a write keeps the canonical form and the range. -/

namespace Sys2Proof.Machine

theorem Memory.read_write_same (m : Memory) (i : Nat) (b : Byte) : Memory.read (Memory.write m i b) i = some b := by
  induction m with
  | nil => simp [Memory.write, Memory.read]
  | cons c m ih =>
    obtain ⟨a, x⟩ := c
    by_cases h1 : i < a
    · simp [Memory.write, Memory.read, h1]
    · by_cases h2 : i = a
      · simp [Memory.write, Memory.read, h2]
      · simp [Memory.write, Memory.read, h1, h2, ih]

theorem Memory.read_write_other (m : Memory) {i j : Nat} (b : Byte) (h : j ≠ i) :
    Memory.read (Memory.write m i b) j = Memory.read m j := by
  induction m with
  | nil => simp [Memory.write, Memory.read, h]
  | cons c m ih =>
    obtain ⟨a, x⟩ := c
    by_cases h1 : i < a
    · simp [Memory.write, Memory.read, h1, h]
    · by_cases h2 : i = a
      · subst h2; simp [Memory.write, Memory.read, h]
      · simp [Memory.write, Memory.read, h1, h2, ih]

theorem Memory.read_write (m : Memory) (i j : Nat) (b : Byte) :
    Memory.read (Memory.write m i b) j = if j = i then some b else Memory.read m j := by
  split
  · next h => subst h; exact Memory.read_write_same m j b
  · next h => exact Memory.read_write_other m b h

/-- An entry of a written memory is the new one or an old one. -/
theorem Memory.mem_write {m : Memory} {i : Nat} {b : Byte} {c : Host.Cell} (h : c ∈ Memory.write m i b) :
    c = (i, b) ∨ c ∈ m := by
  induction m with
  | nil => simpa [Memory.write] using h
  | cons d m ih =>
    obtain ⟨a, x⟩ := d
    simp only [Memory.write] at h
    split at h
    · simpa using h
    · split at h
      · rcases List.mem_cons.1 h with h | h
        · exact .inl h
        · exact .inr (List.mem_cons_of_mem _ h)
      · rcases List.mem_cons.1 h with h | h
        · exact .inr (h ▸ List.mem_cons_self)
        · exact (ih h).imp_right (List.mem_cons_of_mem _)

theorem Memory.write_wf {m : Memory} (h : m.wf) (i : Nat) (b : Byte) : Memory.wf (Memory.write m i b) := by
  induction m with
  | nil => simp [Memory.write, Memory.wf]
  | cons d m ih =>
    obtain ⟨a, x⟩ := d
    obtain ⟨hd, hm⟩ := List.pairwise_cons.1 h
    simp only [Memory.write]
    split
    · next h1 =>
      refine List.pairwise_cons.2 ⟨fun c hc => ?_, h⟩
      rcases List.mem_cons.1 hc with rfl | hc
      · exact h1
      · exact Nat.lt_trans h1 (hd c hc)
    · split
      · next h2 => subst h2; exact List.pairwise_cons.2 ⟨hd, hm⟩
      · next h1 h2 =>
        refine List.pairwise_cons.2 ⟨fun c hc => ?_, ih hm⟩
        rcases Memory.mem_write hc with rfl | hc
        · show a < i; omega
        · exact hd c hc

theorem Memory.write_within {cap : Nat} {m : Memory} (h : m.within cap) {i : Nat} (hi : i < cap) (b : Byte) :
    Memory.within cap (Memory.write m i b) := fun c hc => by
  rcases Memory.mem_write hc with rfl | hc
  · exact hi
  · exact h c hc

theorem Memory.read_isSome_of_mem {m : Memory} {c : Host.Cell} (h : c ∈ m) : (Memory.read m c.1).isSome := by
  induction m with
  | nil => cases h
  | cons d m ih =>
    obtain ⟨a, x⟩ := d
    rcases List.mem_cons.1 h with rfl | h
    · simp [Memory.read]
    · by_cases hc : c.1 = a
      · simp [Memory.read, hc]
      · simpa [Memory.read, hc] using ih h

theorem Memory.mem_of_read {m : Memory} {i : Nat} {b : Byte} (h : Memory.read m i = some b) : (i, b) ∈ m := by
  induction m with
  | nil => cases h
  | cons d m ih =>
    obtain ⟨a, x⟩ := d
    simp only [Memory.read] at h
    split at h
    · next hi => cases h; subst hi; exact List.mem_cons_self
    · exact List.mem_cons_of_mem _ (ih h)

/-- In the canonical form equal contents are equal data. -/
theorem Memory.ext {m n : Memory} (hm : m.wf) (hn : n.wf) (h : ∀ i, Memory.read m i = Memory.read n i) : m = n := by
  have key : ∀ {m n : Memory}, m.wf → n.wf → (∀ i, Memory.read m i = Memory.read n i) → ∀ {a x m'}, m = (a, x) :: m' →
      ∀ {c y n'}, n = (c, y) :: n' → ¬ c < a := by
    intro m n hm _ h a x m' e c y n' e' hlt
    subst e e'
    have hr : Memory.read ((a, x) :: m') c = some y := by rw [h c]; simp [Memory.read]
    have hmem := Memory.mem_of_read hr
    rcases List.mem_cons.1 hmem with he | hmem
    · cases he; exact Nat.lt_irrefl _ hlt
    · exact Nat.lt_asymm hlt ((List.pairwise_cons.1 hm).1 _ hmem)
  induction m generalizing n with
  | nil =>
    cases n with
    | nil => rfl
    | cons d n => have := h d.1; simp [Memory.read] at this
  | cons c m ih =>
    cases n with
    | nil => have := h c.1; simp [Memory.read] at this
    | cons d n =>
      obtain ⟨a, x⟩ := c
      obtain ⟨a', x'⟩ := d
      have hle : ¬ a' < a := key hm hn h rfl rfl
      have hle' : ¬ a < a' := key hn hm (fun i => (h i).symm) rfl rfl
      have ha : a' = a := by omega
      subst ha
      have hx : x = x' := by simpa [Memory.read] using h a'
      subst hx
      obtain ⟨hd, hm'⟩ := List.pairwise_cons.1 hm
      obtain ⟨hd', hn'⟩ := List.pairwise_cons.1 hn
      have : m = n := by
        refine ih hm' hn' fun i => ?_
        by_cases hi : i = a'
        · subst hi
          have h1 : Memory.read m i = none := by
            cases hr : Memory.read m i with
            | none => rfl
            | some b => exact absurd (hd _ (Memory.mem_of_read hr)) (Nat.lt_irrefl _)
          have h2 : Memory.read n i = none := by
            cases hr : Memory.read n i with
            | none => rfl
            | some b => exact absurd (hd' _ (Memory.mem_of_read hr)) (Nat.lt_irrefl _)
          rw [h1, h2]
        · simpa [Memory.read, hi] using h i
      rw [this]

theorem ArrayInv.empty (cap : Nat) : ArrayInv cap [] := ⟨List.Pairwise.nil, fun _ h => by cases h⟩

theorem ArrayInv.write {cap : Nat} {m : Memory} (h : ArrayInv cap m) {i : Nat} (hi : i < cap) (b : Byte) :
    ArrayInv cap (Memory.write m i b) := ⟨Memory.write_wf h.wf i b, Memory.write_within h.within hi b⟩

theorem cellRead_of_read {cap : Nat} {m : Memory} {i : Nat} {b : Byte} (hi : i < cap) (h : m.read i = some b) :
    cellRead cap m i = .ok b := by simp [cellRead, hi, h]

theorem cellRead_unwritten {cap : Nat} {m : Memory} {i : Nat} (hi : i < cap) (h : m.read i = none) :
    cellRead cap m i = .error .unwrittenRead := by simp [cellRead, hi, h]

theorem cellWrite_of_lt {cap : Nat} {m : Memory} {i : Nat} (hi : i < cap) (b : Byte) :
    cellWrite cap m i b = .ok (m.write i b) := by simp [cellWrite, hi]

theorem cellWrite_ok {cap : Nat} {m m' : Memory} {i : Nat} {b : Byte} (h : cellWrite cap m i b = .ok m') :
    i < cap ∧ m' = m.write i b := by
  unfold cellWrite at h
  split at h
  · next hi => exact ⟨hi, (Except.ok.inj h).symm⟩
  · cases h

end Sys2Proof.Machine
end

