-- ==== Sys2Proof/Laws/Ring.lean ====
section
/-! SUPPORT. The ring operations: what each can answer, that each keeps the ring invariant (R27), and what it does to the
queue of bytes (R106). -/

namespace Sys2Proof.Machine

theorem cursorNext_toNat {cap : Nat} {v : Word} (h0 : 0 < cap) (h1 : cap ≤ 65535) :
    (cursorNext cap v).toNat = (v.toNat + 1) % cap := by
  have := Nat.mod_lt (v.toNat + 1) h0
  simp only [cursorNext, BitVec.toNat_ofNat]
  omega

/-! ### RB_PUT -/

theorem RingBuf.put_full {cap : Nat} {r : RingBuf} (b : Byte) (h : r.cnt.toNat = cap) : r.put cap b = .ok none := by
  simp [RingBuf.put, h]

theorem RingBuf.put_room {cap : Nat} {r : RingBuf} (b : Byte) (h : r.cnt.toNat ≠ cap) (hw : r.wr.toNat < cap) :
    r.put cap b = .ok (some
      { r with
        cells := r.cells.write r.wr.toNat b
        wr := cursorNext cap r.wr
        cnt := BitVec.ofNat 16 (r.cnt.toNat + 1) }) := by
  simp [RingBuf.put, h, cellWrite_of_lt hw]

/-- Everything RB_PUT can answer. -/
theorem RingBuf.put_cases (cap : Nat) (r : RingBuf) (b : Byte) :
    (r.cnt.toNat = cap ∧ r.put cap b = .ok none) ∨
    (r.cnt.toNat ≠ cap ∧ ¬ r.wr.toNat < cap ∧ r.put cap b = .error .indexRange) ∨
    (r.cnt.toNat ≠ cap ∧ r.wr.toNat < cap ∧ r.put cap b = .ok (some
      { r with
        cells := r.cells.write r.wr.toNat b
        wr := cursorNext cap r.wr
        cnt := BitVec.ofNat 16 (r.cnt.toNat + 1) })) := by
  by_cases h : r.cnt.toNat = cap
  · exact .inl ⟨h, RingBuf.put_full b h⟩
  · by_cases hw : r.wr.toNat < cap
    · exact .inr (.inr ⟨h, hw, RingBuf.put_room b h hw⟩)
    · exact .inr (.inl ⟨h, hw, by simp [RingBuf.put, h, cellWrite, hw]⟩)

/-! ### RB_GET -/

theorem RingBuf.get_empty {cap : Nat} {r : RingBuf} (h : r.cnt.toNat = 0) : r.get cap = .ok none := by
  simp [RingBuf.get, h]

theorem RingBuf.get_byte {cap : Nat} {r : RingBuf} {b : Byte} (h : r.cnt.toNat ≠ 0) (hr : r.rd.toNat < cap)
    (hb : r.cells.read r.rd.toNat = some b) :
    r.get cap = .ok (some (b,
      { r with rd := cursorNext cap r.rd, cnt := BitVec.ofNat 16 (r.cnt.toNat - 1) })) := by
  simp [RingBuf.get, h, cellRead_of_read hr hb]

/-- Everything RB_GET can answer. -/
theorem RingBuf.get_cases (cap : Nat) (r : RingBuf) :
    (r.cnt.toNat = 0 ∧ r.get cap = .ok none) ∨
    (r.cnt.toNat ≠ 0 ∧ ¬ r.rd.toNat < cap ∧ r.get cap = .error .indexRange) ∨
    (r.cnt.toNat ≠ 0 ∧ r.rd.toNat < cap ∧ r.cells.read r.rd.toNat = none ∧ r.get cap = .error .unwrittenRead) ∨
    (∃ b, r.cnt.toNat ≠ 0 ∧ r.rd.toNat < cap ∧ r.cells.read r.rd.toNat = some b ∧ r.get cap = .ok (some (b,
      { r with rd := cursorNext cap r.rd, cnt := BitVec.ofNat 16 (r.cnt.toNat - 1) }))) := by
  by_cases h : r.cnt.toNat = 0
  · exact .inl ⟨h, RingBuf.get_empty h⟩
  · by_cases hr : r.rd.toNat < cap
    · cases hb : r.cells.read r.rd.toNat with
      | none => exact .inr (.inr (.inl ⟨h, hr, rfl, by simp [RingBuf.get, h, cellRead_unwritten hr hb]⟩))
      | some b => exact .inr (.inr (.inr ⟨b, h, hr, rfl, RingBuf.get_byte h hr hb⟩))
    · exact .inr (.inl ⟨h, hr, by simp [RingBuf.get, h, cellRead, hr]⟩)

/-! ### The ring invariant -/

theorem RingInv.cell_isSome {cap : Nat} {r : RingBuf} (h : RingInv cap r) (hc : r.cnt.toNat ≠ 0) :
    (r.cells.read r.rd.toNat).isSome := by
  have := h.written 0 (Nat.pos_of_ne_zero hc)
  rwa [Nat.add_zero, Nat.mod_eq_of_lt h.rd_lt] at this

/-- In a ring that meets its invariant RB_GET on a nonempty ring gives a byte. -/
theorem RingInv.get_some {cap : Nat} {r : RingBuf} (h : RingInv cap r) (hc : r.cnt.toNat ≠ 0) :
    ∃ b, r.cells.read r.rd.toNat = some b ∧ r.get cap = .ok (some (b,
      { r with rd := cursorNext cap r.rd, cnt := BitVec.ofNat 16 (r.cnt.toNat - 1) })) := by
  obtain ⟨b, hb⟩ := Option.isSome_iff_exists.1 (h.cell_isSome hc)
  exact ⟨b, hb, RingBuf.get_byte hc h.rd_lt hb⟩

theorem RingInv.init {cap : Nat} (h0 : 0 < cap) (r : RingBuf) : RingInv cap r.init where
  cnt_le := Nat.zero_le _
  rd_lt := h0
  wr_lt := h0
  wr_eq := by simp
  written := fun k hk => absurd hk (Nat.not_lt_zero k)

theorem mod_shift (n a c : Nat) : ((a + 1) % n + c) % n = (a + (c + 1)) % n := by
  rw [Nat.mod_add_mod]; congr 1; omega

/-- Two positions of a ring less than a turn apart are different cells. -/
theorem mod_ne_of_lt {n a k l : Nat} (hl : l < n) (hk : k < l) : (a + k) % n ≠ (a + l) % n := by
  intro h
  have h3 : a + k ≡ a + l [MOD n] := h
  have h4 : k % n = l % n := Nat.ModEq.add_left_cancel' a h3
  rw [Nat.mod_eq_of_lt hl, Nat.mod_eq_of_lt (by omega)] at h4
  omega

theorem ofNat16_toNat {n : Nat} (h : n ≤ 65535) : (BitVec.ofNat 16 n).toNat = n := by
  simp only [BitVec.toNat_ofNat]; omega

theorem RingInv.put {cap : Nat} {r : RingBuf} (h : RingInv cap r) (h1 : cap ≤ 65535) (b : Byte)
    (hc : r.cnt.toNat ≠ cap) :
    RingInv cap { r with
      cells := r.cells.write r.wr.toNat b
      wr := cursorNext cap r.wr
      cnt := BitVec.ofNat 16 (r.cnt.toNat + 1) } := by
  have h0 : 0 < cap := Nat.lt_of_le_of_lt (Nat.zero_le _) h.rd_lt
  have hlt : r.cnt.toNat < cap := Nat.lt_of_le_of_ne h.cnt_le hc
  have hcnt : (BitVec.ofNat 16 (r.cnt.toNat + 1)).toNat = r.cnt.toNat + 1 := ofNat16_toNat (by omega)
  refine ⟨by simp only [hcnt]; omega, h.rd_lt, ?_, ?_, ?_⟩
  · rw [cursorNext_toNat h0 h1]; exact Nat.mod_lt _ h0
  · simp only [hcnt]
    rw [cursorNext_toNat h0 h1, h.wr_eq, Nat.mod_add_mod, Nat.add_assoc]
  · intro k hk
    simp only [hcnt] at hk
    rw [Memory.read_write]
    split
    · rfl
    · next hne =>
      rcases Nat.lt_or_ge k r.cnt.toNat with hk' | hk'
      · exact h.written k hk'
      · exact absurd (by rw [h.wr_eq]; congr 2; omega) hne

theorem RingInv.get {cap : Nat} {r : RingBuf} (h : RingInv cap r) (h1 : cap ≤ 65535) (hc : r.cnt.toNat ≠ 0) :
    RingInv cap { r with rd := cursorNext cap r.rd, cnt := BitVec.ofNat 16 (r.cnt.toNat - 1) } := by
  have h0 : 0 < cap := Nat.lt_of_le_of_lt (Nat.zero_le _) h.rd_lt
  have hle := h.cnt_le
  have hcnt : (BitVec.ofNat 16 (r.cnt.toNat - 1)).toNat = r.cnt.toNat - 1 := ofNat16_toNat (by omega)
  refine ⟨by simp only [hcnt]; omega, ?_, h.wr_lt, ?_, ?_⟩
  · rw [cursorNext_toNat h0 h1]; exact Nat.mod_lt _ h0
  · simp only [hcnt]
    rw [cursorNext_toNat h0 h1, mod_shift, h.wr_eq]
    congr 1; omega
  · intro k hk
    simp only [hcnt] at hk
    rw [cursorNext_toNat h0 h1, mod_shift]
    exact h.written (k + 1) (by omega)

/-! ### The queue a ring holds -/

theorem RingBuf.contents_init (cap : Nat) (r : RingBuf) : r.init.contents cap = [] := rfl

theorem RingBuf.contents_empty {cap : Nat} {r : RingBuf} (h : r.cnt.toNat = 0) : r.contents cap = [] := by
  simp [RingBuf.contents, h]

theorem RingInv.contents_put {cap : Nat} {r : RingBuf} (h : RingInv cap r) (h1 : cap ≤ 65535) (b : Byte)
    (hc : r.cnt.toNat ≠ cap) :
    RingBuf.contents cap { r with
      cells := r.cells.write r.wr.toNat b
      wr := cursorNext cap r.wr
      cnt := BitVec.ofNat 16 (r.cnt.toNat + 1) } = r.contents cap ++ [b] := by
  have hlt : r.cnt.toNat < cap := Nat.lt_of_le_of_ne h.cnt_le hc
  have hcnt : (BitVec.ofNat 16 (r.cnt.toNat + 1)).toNat = r.cnt.toNat + 1 := ofNat16_toNat (by omega)
  simp only [RingBuf.contents, hcnt, List.range_succ, List.filterMap_append]
  congr 1
  · refine List.filterMap_congr fun k hk => ?_
    have hk' := List.mem_range.1 hk
    exact Memory.read_write_other _ _ (by rw [h.wr_eq]; exact mod_ne_of_lt hlt hk')
  · simp [← h.wr_eq, Memory.read_write_same]

theorem RingInv.contents_get {cap : Nat} {r : RingBuf} (h : RingInv cap r) (h1 : cap ≤ 65535)
    (hc : r.cnt.toNat ≠ 0) {b : Byte} (hb : r.cells.read r.rd.toNat = some b) :
    r.contents cap =
      b :: RingBuf.contents cap { r with rd := cursorNext cap r.rd, cnt := BitVec.ofNat 16 (r.cnt.toNat - 1) } := by
  have h0 : 0 < cap := Nat.lt_of_le_of_lt (Nat.zero_le _) h.rd_lt
  have hle := h.cnt_le
  have hcnt : (BitVec.ofNat 16 (r.cnt.toNat - 1)).toNat = r.cnt.toNat - 1 := ofNat16_toNat (by omega)
  have hlen : r.cnt.toNat = (r.cnt.toNat - 1) + 1 := by omega
  unfold RingBuf.contents
  rw [hcnt, hlen, List.range_succ_eq_map, List.filterMap_cons, List.filterMap_map]
  simp only [Nat.add_zero, Nat.mod_eq_of_lt h.rd_lt, hb, Nat.add_sub_cancel]
  congr 1
  refine List.filterMap_congr fun k _ => ?_
  simp only [Function.comp_apply, Nat.succ_eq_add_one, cursorNext_toNat h0 h1, mod_shift]

end Sys2Proof.Machine
end

