-- ==== Sys2Proof/Laws/Exec.lean ====
section
/-! SUPPORT. What each operation can do, said once: every next state an operation answers is one of the cases of `Did`,
and every next state a step answers is one of the cases of `AgentDid` or of `step_runs`.
Claims about all steps follow by cases. -/

namespace Sys2Proof.Machine

/-! ### Shared operations -/

theorem requireInit_true {s : State} (h : s.udc.inited = true) (o : Host.Outcome State Fault Refusal) :
    requireInit s o = o := by simp [requireInit, h]

theorem requireInit_false {s : State} (h : s.udc.inited = false) (o : Host.Outcome State Fault Refusal) :
    requireInit s o = .next (respond .notInit 0 s) := by simp [requireInit, h]

theorem requireInit_next {s t : State} {o : Host.Outcome State Fault Refusal} (h : requireInit s o = .next t) :
    (s.udc.inited = false ∧ t = respond .notInit 0 s) ∨ (s.udc.inited = true ∧ o = .next t) := by
  cases hi : s.udc.inited with
  | false => rw [requireInit_false hi] at h; exact .inl ⟨rfl, (Host.Outcome.next.inj h).symm⟩
  | true => rw [requireInit_true hi] at h; exact .inr ⟨rfl, h⟩

theorem respond_eq (st : Status) (d : Word) (s : State) : respond st d s = { s with host := answered s st d } := rfl

/-- zext_16 as a number (R76). -/
theorem dataOfByte_eq (b : Byte) : dataOfByte b = BitVec.ofNat 16 b.toNat := by simp [dataOfByte]

theorem configCheck_none {cfg : Config} : configCheck cfg = none ↔ LegalConfig cfg := by
  constructor
  · intro h
    unfold configCheck at h
    split at h
    · cases h
    · split at h
      · cases h
      · next h0 h1 =>
        push Not at h0 h1
        exact ⟨by omega, by omega, by omega, by omega, by omega, by omega, h1.2.2.2⟩
  · intro h
    have := h.txCap_pos; have := h.txCap_le; have := h.rxCap_pos; have := h.rxCap_le
    have := h.lbCap_pos; have := h.lbCap_le
    unfold configCheck
    rw [if_neg (by omega), if_neg]
    rintro (h' | h' | h' | h')
    · omega
    · omega
    · omega
    · exact h.baudSet_ne h'

/-- A ring with one more byte, as RB_PUT leaves it. -/
def putBuf (cap : Nat) (r : RingBuf) (b : Byte) : RingBuf :=
  { r with
    cells := r.cells.write r.wr.toNat b
    wr := cursorNext cap r.wr
    cnt := BitVec.ofNat 16 (r.cnt.toNat + 1) }

/-- A ring with its oldest byte taken, as RB_GET leaves it. -/
def getBuf (cap : Nat) (r : RingBuf) : RingBuf :=
  { r with rd := cursorNext cap r.rd, cnt := BitVec.ofNat 16 (r.cnt.toNat - 1) }

@[simp] theorem putBuf_rd (cap : Nat) (r : RingBuf) (b : Byte) : (putBuf cap r b).rd = r.rd := rfl
@[simp] theorem putBuf_wr (cap : Nat) (r : RingBuf) (b : Byte) : (putBuf cap r b).wr = cursorNext cap r.wr := rfl
@[simp] theorem putBuf_cells (cap : Nat) (r : RingBuf) (b : Byte) :
    (putBuf cap r b).cells = r.cells.write r.wr.toNat b := rfl
@[simp] theorem getBuf_rd (cap : Nat) (r : RingBuf) : (getBuf cap r).rd = cursorNext cap r.rd := rfl
@[simp] theorem getBuf_wr (cap : Nat) (r : RingBuf) : (getBuf cap r).wr = r.wr := rfl
@[simp] theorem getBuf_cells (cap : Nat) (r : RingBuf) : (getBuf cap r).cells = r.cells := rfl

theorem put_next {cap : Nat} {r r' : RingBuf} {b : Byte} (h : r.put cap b = .ok (some r')) :
    r.cnt.toNat ≠ cap ∧ r.wr.toNat < cap ∧ r' = putBuf cap r b := by
  rcases RingBuf.put_cases cap r b with ⟨_, h'⟩ | ⟨_, _, h'⟩ | ⟨h1, h2, h'⟩ <;> rw [h'] at h
  · cases h
  · cases h
  · exact ⟨h1, h2, by cases h; rfl⟩

theorem put_none {cap : Nat} {r : RingBuf} {b : Byte} (h : r.put cap b = .ok none) : r.cnt.toNat = cap := by
  rcases RingBuf.put_cases cap r b with ⟨h1, _⟩ | ⟨_, _, h'⟩ | ⟨_, _, h'⟩
  · exact h1
  · rw [h'] at h; cases h
  · rw [h'] at h; cases h

theorem get_next {cap : Nat} {r r' : RingBuf} {b : Byte} (h : r.get cap = .ok (some (b, r'))) :
    r.cnt.toNat ≠ 0 ∧ r.rd.toNat < cap ∧ r.cells.read r.rd.toNat = some b ∧ r' = getBuf cap r := by
  rcases RingBuf.get_cases cap r with ⟨_, h'⟩ | ⟨_, _, h'⟩ | ⟨_, _, _, h'⟩ | ⟨b', h1, h2, h3, h'⟩ <;> rw [h'] at h
  · cases h
  · cases h
  · cases h
  · cases h; exact ⟨h1, h2, h3, rfl⟩

theorem get_none {cap : Nat} {r : RingBuf} (h : r.get cap = .ok none) : r.cnt.toNat = 0 := by
  rcases RingBuf.get_cases cap r with ⟨h1, _⟩ | ⟨_, _, h'⟩ | ⟨_, _, _, h'⟩ | ⟨_, _, _, _, h'⟩
  · exact h1
  all_goals rw [h'] at h; cases h

theorem lineRejects_true {s : State} :
    lineRejects s = true ↔ s.udc.lbEn = false ∨ s.udc.lbP.toNat = s.cfg.lbCap := by simp [lineRejects]

theorem lineRejects_false {s : State} :
    lineRejects s = false ↔ s.udc.lbEn = true ∧ s.udc.lbP.toNat ≠ s.cfg.lbCap := by simp [lineRejects]

@[simp] theorem lineRejects_emit (e : OutEvent) (s : State) : lineRejects (emit e s) = lineRejects s := rfl

theorem kickWanted_true {f : Bool} {s : State} :
    kickWanted f s = true ↔ (f = true ∨ s.cfg.kickPolicy = .everyPut) ∧ s.udc.txBusy = false := by
  simp [kickWanted]

theorem rxHandler_line {b : Byte} {s : State} (h : s.udc.rxPol = .line) : rxHandler b s = rxLine b s := by
  simp only [rxHandler, h]

theorem rxHandler_ring {b : Byte} {s : State} (h : s.udc.rxPol = .ring) : rxHandler b s = rxRing b s := by
  simp only [rxHandler, h]

theorem rxLine_lf (s : State) : rxLine charLF s = .ok (false, s) := by simp [rxLine]

theorem rxLine_rejected {b : Byte} {s : State} (hb : b ≠ charLF) (hr : lineRejects s = true) :
    rxLine b s = .ok (false, if b = charCR then armLine (countOverrun s) else countOverrun s) := by
  simp [rxLine, hb, hr]

theorem rxLine_complete {s : State} (hr : lineRejects s = false) (hw : s.udc.lbP.toNat < s.cfg.lbCap) :
    rxLine charCR s = .ok (true, { s with udc := { s.udc with
      lbs := s.udc.lbs.write s.udc.lbP.toNat 0x00#8, lbEn := false, lbP := 0 } }) := by
  have : charCR ≠ charLF := by decide
  simp [rxLine, this, hr, cellWrite_of_lt hw]

theorem rxLine_store {b : Byte} {s : State} (hb : b ≠ charLF) (hc : b ≠ charCR) (hr : lineRejects s = false)
    (hw : s.udc.lbP.toNat < s.cfg.lbCap) :
    rxLine b s = .ok (false, { s with udc := { s.udc with
      lbs := s.udc.lbs.write s.udc.lbP.toNat b, lbP := BitVec.ofNat 8 (s.udc.lbP.toNat + 1) } }) := by
  simp [rxLine, hb, hc, hr, cellWrite_of_lt hw]

theorem rxRing_full {s : State} (b : Byte) (h : s.udc.rxr.cnt.toNat = s.cfg.rxCap) :
    rxRing b s = .ok (decide (b = charCR), countOverrun s) := by simp [rxRing, RingBuf.put_full b h]

theorem rxRing_room {s : State} (b : Byte) (h : s.udc.rxr.cnt.toNat ≠ s.cfg.rxCap)
    (hw : s.udc.rxr.wr.toNat < s.cfg.rxCap) :
    rxRing b s = .ok (decide (b = charCR), s.setRing .rxr (putBuf s.cfg.rxCap s.udc.rxr b)) := by
  simp [rxRing, RingBuf.put_room b h hw, putBuf]

/-- Everything the line handler can do with a byte it does not fault on (R142-R144). -/
theorem rxLine_cases {b : Byte} {s t : State} {d : Bool} (h : rxLine b s = .ok (d, t)) :
    (b = charLF ∧ d = false ∧ t = s) ∨
    (b ≠ charLF ∧ lineRejects s = true ∧ d = false ∧
      t = if b = charCR then armLine (countOverrun s) else countOverrun s) ∨
    (b = charCR ∧ lineRejects s = false ∧ s.udc.lbP.toNat < s.cfg.lbCap ∧ d = true ∧
      t = { s with udc := { s.udc with lbs := s.udc.lbs.write s.udc.lbP.toNat 0x00#8, lbEn := false, lbP := 0 } }) ∨
    (b ≠ charLF ∧ b ≠ charCR ∧ lineRejects s = false ∧ s.udc.lbP.toNat < s.cfg.lbCap ∧ d = false ∧
      t = { s with udc := { s.udc with
        lbs := s.udc.lbs.write s.udc.lbP.toNat b, lbP := BitVec.ofNat 8 (s.udc.lbP.toNat + 1) } }) := by
  unfold rxLine at h
  split at h
  · next hb => cases h; exact .inl ⟨hb, rfl, rfl⟩
  · next hb =>
    split at h
    · next hr => cases h; exact .inr (.inl ⟨hb, hr, rfl, rfl⟩)
    · next hr =>
      have hr' : lineRejects s = false := by simpa using hr
      split at h
      · next hc =>
        split at h
        · cases h
        · next m hm =>
          obtain ⟨hlt, rfl⟩ := cellWrite_ok hm
          cases h; exact .inr (.inr (.inl ⟨hc, hr', hlt, rfl, rfl⟩))
      · next hc =>
        split at h
        · cases h
        · next m hm =>
          obtain ⟨hlt, rfl⟩ := cellWrite_ok hm
          cases h; exact .inr (.inr (.inr ⟨hb, hc, hr', hlt, rfl, rfl⟩))

/-- Everything the ring handler can do with a byte it does not fault on (R146). -/
theorem rxRing_cases {b : Byte} {s t : State} {d : Bool} (h : rxRing b s = .ok (d, t)) :
    d = decide (b = charCR) ∧
    ((s.udc.rxr.cnt.toNat = s.cfg.rxCap ∧ t = countOverrun s) ∨
     (s.udc.rxr.cnt.toNat ≠ s.cfg.rxCap ∧ s.udc.rxr.wr.toNat < s.cfg.rxCap ∧
      t = s.setRing .rxr (putBuf s.cfg.rxCap s.udc.rxr b))) := by
  unfold rxRing at h
  split at h
  · cases h
  · next hp => cases h; exact ⟨rfl, .inl ⟨put_none hp, rfl⟩⟩
  · next r hp =>
    obtain ⟨h1, h2, rfl⟩ := put_next hp
    cases h; exact ⟨rfl, .inr ⟨h1, h2, rfl⟩⟩

theorem emitTxwr_next {b : Byte} {s t : State} (h : emitTxwr b s = .ok t) :
    s.periph.slot = none ∧ t = emit (.txwr b) s := by
  unfold emitTxwr txReady at h
  split at h
  · next hr => cases h; exact ⟨by simpa using hr, rfl⟩
  · cases h

/-- Everything TXC can do where it does not fault (R124). -/
theorem txComplete_cases {s t : State} (h : txComplete s = .ok t) :
    (s.udc.txr.cnt.toNat = 0 ∧ t = txIdle s) ∨
    (∃ b, s.udc.txr.cnt.toNat ≠ 0 ∧ s.udc.txr.rd.toNat < s.cfg.txCap ∧
      s.udc.txr.cells.read s.udc.txr.rd.toNat = some b ∧ s.periph.slot = none ∧
      t = setBusy true (emit (.txwr b) (s.setRing .txr (getBuf s.cfg.txCap s.udc.txr)))) := by
  unfold txComplete at h
  split at h
  · cases h
  · next hg => cases h; exact .inl ⟨get_none hg, rfl⟩
  · next b r hg =>
    obtain ⟨h1, h2, h3, rfl⟩ := get_next hg
    cases he : emitTxwr b (s.setRing .txr (getBuf s.cfg.txCap s.udc.txr)) with
    | error f => rw [he] at h; cases h
    | ok u =>
      rw [he] at h
      obtain ⟨hs, rfl⟩ := emitTxwr_next he
      exact .inr ⟨b, h1, h2, h3, hs, (Except.ok.inj h).symm⟩

/-! ### One operation -/

/-- A command that answers NOTINIT before the first INIT (R195). -/
def needsInit : Instr → Bool
  | .txb _ => true
  | .txbF _ => true
  | .getev => true
  | .clrev => true
  | .getln => true
  | .lbrd _ => true
  | .rearm => true
  | .rxget => true
  | .rderr => true
  | _ => false

/-- The state INIT leaves (R191, R241). -/
def initialised (baud : BitVec 4) (m : TxMode) (pol : RxPolicy) (s : State) : State :=
  respond .ok 0 (emit (initEnables m) (emit (.baudsel baud) { s with udc := initUdc baud m pol s.udc }))

/-- i is INIT of these operands. -/
def IsInitOf (i : Instr) (baud : BitVec 4) (m : TxMode) (pol : RxPolicy) : Prop :=
  (i = .initLine baud m ∧ pol = .line) ∨ (i = .initRing baud m ∧ pol = .ring)

/-- i is TXB of byte d with flag f. -/
def IsTxbOf (i : Instr) (d : Byte) (f : Bool) : Prop := (i = .txb d ∧ f = false) ∨ (i = .txbF d ∧ f = true)

/-- Every next state an operation can answer. -/
inductive Did (s : State) : Instr → State → Prop
  | notInit {i : Instr} (hi : needsInit i = true) (h : s.udc.inited = false) : Did s i (respond .notInit 0 s)
  | nop : Did s .nop (respond .ok 0 s)
  | init {i baud m pol} (hi : IsInitOf i baud m pol) (hb : baud ∈ s.cfg.baudSet) : Did s i (initialised baud m pol s)
  | badRate {i baud m pol} (hi : IsInitOf i baud m pol) (hb : baud ∉ s.cfg.baudSet) : Did s i (respond .badArg 0 s)
  | txbFull {i d f} (hi : IsTxbOf i d f) (h : s.udc.inited = true) (hm : s.udc.txMode = .intr)
      (hc : s.udc.txr.cnt.toNat = s.cfg.txCap) : Did s i s
  | txbKick {i d f} (hi : IsTxbOf i d f) (h : s.udc.inited = true) (hm : s.udc.txMode = .intr)
      (hc : s.udc.txr.cnt.toNat ≠ s.cfg.txCap) (hw : s.udc.txr.wr.toNat < s.cfg.txCap) (hk : kickWanted f s = true) :
      Did s i (respond .ok 0 (kick (s.setRing .txr (putBuf s.cfg.txCap s.udc.txr d))))
  | txbPut {i d f} (hi : IsTxbOf i d f) (h : s.udc.inited = true) (hm : s.udc.txMode = .intr)
      (hc : s.udc.txr.cnt.toNat ≠ s.cfg.txCap) (hw : s.udc.txr.wr.toNat < s.cfg.txCap) (hk : kickWanted f s = false) :
      Did s i (respond .ok 0 (s.setRing .txr (putBuf s.cfg.txCap s.udc.txr d)))
  | txbWait {i d f} (hi : IsTxbOf i d f) (h : s.udc.inited = true) (hm : s.udc.txMode = .polled)
      (hs : s.periph.slot.isSome) : Did s i s
  | txbDirect {i d f} (hi : IsTxbOf i d f) (h : s.udc.inited = true) (hm : s.udc.txMode = .polled)
      (hs : s.periph.slot = none) : Did s i (respond .ok 0 (emit (.txwr d) s))
  | getev (h : s.udc.inited = true) : Did s .getev (respond .ok (dataOfByte s.udc.ev) s)
  | clrev (h : s.udc.inited = true) : Did s .clrev (respond .ok 0 { s with udc := { s.udc with ev := 0 } })
  | getlnNone (h : s.udc.inited = true) (hl : s.udc.lbEn = true) : Did s .getln (respond .none 0 s)
  | getlnPending (h : s.udc.inited = true) (hl : s.udc.lbEn = false) : Did s .getln (respond .ok linePendingData s)
  | lbrdOut {k} (h : s.udc.inited = true) (hk : s.cfg.lbCap ≤ k.toNat) : Did s (.lbrd k) (respond .badArg 0 s)
  | lbrd {k b} (h : s.udc.inited = true) (hk : k.toNat < s.cfg.lbCap) (hb : s.udc.lbs.read k.toNat = some b) :
      Did s (.lbrd k) (respond .ok (dataOfByte b) s)
  | rearm (h : s.udc.inited = true) : Did s .rearm (respond .ok 0 (armLine s))
  | rxgetEmpty (h : s.udc.inited = true) (hc : s.udc.rxr.cnt.toNat = 0) : Did s .rxget (respond .empty 0 s)
  | rxget {b} (h : s.udc.inited = true) (hc : s.udc.rxr.cnt.toNat ≠ 0) (hr : s.udc.rxr.rd.toNat < s.cfg.rxCap)
      (hb : s.udc.rxr.cells.read s.udc.rxr.rd.toNat = some b) :
      Did s .rxget (respond .ok (dataOfByte b) (s.setRing .rxr (getBuf s.cfg.rxCap s.udc.rxr)))
  | rderr (h : s.udc.inited = true) : Did s .rderr (respond .ok s.udc.ovr s)
  | rbInit {r d} : Did s (.rbInit r d) (answerRing r .ok 0 (s.setRing r (s.ring r).init))
  | rbFull {r d} (hc : (s.ring r).cnt.toNat = ringCap s.cfg r) : Did s (.rbPut r d) (answerRing r .full 0 s)
  | rbPut {r d} (hc : (s.ring r).cnt.toNat ≠ ringCap s.cfg r) (hw : (s.ring r).wr.toNat < ringCap s.cfg r) :
      Did s (.rbPut r d) (answerRing r .ok 0 (s.setRing r (putBuf (ringCap s.cfg r) (s.ring r) d)))
  | rbEmpty {r d} (hc : (s.ring r).cnt.toNat = 0) : Did s (.rbGet r d) (answerRing r .empty 0 s)
  | rbGet {r d b} (hc : (s.ring r).cnt.toNat ≠ 0) (hr : (s.ring r).rd.toNat < ringCap s.cfg r)
      (hb : (s.ring r).cells.read (s.ring r).rd.toNat = some b) :
      Did s (.rbGet r d) (answerRing r .ok b (s.setRing r (getBuf (ringCap s.cfg r) (s.ring r))))
  | rxError (he : s.periph.rxe = true) : Did s .dispRx (emit .errclr (emit .rxrd s))
  | rxLf (he : s.periph.rxe = false) (hp : s.udc.rxPol = .line) (hb : s.periph.rxb = charLF) :
      Did s .dispRx (emit .rxrd s)
  | rxRejected (he : s.periph.rxe = false) (hp : s.udc.rxPol = .line) (hb : s.periph.rxb ≠ charLF)
      (hr : lineRejects s = true) (hc : s.periph.rxb ≠ charCR) : Did s .dispRx (countOverrun (emit .rxrd s))
  | rxResync (he : s.periph.rxe = false) (hp : s.udc.rxPol = .line) (hr : lineRejects s = true)
      (hc : s.periph.rxb = charCR) : Did s .dispRx (armLine (countOverrun (emit .rxrd s)))
  | rxComplete (he : s.periph.rxe = false) (hp : s.udc.rxPol = .line) (hr : lineRejects s = false)
      (hc : s.periph.rxb = charCR) (hw : s.udc.lbP.toNat < s.cfg.lbCap) :
      Did s .dispRx (signalLine { emit .rxrd s with
        udc := { s.udc with lbs := s.udc.lbs.write s.udc.lbP.toNat 0x00#8, lbEn := false, lbP := 0 } })
  | rxStore (he : s.periph.rxe = false) (hp : s.udc.rxPol = .line) (hr : lineRejects s = false)
      (hb : s.periph.rxb ≠ charLF) (hc : s.periph.rxb ≠ charCR) (hw : s.udc.lbP.toNat < s.cfg.lbCap) :
      Did s .dispRx { emit .rxrd s with udc := { s.udc with
        lbs := s.udc.lbs.write s.udc.lbP.toNat s.periph.rxb, lbP := BitVec.ofNat 8 (s.udc.lbP.toNat + 1) } }
  | rxDropped (he : s.periph.rxe = false) (hp : s.udc.rxPol = .ring) (hf : s.udc.rxr.cnt.toNat = s.cfg.rxCap)
      (hc : s.periph.rxb ≠ charCR) : Did s .dispRx (countOverrun (emit .rxrd s))
  | rxDroppedCr (he : s.periph.rxe = false) (hp : s.udc.rxPol = .ring) (hf : s.udc.rxr.cnt.toNat = s.cfg.rxCap)
      (hc : s.periph.rxb = charCR) : Did s .dispRx (signalLine (countOverrun (emit .rxrd s)))
  | rxQueued (he : s.periph.rxe = false) (hp : s.udc.rxPol = .ring) (hf : s.udc.rxr.cnt.toNat ≠ s.cfg.rxCap)
      (hw : s.udc.rxr.wr.toNat < s.cfg.rxCap) (hc : s.periph.rxb ≠ charCR) :
      Did s .dispRx ((emit .rxrd s).setRing .rxr (putBuf s.cfg.rxCap s.udc.rxr s.periph.rxb))
  | rxQueuedCr (he : s.periph.rxe = false) (hp : s.udc.rxPol = .ring) (hf : s.udc.rxr.cnt.toNat ≠ s.cfg.rxCap)
      (hw : s.udc.rxr.wr.toNat < s.cfg.rxCap) (hc : s.periph.rxb = charCR) :
      Did s .dispRx (signalLine ((emit .rxrd s).setRing .rxr (putBuf s.cfg.rxCap s.udc.rxr s.periph.rxb)))
  | txIdle (hc : s.udc.txr.cnt.toNat = 0) : Did s .dispTx (txIdle s)
  | txSend {b} (hc : s.udc.txr.cnt.toNat ≠ 0) (hr : s.udc.txr.rd.toNat < s.cfg.txCap)
      (hb : s.udc.txr.cells.read s.udc.txr.rd.toNat = some b) (hs : s.periph.slot = none) :
      Did s .dispTx (setBusy true (emit (.txwr b) (s.setRing .txr (getBuf s.cfg.txCap s.udc.txr))))
  | dispNone {iv} : Did s (.dispNone iv) s

theorem initWith_did {i : Instr} {baud : BitVec 4} {m : TxMode} {pol : RxPolicy} {s t : State}
    (hi : IsInitOf i baud m pol) (h : initWith baud m pol s = .next t) : Did s i t := by
  unfold initWith at h
  split at h
  · next hb => cases h; exact .init hi hb
  · next hb => cases h; exact .badRate hi hb

theorem txbWith_did {i : Instr} {d : Byte} {f : Bool} {s t : State} (hi : IsTxbOf i d f)
    (h0 : s.udc.inited = true) (h : txbWith f d s = .next t) : Did s i t := by
  unfold txbWith at h
  split at h
  · next hm =>
    unfold txbIntr at h
    split at h
    · cases h
    · next hp => cases h; exact .txbFull hi h0 hm (put_none hp)
    · next r hp =>
      obtain ⟨h1, h2, rfl⟩ := put_next hp
      cases h
      cases hk : kickWanted f s with
      | true => simpa [hk] using Did.txbKick hi h0 hm h1 h2 hk
      | false => simpa [hk] using Did.txbPut hi h0 hm h1 h2 hk
  · next hm =>
    unfold txbPolled txReady hold at h
    split at h
    · next hs => cases h; exact .txbDirect hi h0 hm (by simpa using hs)
    · next hs => cases h; exact .txbWait hi h0 hm (by simpa [Option.isSome_iff_ne_none] using hs)

theorem acceptByte_did {s t : State} (he : s.periph.rxe = false)
    (h : acceptByte s.periph.rxb (emit .rxrd s) = .ok t) : Did s .dispRx t := by
  unfold acceptByte at h
  cases hr : rxHandler s.periph.rxb (emit .rxrd s) with
  | error f => rw [hr] at h; cases h
  | ok x =>
    obtain ⟨d, u⟩ := x
    rw [hr] at h
    have ht : t = if d = true then signalLine u else u := (Except.ok.inj h).symm
    subst ht
    unfold rxHandler at hr
    split at hr
    · next hp =>
      rcases rxLine_cases hr with ⟨hb, rfl, rfl⟩ | ⟨hb, hj, rfl, rfl⟩ | ⟨hc, hj, hw, rfl, rfl⟩ |
        ⟨hb, hc, hj, hw, rfl, rfl⟩
      · exact .rxLf he hp hb
      · by_cases hc : s.periph.rxb = charCR
        · simpa [hc] using Did.rxResync he hp hj hc
        · simpa [hc] using Did.rxRejected he hp hb hj hc
      · exact .rxComplete he hp hj hc hw
      · exact .rxStore he hp hj hb hc hw
    · next hp =>
      obtain ⟨rfl, h'⟩ := rxRing_cases hr
      by_cases hc : s.periph.rxb = charCR
      · rcases h' with ⟨hf, rfl⟩ | ⟨hf, hw, rfl⟩
        · simpa [hc] using Did.rxDroppedCr he hp hf hc
        · simpa [hc] using Did.rxQueuedCr he hp hf hw hc
      · rcases h' with ⟨hf, rfl⟩ | ⟨hf, hw, rfl⟩
        · simpa [hc] using Did.rxDropped he hp hf hc
        · simpa [hc] using Did.rxQueued he hp hf hw hc

theorem finish_next {x : Except Fault State} {t : State} (h : finish x = .next t) : x = .ok t := by
  cases x with
  | ok s => cases h; rfl
  | error f => cases h

/-- Whatever next state an operation answers is one of the cases of `Did`. -/
theorem exec_did {i : Instr} {s t : State} (h : exec i s = .next t) : Did s i t := by
  cases i with
  | nop => cases h; exact .nop
  | initLine baud m => exact initWith_did (.inl ⟨rfl, rfl⟩) h
  | initRing baud m => exact initWith_did (.inr ⟨rfl, rfl⟩) h
  | initCustom baud m => cases h
  | txb d =>
    rcases requireInit_next h with ⟨h0, rfl⟩ | ⟨h0, h⟩
    · exact .notInit rfl h0
    · exact txbWith_did (.inl ⟨rfl, rfl⟩) h0 h
  | txbF d =>
    rcases requireInit_next h with ⟨h0, rfl⟩ | ⟨h0, h⟩
    · exact .notInit rfl h0
    · exact txbWith_did (.inr ⟨rfl, rfl⟩) h0 h
  | getev =>
    rcases requireInit_next h with ⟨h0, rfl⟩ | ⟨h0, h⟩
    · exact .notInit rfl h0
    · cases h; exact .getev h0
  | clrev =>
    rcases requireInit_next h with ⟨h0, rfl⟩ | ⟨h0, h⟩
    · exact .notInit rfl h0
    · cases h; exact .clrev h0
  | getln =>
    rcases requireInit_next h with ⟨h0, rfl⟩ | ⟨h0, h⟩
    · exact .notInit rfl h0
    · cases hl : s.udc.lbEn with
      | true => simp only [hl, if_true] at h; cases h; exact .getlnNone h0 hl
      | false => simp only [hl, Bool.false_eq_true, if_false] at h; cases h; exact .getlnPending h0 hl
  | lbrd k =>
    rcases requireInit_next h with ⟨h0, rfl⟩ | ⟨h0, h⟩
    · exact .notInit rfl h0
    · split at h
      · next hk => cases h; exact .lbrdOut h0 hk
      · next hk =>
        have hk := Nat.lt_of_not_le hk
        cases hb : s.udc.lbs.read k.toNat with
        | none => rw [cellRead_unwritten hk hb] at h; cases h
        | some b => rw [cellRead_of_read hk hb] at h; cases h; exact .lbrd h0 hk hb
  | rearm =>
    rcases requireInit_next h with ⟨h0, rfl⟩ | ⟨h0, h⟩
    · exact .notInit rfl h0
    · cases h; exact .rearm h0
  | rxget =>
    rcases requireInit_next h with ⟨h0, rfl⟩ | ⟨h0, h⟩
    · exact .notInit rfl h0
    · split at h
      · cases h
      · next hg => cases h; exact .rxgetEmpty h0 (get_none hg)
      · next b r hg =>
        obtain ⟨h1, h2, h3, rfl⟩ := get_next hg
        cases h; exact .rxget h0 h1 h2 h3
  | rderr =>
    rcases requireInit_next h with ⟨h0, rfl⟩ | ⟨h0, h⟩
    · exact .notInit rfl h0
    · cases h; exact .rderr h0
  | rbInit r d => cases h; exact .rbInit
  | rbPut r d =>
    simp only [exec, execRbPut] at h
    split at h
    · cases h
    · next hp => cases h; exact .rbFull (put_none hp)
    · next x hp =>
      obtain ⟨h1, h2, rfl⟩ := put_next hp
      cases h; exact .rbPut h1 h2
  | rbGet r d =>
    simp only [exec, execRbGet] at h
    split at h
    · cases h
    · next hg => cases h; exact .rbEmpty (get_none hg)
    · next b x hg =>
      obtain ⟨h1, h2, h3, rfl⟩ := get_next hg
      cases h; exact .rbGet h1 h2 h3
  | dispRx =>
    simp only [exec, execDispRx] at h
    split at h
    · next he => cases h; exact .rxError he
    · next he => exact acceptByte_did (by simpa using he) (finish_next h)
  | dispTx =>
    rcases txComplete_cases (finish_next h) with ⟨hc, rfl⟩ | ⟨b, h1, h2, h3, h4, rfl⟩
    · exact .txIdle hc
    · exact .txSend h1 h2 h3 h4
  | dispNone iv => cases h; exact .dispNone

theorem execDispRx_of {s : State} {d : Bool} {u : State} (he : s.periph.rxe = false)
    (h : rxHandler s.periph.rxb (emit .rxrd s) = .ok (d, u)) :
    exec .dispRx s = .next (if d = true then signalLine u else u) := by
  simp only [exec, execDispRx, he, Bool.false_eq_true, if_false, acceptByte, h]; rfl

theorem exec_txb {i : Instr} {d : Byte} {f : Bool} {s : State} (hi : IsTxbOf i d f) (h : s.udc.inited = true) :
    exec i s = txbWith f d s := by
  rcases hi with ⟨rfl, rfl⟩ | ⟨rfl, rfl⟩ <;> exact requireInit_true h _

theorem exec_init {i : Instr} {baud : BitVec 4} {m : TxMode} {pol : RxPolicy} (hi : IsInitOf i baud m pol)
    (s : State) : exec i s = initWith baud m pol s := by
  rcases hi with ⟨rfl, rfl⟩ | ⟨rfl, rfl⟩ <;> rfl

theorem exec_notInit {i : Instr} {s : State} (hi : needsInit i = true) (h : s.udc.inited = false) :
    exec i s = .next (respond .notInit 0 s) := by
  cases i <;> first | exact requireInit_false h _ | exact absurd hi Bool.false_ne_true

/-- An operation answers a next state exactly where one of the cases of `Did` holds, and then that one. -/
theorem exec_of_did {i : Instr} {s t : State} (h : Did s i t) : exec i s = .next t := by
  cases h with
  | notInit hi h => exact exec_notInit hi h
  | nop => rfl
  | init hi hb => rw [exec_init hi, initWith, if_pos hb]; rfl
  | badRate hi hb => rw [exec_init hi, initWith, if_neg hb]
  | txbFull hi h hm hc => rw [exec_txb hi h]; simp [txbWith, hm, txbIntr, RingBuf.put_full _ hc, hold]
  | txbKick hi h hm hc hw hk =>
    rw [exec_txb hi h]; simp [txbWith, hm, txbIntr, RingBuf.put_room _ hc hw, hk, putBuf]
  | txbPut hi h hm hc hw hk =>
    rw [exec_txb hi h]; simp [txbWith, hm, txbIntr, RingBuf.put_room _ hc hw, hk, putBuf]
  | txbWait hi h hm hs =>
    have hn : s.periph.slot.isNone = false := by simpa [Option.isSome_iff_ne_none] using hs
    rw [exec_txb hi h]; simp [txbWith, hm, txbPolled, txReady, hn, hold]
  | txbDirect hi h hm hs => rw [exec_txb hi h]; simp [txbWith, hm, txbPolled, txReady, hs]
  | getev h => exact requireInit_true h _
  | clrev h => exact requireInit_true h _
  | getlnNone h hl => exact (requireInit_true h _).trans (by simp [hl])
  | getlnPending h hl => exact (requireInit_true h _).trans (by simp [hl])
  | lbrdOut h hk => exact (requireInit_true h _).trans (by simp [hk])
  | lbrd h hk hb => exact (requireInit_true h _).trans (by simp [Nat.not_le.2 hk, cellRead_of_read hk hb])
  | rearm h => exact requireInit_true h _
  | rxgetEmpty h hc => exact (requireInit_true h _).trans (by simp [RingBuf.get_empty hc])
  | rxget h hc hr hb => exact (requireInit_true h _).trans (by simp [RingBuf.get_byte hc hr hb, getBuf])
  | rderr h => exact requireInit_true h _
  | rbInit => rfl
  | rbFull hc => simp [exec, execRbPut, RingBuf.put_full _ hc]
  | rbPut hc hw => simp [exec, execRbPut, RingBuf.put_room _ hc hw, putBuf]
  | rbEmpty hc => simp [exec, execRbGet, RingBuf.get_empty hc]
  | rbGet hc hr hb => simp [exec, execRbGet, RingBuf.get_byte hc hr hb, getBuf]
  | rxError he => simp [exec, execDispRx, he]
  | rxLf he hp hb => exact execDispRx_of he ((rxHandler_line (s := emit .rxrd s) hp).trans (hb ▸ rxLine_lf _))
  | rxRejected he hp hb hr hc =>
    exact execDispRx_of he ((rxHandler_line (s := emit .rxrd s) hp).trans
      ((rxLine_rejected (s := emit .rxrd s) hb hr).trans (by rw [if_neg hc])))
  | rxResync he hp hr hc =>
    have hb : s.periph.rxb ≠ charLF := by rw [hc]; decide
    exact execDispRx_of he ((rxHandler_line (s := emit .rxrd s) hp).trans
      ((rxLine_rejected (s := emit .rxrd s) hb hr).trans (by rw [if_pos hc])))
  | rxComplete he hp hr hc hw =>
    exact execDispRx_of he (d := true) ((rxHandler_line (s := emit .rxrd s) hp).trans
      (hc ▸ rxLine_complete (s := emit .rxrd s) hr hw))
  | rxStore he hp hr hb hc hw =>
    exact execDispRx_of he (d := false) ((rxHandler_line (s := emit .rxrd s) hp).trans
      (rxLine_store (s := emit .rxrd s) hb hc hr hw))
  | rxDropped he hp hf hc =>
    exact execDispRx_of he ((rxHandler_ring (s := emit .rxrd s) hp).trans
      ((rxRing_full (s := emit .rxrd s) _ hf).trans (by rw [decide_eq_false hc])))
  | rxDroppedCr he hp hf hc =>
    exact execDispRx_of he (d := true)
      ((rxHandler_ring (s := emit .rxrd s) hp).trans
        ((rxRing_full (s := emit .rxrd s) _ hf).trans (by rw [decide_eq_true hc])))
  | rxQueued he hp hf hw hc =>
    exact execDispRx_of he ((rxHandler_ring (s := emit .rxrd s) hp).trans
      ((rxRing_room (s := emit .rxrd s) _ hf hw).trans (by rw [decide_eq_false hc])))
  | rxQueuedCr he hp hf hw hc =>
    exact execDispRx_of he (d := true)
      ((rxHandler_ring (s := emit .rxrd s) hp).trans
        ((rxRing_room (s := emit .rxrd s) _ hf hw).trans (by rw [decide_eq_true hc]; rfl)))
  | txIdle hc => simp [exec, execDispTx, txComplete, RingBuf.get_empty hc, finish]
  | txSend hc hr hb hs =>
    simp [exec, execDispTx, txComplete, RingBuf.get_byte hc hr hb, emitTxwr, txReady, hs, Except.map, finish, getBuf]
  | dispNone => rfl

/-! ### One step -/

/-- Every next state a step can answer, with the schedule's head already taken off in `s`. -/
inductive AgentDid (s : State) : Event → State → Prop
  | noProgram (h : s.host.prog = []) : AgentDid s .host s
  | illegalWord {w ws e} (h : s.host.prog = w :: ws) (hd : decodeCommand w = .error e) :
      AgentDid s .host (respond .illegal 0 s)
  | command {w ws i t} (h : s.host.prog = w :: ws) (hd : decodeCommand w = .ok i) (hx : Did s i t) : AgentDid s .host t
  | noInterrupt (h : dispatchEnabled s.periph = false) : AgentDid s .disp s
  | receive {t} (h : s.periph.rxifg = true) (h' : s.periph.rxie = true) (hx : Did s .dispRx t) : AgentDid s .disp t
  | transmit {t} (h : (s.periph.rxifg && s.periph.rxie) = false) (hi : s.periph.txifg = true)
      (he : s.periph.txie = true) (hx : Did { s with periph := { s.periph with txifg := false } } .dispTx t) :
      AgentDid s .disp t
  | txdoneIdle (h : s.periph.slot = none) : AgentDid s .txdone s
  | txdone {b} (h : s.periph.slot = some b) : AgentDid s .txdone { s with
      periph := { s.periph with sink := s.periph.sink ++ [b], slot := none, txifg := true } }
  | rxin {b e} : AgentDid s (.rxin b e) { s with periph := periphRxin b e s.periph }
  | cause {iv t} (hx : Did s (decodeCause iv) t) : AgentDid s (.cause iv) t
  | ringOp {r w i t} (hd : decodeRing r w = .ok i) (hx : Did s i t) : AgentDid s (.ring r w) t
  | ringIllegal {r w e} (hd : decodeRing r w = .error e) : AgentDid s (.ring r w) (answerRing r .illegal 0 s)
  | busWrite {a op w} : AgentDid s (.bus a op) (issueCommand w s)
  | busRead {a op w} : AgentDid s (.bus a op) (deliverRead w s)

theorem decodeCause_rx : decodeCause causeRx = .dispRx := rfl

theorem decodeCause_tx : decodeCause causeTx = .dispTx := rfl

theorem outsidePort_ne_next {off : Nat} {t : State} : outsidePort off ≠ .next t := by
  unfold outsidePort; split <;> exact fun h => by cases h

theorem portAccessAt_next {off : Nat} {op : BusOp} {s t : State} (h : portAccessAt off op s = .next t) :
    (∃ w, t = issueCommand w s) ∨ ∃ w, t = deliverRead w s := by
  cases op with
  | read8 => exact absurd h outsidePort_ne_next
  | write8 b => exact absurd h outsidePort_ne_next
  | write16 lo hi =>
    simp only [portAccessAt] at h
    split at h
    · cases h; exact .inl ⟨_, rfl⟩
    · exact absurd h outsidePort_ne_next
  | read16 =>
    simp only [portAccessAt] at h
    split at h
    · cases h; exact .inr ⟨_, rfl⟩
    · split at h
      · cases h; exact .inr ⟨_, rfl⟩
      · exact absurd h outsidePort_ne_next

theorem busAccess_next {a : Nat} {op : BusOp} {s t : State} (h : busAccess a op s = .next t) :
    (∃ w, t = issueCommand w s) ∨ ∃ w, t = deliverRead w s := by
  unfold busAccess at h
  split at h
  · cases h
  · split at h
    · cases h
    · split at h
      · cases h
      · exact portAccessAt_next h

theorem agentStep_did {e : Event} {s t : State} (h : agentStep e s = .next t) : AgentDid s e t := by
  cases e with
  | host =>
    simp only [agentStep, hostStep] at h
    split at h
    · next hp => cases h; exact .noProgram hp
    · next w ws hp =>
      split at h
      · next i hd => exact .command hp hd (exec_did h)
      · next hd => cases h; exact .illegalWord hp hd
  | disp =>
    simp only [agentStep, dispStep, enterInterrupt] at h
    cases he : dispatchEnabled s.periph with
    | false => rw [he] at h; cases h; exact .noInterrupt he
    | true =>
      rw [he] at h
      simp only [if_true, returnFromInterrupt, deliverCause] at h
      cases hr : s.periph.rxifg && s.periph.rxie with
      | true =>
        rw [hr] at h
        simp only [Bool.and_eq_true] at hr
        exact .receive hr.1 hr.2 (exec_did h)
      | false =>
        rw [hr] at h
        simp only [dispatchEnabled, hr, Bool.false_or, Bool.and_eq_true] at he
        exact .transmit hr he.1 he.2 (exec_did h)
  | txdone =>
    simp only [agentStep, periphTxdone] at h
    split at h
    · next b hs => cases h; exact .txdone hs
    · next hs => cases h; exact .txdoneIdle hs
  | rxin b e => cases h; exact .rxin
  | cause iv => exact .cause (exec_did h)
  | ring r w =>
    simp only [agentStep, ringStep] at h
    split at h
    · next i hd => exact .ringOp hd (exec_did h)
    · next hd => cases h; exact .ringIllegal hd
  | bus a op =>
    rcases busAccess_next h with ⟨w, rfl⟩ | ⟨w, rfl⟩
    · exact .busWrite
    · exact .busRead

/-- A step that answers a next state: the parameters are legal, and either no agent moved or the scheduled one did. -/
theorem step_did {s t : State} (h : step s = .next t) :
    LegalConfig s.cfg ∧ ((s.sched = [] ∧ t = s) ∨
      ∃ e es, s.sched = e :: es ∧ AgentDid { s with sched := es } e t) := by
  unfold step at h
  split at h
  · cases h
  · next hc =>
    refine ⟨configCheck_none.1 hc, ?_⟩
    split at h
    · next hs => cases h; exact .inl ⟨hs, rfl⟩
    · next e es hs => exact .inr ⟨e, es, hs, agentStep_did h⟩

/-- A step of a machine with legal parameters is the scheduled agent's. -/
theorem step_of_sched {s : State} (hl : LegalConfig s.cfg) {e : Event} {es : List Event} (hs : s.sched = e :: es) :
    step s = agentStep e { s with sched := es } := by
  unfold step
  rw [configCheck_none.2 hl]
  simp [hs]

/-- Everything a step that answers a next state can be: one that runs no operation and leaves the UDC, the trace and the
parameters as they were, or the one operation `nextInstr` names, run from the same UDC, trace, parameters and host. -/
theorem step_runs {s t : State} (h : step s = .next t) :
    (nextInstr s = none ∧ t.udc = s.udc ∧ t.trace = s.trace ∧ t.cfg = s.cfg) ∨
    ∃ i u, nextInstr s = some i ∧ Did u i t ∧ u.udc = s.udc ∧ u.trace = s.trace ∧ u.cfg = s.cfg ∧ u.host = s.host ∧
      (u.periph = s.periph ∨ (i = .dispTx ∧ u.periph = { s.periph with txifg := false })) := by
  obtain ⟨-, ⟨hs, rfl⟩ | ⟨e, es, hs, ha⟩⟩ := step_did h
  · exact .inl ⟨by simp [nextInstr, hs], rfl, rfl, rfl⟩
  · cases ha with
    | noProgram hp => exact .inl ⟨by simp [nextInstr, hs, show s.host.prog = [] from hp], rfl, rfl, rfl⟩
    | @illegalWord w ws e hp hd =>
      exact .inl ⟨by simp [nextInstr, hs, show s.host.prog = w :: ws from hp, hd, Except.toOption], rfl, rfl, rfl⟩
    | @command w ws i t hp hd hx =>
      exact .inr ⟨i, _, by simp [nextInstr, hs, show s.host.prog = w :: ws from hp, hd, Except.toOption],
        hx, rfl, rfl, rfl, rfl, .inl rfl⟩
    | noInterrupt hd =>
      exact .inl ⟨by simp [nextInstr, hs, enterInterrupt, show dispatchEnabled s.periph = false from hd], rfl, rfl, rfl⟩
    | receive hr hr' hx =>
      have h1 : s.periph.rxifg = true := hr
      have h2 : s.periph.rxie = true := hr'
      exact .inr ⟨.dispRx, _,
        by simp [nextInstr, hs, enterInterrupt, dispatchEnabled, deliverCause, h1, h2, decodeCause_rx],
        hx, rfl, rfl, rfl, rfl, .inl rfl⟩
    | transmit hn hi he hx =>
      have h1 : (s.periph.rxifg && s.periph.rxie) = false := hn
      have h2 : s.periph.txifg = true := hi
      have h3 : s.periph.txie = true := he
      exact .inr ⟨.dispTx, _,
        by simp [nextInstr, hs, enterInterrupt, dispatchEnabled, deliverCause, h1, h2, h3, decodeCause_tx],
        hx, rfl, rfl, rfl, rfl, .inr ⟨rfl, rfl⟩⟩
    | txdoneIdle => exact .inl ⟨by simp [nextInstr, hs], rfl, rfl, rfl⟩
    | txdone => exact .inl ⟨by simp [nextInstr, hs], rfl, rfl, rfl⟩
    | rxin => exact .inl ⟨by simp [nextInstr, hs], rfl, rfl, rfl⟩
    | cause hx => exact .inr ⟨_, _, by simp [nextInstr, hs], hx, rfl, rfl, rfl, rfl, .inl rfl⟩
    | ringOp hd hx => exact .inr ⟨_, _, by simp [nextInstr, hs, hd, Except.toOption], hx, rfl, rfl, rfl, rfl, .inl rfl⟩
    | ringIllegal hd => exact .inl ⟨by simp [nextInstr, hs, hd, Except.toOption], rfl, rfl, rfl⟩
    | busWrite => exact .inl ⟨by simp [nextInstr, hs], rfl, rfl, rfl⟩
    | busRead => exact .inl ⟨by simp [nextInstr, hs], rfl, rfl, rfl⟩

theorem step_idle {s : State} (hl : LegalConfig s.cfg) (hs : s.sched = []) : step s = .next s := by
  unfold step
  rw [configCheck_none.2 hl]
  simp [hs]

/-- No operation changes the schedule. -/
theorem Did.sched_eq {i : Instr} {s t : State} (h : Did s i t) : t.sched = s.sched := by
  cases h <;> simp [initialised]

theorem AgentDid.sched_eq {e : Event} {s t : State} (h : AgentDid s e t) : t.sched = s.sched := by
  cases h with
  | command _ _ hx => exact hx.sched_eq
  | receive _ _ hx => exact hx.sched_eq
  | transmit _ _ _ hx => exact (hx.sched_eq : _)
  | cause hx => exact hx.sched_eq
  | ringOp _ hx => exact hx.sched_eq
  | _ => rfl

/-- A step takes the event it ran off the schedule, and nothing else. -/
theorem step_sched {s t : State} {e : Event} {es : List Event} (h : step s = .next t) (hs : s.sched = e :: es) :
    t.sched = es := by
  obtain ⟨_, ⟨h', _⟩ | ⟨e', es', h', ha⟩⟩ := step_did h
  · rw [hs] at h'; cases h'
  · rw [hs] at h'; cases h'; exact ha.sched_eq

/-! ### The line a host reads -/

/-- The answers to reads of bytes without a 0x00 and then of a 0x00 give those bytes as the line (R84). -/
theorem lineOfReads_line {bs : List Byte} (h : 0x00#8 ∉ bs) :
    lineOfReads (bs.map (fun b => (⟨.ok, BitVec.ofNat 16 b.toNat⟩ : Response)) ++ [⟨.ok, 0⟩]) = some bs := by
  induction bs with
  | nil => rfl
  | cons b bs ih =>
    have hb : b ≠ 0x00#8 := fun e => h (by simp [e])
    have e : (BitVec.ofNat 16 b.toNat).extractLsb' 0 8 = b := by apply BitVec.eq_of_toNat_eq; simp; omega
    simp only [List.map_cons, List.cons_append, lineOfReads, e, if_pos, if_neg hb, ih (fun x => h (by simp [x])), Option.map]

/-! ### Runs -/

theorem runEvents_nil (s : State) : runEvents [] s = .next { s with sched := [] } := rfl

/-- A run is its first step and then the run of the rest. -/
theorem runEvents_cons {e : Event} {es : List Event} {s t : State} :
    runEvents (e :: es) s = .next t ↔ ∃ u, step { s with sched := e :: es } = .next u ∧ runEvents es u = .next t := by
  have key : ∀ u : State, step { s with sched := e :: es } = .next u →
      (runEvents (e :: es) s = .next t ↔ runEvents es u = .next t) := by
    intro u hu
    have hs : ({ u with sched := es } : State) = u := by
      have := step_sched hu rfl
      subst this; rfl
    have h1 : runEvents (e :: es) s = Host.Core.run core es.length u := by
      unfold runEvents
      simp only [List.length_cons, Host.Core.run]
      have hu' : core.step { s with sched := e :: es } = .next u := hu
      rw [hu']
    rw [h1, runEvents, hs]
  constructor
  · intro h
    cases hu : step { s with sched := e :: es } with
    | next u => exact ⟨u, rfl, (key u hu).1 h⟩
    | fault f =>
      have hu' : core.step { s with sched := e :: es } = .fault f := hu
      simp only [runEvents, List.length_cons, Host.Core.run] at h
      rw [hu'] at h; cases h
    | refused r =>
      have hu' : core.step { s with sched := e :: es } = .refused r := hu
      simp only [runEvents, List.length_cons, Host.Core.run] at h
      rw [hu'] at h; cases h
  · rintro ⟨u, hu, h⟩; exact (key u hu).2 h

/-- What no event of a kind breaks, and what does not look at the schedule, holds at the end of every run of such events. -/
theorem runEvents_preserves {P : State → Prop} {Q : Event → Prop} (hsched : ∀ s es, P s → P { s with sched := es })
    (hstep : ∀ s t e es, Q e → s.sched = e :: es → P s → step s = .next t → P t) :
    ∀ (evs : List Event) (s t : State), (∀ e ∈ evs, Q e) → P s → runEvents evs s = .next t → P t
  | [], s, t, _, hs, h => by
    rw [runEvents_nil] at h
    cases h
    exact hsched s [] hs
  | e :: es, s, t, hq, hs, h => by
    obtain ⟨u, hu, hr⟩ := runEvents_cons.1 h
    have hpu := hstep _ u e es (hq e (by simp)) rfl (hsched s (e :: es) hs) hu
    exact runEvents_preserves hsched hstep es u t (fun x hx => hq x (by simp [hx])) hpu hr

end Sys2Proof.Machine
end

