-- ==== Sys2Proof/Laws/PerInstr.lean ====
section
/-! SUPPORT. Statements about every operation as syntax: the word of an operation fits its row of spec/opcode_table.json. -/

namespace Sys2Proof.Laws

open Sys2Proof

/-- The mask and the match of an operation's row, and the port the row's words stand on; DISP.NONE's row fixes no bit
(spec/opcode_table.json, R72, R77, R78). -/
def TableRow.row : Instr → Nat × Nat
  | .nop => (0xFFFF, 0x0000)
  | .initLine _ _ => (0xF0FB, 0x1000)
  | .initRing _ _ => (0xF0FB, 0x1001)
  | .initCustom _ _ => (0xF0FB, 0x1002)
  | .txb _ => (0xFF00, 0x2000)
  | .txbF _ => (0xFF00, 0x2100)
  | .getev => (0xFFFF, 0x3000)
  | .clrev => (0xFFFF, 0x4000)
  | .getln => (0xFFFF, 0x5000)
  | .lbrd _ => (0xFF00, 0x6000)
  | .rearm => (0xFFFF, 0x7000)
  | .rxget => (0xFFFF, 0x8000)
  | .rderr => (0xFFFF, 0x9000)
  | .rbInit _ _ => (0x300, 0x000)
  | .rbPut _ _ => (0x300, 0x100)
  | .rbGet _ _ => (0x300, 0x200)
  | .dispRx => (0xFFFF, 0x0002)
  | .dispTx => (0xFFFF, 0x0004)
  | .dispNone _ => (0x0000, 0x0000)

/-- The bits of a word on its port as a number, bit 0 the least significant (R70). -/
def TableRow.bits : PortWord → Nat
  | .command w => w.toNat
  | .cause iv => iv.toNat
  | .ring _ w => w.toNat

/-- The word of an operation matches its row under the row's mask. -/
def TableRow.Statement (i : Instr) : Prop :=
  TableRow.bits (encode i) &&& (TableRow.row i).1 = (TableRow.row i).2

theorem TableRow.nop : TableRow.Statement .nop := by unfold TableRow.Statement; decide

theorem TableRow.initLine (baud : BitVec 4) (t : TxMode) : TableRow.Statement (.initLine baud t) := by
  unfold TableRow.Statement; cases t <;> revert baud <;> decide

theorem TableRow.initRing (baud : BitVec 4) (t : TxMode) : TableRow.Statement (.initRing baud t) := by
  unfold TableRow.Statement; cases t <;> revert baud <;> decide

theorem TableRow.initCustom (baud : BitVec 4) (t : TxMode) : TableRow.Statement (.initCustom baud t) := by
  unfold TableRow.Statement; cases t <;> revert baud <;> decide

theorem TableRow.txb (d : Byte) : TableRow.Statement (.txb d) := by unfold TableRow.Statement; revert d; decide

theorem TableRow.txbF (d : Byte) : TableRow.Statement (.txbF d) := by unfold TableRow.Statement; revert d; decide

theorem TableRow.getev : TableRow.Statement .getev := by unfold TableRow.Statement; decide

theorem TableRow.clrev : TableRow.Statement .clrev := by unfold TableRow.Statement; decide

theorem TableRow.getln : TableRow.Statement .getln := by unfold TableRow.Statement; decide

theorem TableRow.lbrd (i : Byte) : TableRow.Statement (.lbrd i) := by unfold TableRow.Statement; revert i; decide

theorem TableRow.rearm : TableRow.Statement .rearm := by unfold TableRow.Statement; decide

theorem TableRow.rxget : TableRow.Statement .rxget := by unfold TableRow.Statement; decide

theorem TableRow.rderr : TableRow.Statement .rderr := by unfold TableRow.Statement; decide

theorem TableRow.rbInit (r : RingId) (d : Byte) : TableRow.Statement (.rbInit r d) := by
  unfold TableRow.Statement; cases r <;> revert d <;> decide

theorem TableRow.rbPut (r : RingId) (d : Byte) : TableRow.Statement (.rbPut r d) := by
  unfold TableRow.Statement; cases r <;> revert d <;> decide

theorem TableRow.rbGet (r : RingId) (d : Byte) : TableRow.Statement (.rbGet r d) := by
  unfold TableRow.Statement; cases r <;> revert d <;> decide

theorem TableRow.dispRx : TableRow.Statement .dispRx := by unfold TableRow.Statement; decide

theorem TableRow.dispTx : TableRow.Statement .dispTx := by unfold TableRow.Statement; decide

theorem TableRow.dispNone (iv : Word) : TableRow.Statement (.dispNone iv) := by
  unfold TableRow.Statement; exact Nat.and_zero _

end Sys2Proof.Laws
end

