-- ==== Sys2Proof/Tests/Slice0.lean ====
section
/-! SUPPORT. The model's own tests: decoding of words written out from the spec's encodings (R72, R77, R78, R85), one-step
tests from the spec's vectors (spec/95_test_vectors.md), and for each obligation with hypotheses a state that meets them. -/

namespace Sys2Proof.Tests

open Sys2Proof Sys2Proof.Machine

/-! ### Start states and ways to look at an outcome -/

/-- S0 of the vectors: after INIT baud=0, tx=INTR, rx=LINE from power-on. -/
def s0 : State :=
  { State.reset with
    udc := { Udc.reset with inited := true, txMode := .intr, lbEn := true }
    periph := { Periph.reset with rxie := true, txie := true }
    trace := [.baudsel 0, .ie true true] }

/-- S0R: as S0 with the ring policy. -/
def s0r : State := { s0 with udc := { s0.udc with rxPol := .ring } }

/-- S0P: as S0 in POLLED mode. -/
def s0p : State :=
  { s0 with
    udc := { s0.udc with txMode := .polled }
    periph := { s0.periph with txie := false }
    trace := [.baudsel 0, .ie true false] }

/-- A state with another transmit side. -/
def withTx (rd wr cnt : Word) (cells : Memory) (busy : Bool) (s : State) : State :=
  { s with udc := { s.udc with txr := ⟨rd, wr, cnt, cells⟩, txBusy := busy } }

/-- A state with another receive ring. -/
def withRx (rd wr cnt : Word) (cells : Memory) (ovr : Word) (s : State) : State :=
  { s with udc := { s.udc with rxr := ⟨rd, wr, cnt, cells⟩, ovr := ovr } }

/-- A state with another line assembler: LB_EN, LB_P, OVR and LBS, as the vectors write it. -/
def withLine (en : Bool) (p : Byte) (ovr : Word) (cells : Memory) (s : State) : State :=
  { s with udc := { s.udc with lbEn := en, lbP := p, ovr := ovr, lbs := cells } }

/-- A state with a byte in the receive latch. -/
def withLatch (b : Byte) (e : Bool) (s : State) : State :=
  { s with periph := { s.periph with rxifg := true, rxb := b, rxe := e } }

/-- A state with another slot and transmit flag. -/
def withSlot (slot : Option Byte) (txifg : Bool) (s : State) : State :=
  { s with periph := { s.periph with slot := slot, txifg := txifg } }

/-- A state whose next step is the given event. -/
def next (e : Event) (s : State) : State := { s with sched := [e] }

/-- A state whose next step is the host's, with the given program. -/
def hosts (ws : List Word) (s : State) : State := { next .host s with host := ⟨ws, [], []⟩ }

/-- The outcome is a next state of which p holds. -/
def nextIs (o : Host.Outcome State Fault Refusal) (p : State → Bool) : Bool :=
  match o with
  | .next t => p t
  | .fault _ => false
  | .refused _ => false

def faultIs (o : Host.Outcome State Fault Refusal) (f : Fault) : Bool :=
  match o with
  | .next _ => false
  | .fault g => f == g
  | .refused _ => false

def refusedIs (o : Host.Outcome State Fault Refusal) (r : Refusal) : Bool :=
  match o with
  | .next _ => false
  | .fault _ => false
  | .refused q => r == q

/-- The last response is this one. -/
def answers (t : State) (st : Status) (d : Word) : Bool := t.host.resps.getLast? == some ⟨st, d⟩

/-- Cursors and count of a ring. -/
def cursors (r : RingBuf) : Word × Word × Word := (r.rd, r.wr, r.cnt)

theorem next_of {o : Host.Outcome State Fault Refusal} {p : State → Bool} (h : nextIs o p = true) :
    ∃ t, o = .next t ∧ p t = true := by
  cases o with
  | next t => exact ⟨t, rfl, h⟩
  | fault f => cases h
  | refused r => cases h

theorem fault_of {o : Host.Outcome State Fault Refusal} {f : Fault} (h : faultIs o f = true) : o = .fault f := by
  cases o with
  | next t => cases h
  | fault g => rw [eq_of_beq h]
  | refused r => cases h

/-! ### Decoding: words written out bit by bit from R72, R77 and R78 -/

theorem test_decode_nop : decodeCommand 0b0000000000000000#16 = .ok .nop := by decide
theorem test_decode_initLine : decodeCommand 0b0001001000000100#16 = .ok (.initLine 2#4 .intr) := by decide
theorem test_decode_initRing : decodeCommand 0b0001111100000001#16 = .ok (.initRing 15#4 .polled) := by decide
theorem test_decode_initCustom : decodeCommand 0b0001001100000110#16 = .ok (.initCustom 3#4 .intr) := by decide
theorem test_decode_txb : decodeCommand 0b0010000001101001#16 = .ok (.txb 0x69#8) := by decide
theorem test_decode_txbF : decodeCommand 0b0010000101001000#16 = .ok (.txbF 0x48#8) := by decide
theorem test_decode_getev : decodeCommand 0b0011000000000000#16 = .ok .getev := by decide
theorem test_decode_clrev : decodeCommand 0b0100000000000000#16 = .ok .clrev := by decide
theorem test_decode_getln : decodeCommand 0b0101000000000000#16 = .ok .getln := by decide
theorem test_decode_lbrd : decodeCommand 0b0110000011111111#16 = .ok (.lbrd 0xFF#8) := by decide
theorem test_decode_rearm : decodeCommand 0b0111000000000000#16 = .ok .rearm := by decide
theorem test_decode_rxget : decodeCommand 0b1000000000000000#16 = .ok .rxget := by decide
theorem test_decode_rderr : decodeCommand 0b1001000000000000#16 = .ok .rderr := by decide
theorem test_decode_rbInit : decodeRing .rxr 0b0010101010#10 = .ok (.rbInit .rxr 0xAA#8) := by decide
theorem test_decode_rbPut : decodeRing .txr 0b0101000001#10 = .ok (.rbPut .txr 0x41#8) := by decide
theorem test_decode_rbGet : decodeRing .rxr 0b1000000000#10 = .ok (.rbGet .rxr 0x00#8) := by decide
theorem test_decode_dispRx : decodeCause 0b0000000000000010#16 = .dispRx := by decide
theorem test_decode_dispTx : decodeCause 0b0000000000000100#16 = .dispTx := by decide
theorem test_decode_dispNone : decodeCause 0b0000000000000000#16 = .dispNone 0#16 := by decide

/-- The illegal words of the vectors, each by its reason (R79, TX14, RL16, CT3-CT9, CT13, RB8). -/
theorem test_decode_illegal :
    decodeCommand 0x2200#16 = .error .reservedBits ∧ decodeCommand 0x6100#16 = .error .reservedBits ∧
    decodeCommand 0x3001#16 = .error .reservedBits ∧ decodeCommand 0x0001#16 = .error .reservedBits ∧
    decodeCommand 0x1084#16 = .error .reservedBits ∧ decodeCommand 0x1007#16 = .error .illegalPolicy ∧
    decodeCommand 0xA000#16 = .error .reservedOpcode ∧ decodeCommand 0xF123#16 = .error .reservedOpcode ∧
    decodeRing .txr 0b1100000000#10 = .error .reservedRingOp := by decide

/-- The one check of WellFormed refuses a DISP.NONE that carries a recognised cause code. -/
theorem test_illFormed :
    (Instr.dispNone 0x0002#16).wellFormed = false ∧ (Instr.dispNone 0x0004#16).wellFormed = false ∧
    (Instr.dispNone 0x0003#16).wellFormed = true := by decide

/-- The host's decode question, on a command, a ring word and a cause (log 12). -/
theorem test_decodeTableWord :
    decodeTableWord 16 0x1004 = some (.initLine 0#4 .intr) ∧ decodeTableWord 16 0x0002 = some .dispRx ∧
    decodeTableWord 16 0x0004 = some .dispTx ∧ decodeTableWord 10 0x141 = some (.rbPut .txr 0x41#8) ∧
    decodeTableWord 16 0x0141 = some (.rbPut .txr 0x41#8) ∧ decodeTableWord 16 0xFFFE = some (.dispNone 0xFFFE#16) := by
  decide

/-- SEND "Hi" is 0x2148, 0x2069, and PRINT stops before the first 0x00 (R82, R83, P1). -/
theorem test_send :
    commandWords (sendOps [0x48#8, 0x69#8]) = [0x2148#16, 0x2069#16] ∧
    commandWords (printOps [0x48#8, 0x00#8, 0x69#8]) = [0x2148#16] := by decide

/-- SEND "Hi" has the value 2 once both its TXBs have completed, a SEND of nothing has 0 at once, and PRINT of "H", 0x00, "i"
has 1 (R82, R83). -/
theorem test_send_value :
    sendValue [0x48#8, 0x69#8] [⟨.ok, 0⟩] = none ∧ sendValue [0x48#8, 0x69#8] [⟨.ok, 0⟩, ⟨.ok, 0⟩] = some 2 ∧
    sendValue [] [] = some 0 ∧ printValue [0x48#8, 0x00#8, 0x69#8] [⟨.ok, 0⟩] = some 1 := by decide

/-- The words and values of get_completed_line() with the line "AB" pending and with none, and the value of get_event()
(R84). -/
theorem test_call_values :
    commandWords (getCompletedLineOps 3) = [0x5000#16, 0x6000#16, 0x6001#16, 0x6002#16] ∧
    commandWords readAndClearOps = [0x3000#16, 0x4000#16] ∧
    getCompletedLineValue ⟨.ok, 1⟩ [⟨.ok, 0x41⟩, ⟨.ok, 0x42⟩, ⟨.ok, 0⟩] = some (.line [0x41#8, 0x42#8]) ∧
    getCompletedLineValue ⟨.ok, 1⟩ [⟨.ok, 0x41⟩] = none ∧ getCompletedLineValue ⟨.none, 0⟩ [] = some .noLine ∧
    getEventValue ⟨.ok, 0x0001⟩ = 0x01#8 := by decide

/-- The spec's command syntax (R81). -/
theorem test_render :
    (Instr.initLine 0#4 .intr).render = "INIT  baud=0, tx=INTR, rx=LINE" ∧ (Instr.txbF 72#8).render = "TXB.F 72" := by
  decide

/-! ### The very first step after reset (log 2) -/

theorem test_first_command :
    nextIs (step (State.reset.withFetchWord 16 0x1204)) (fun t =>
      t.udc.inited && t.udc.baud == 2#4 && answers t .ok 0 && t.trace == [.baudsel 2, .ie true true]) = true := by decide

theorem test_first_ring_word :
    nextIs (step (State.reset.withFetchWord 16 0x0141)) (fun t => t.ringAnswers == [⟨.txr, .ok, 0⟩]) = true := by decide

/-! ### One step of each operation, expected results from spec/95_test_vectors.md -/

/-- CT1. -/
theorem test_nop : nextIs (exec .nop State.reset) (answers · .ok 0) = true := by decide

/-- CT11: the registers INIT resets. -/
theorem test_initRing_resets :
    nextIs (exec (.initRing 0#4 .intr) (withLine false 0 5 [(0, 0x41#8)] (withTx 1 3 2 [(1, 0x62#8)] true s0))) (fun t =>
      cursors t.udc.txr == (0, 0, 0) && !t.udc.txBusy && t.udc.lbEn && t.udc.ovr == 0 && t.udc.rxPol == .ring &&
      t.udc.lbs == [(0, 0x41#8)] && t.udc.txr.cells == [(1, 0x62#8)]) = true := by decide

/-- CT8: an unsupported rate. -/
theorem test_initLine_badarg :
    nextIs (exec (.initLine 15#4 .intr) State.reset) (fun t =>
      answers t .badArg 0 && !t.udc.inited && t.trace == []) = true := by decide

/-- S0P: POLLED mode leaves the transmit interrupt disabled. -/
theorem test_initLine_polled :
    nextIs (exec (.initLine 0#4 .polled) State.reset) (fun t =>
      t.trace == [.baudsel 0, .ie true false] && !t.periph.txie && t.periph.rxie) = true := by decide

/-- CT7, with a rate that is not supported: the refusal comes before BADARG (R193). -/
theorem test_initCustom_refused : refusedIs (exec (.initCustom 15#4 .intr) State.reset) .customHandler = true := by decide

/-- TX1. -/
theorem test_txbF_kicks :
    nextIs (exec (.txbF 0x48#8) s0) (fun t =>
      cursors t.udc.txr == (0, 1, 1) && t.udc.txr.cells == [(0, 0x48#8)] && t.udc.txBusy && t.periph.txifg &&
      t.trace == s0.trace ++ [.kick]) = true := by decide

/-- TX2: a busy engine is not kicked. -/
theorem test_txbF_busy :
    nextIs (exec (.txbF 0x69#8) (withTx 0 1 1 [(0, 0x48#8)] true s0)) (fun t =>
      cursors t.udc.txr == (0, 2, 2) && t.trace == s0.trace) = true := by decide

/-- TX3: without F the byte is stranded. -/
theorem test_txb_stranded :
    nextIs (exec (.txb 0x69#8) s0) (fun t =>
      cursors t.udc.txr == (0, 1, 1) && !t.udc.txBusy && t.trace == s0.trace) = true := by decide

/-- TX6: a full ring holds the command. -/
theorem test_txb_holds :
    nextIs (step (hosts [0x2078#16] (withTx 0 0 4 [(0, 1), (1, 2), (2, 3), (3, 4)] true s0))) (fun t =>
      t.host.prog == [0x2078#16] && t.host.resps == []) = true := by decide

/-- TX12: POLLED mode writes the slot directly. -/
theorem test_txb_polled :
    nextIs (exec (.txb 0x78#8) s0p) (fun t =>
      t.periph.slot == some 0x78#8 && cursors t.udc.txr == (0, 0, 0) && t.trace == s0p.trace ++ [.txwr 0x78]) = true := by
  decide

/-- MB1. -/
theorem test_getev :
    nextIs (exec .getev { s0 with udc := { s0.udc with ev := 0x01#8 } }) (fun t =>
      answers t .ok 0x0001#16 && t.udc.ev == 0x01#8) = true := by decide

/-- CT2. -/
theorem test_getev_notinit : nextIs (exec .getev State.reset) (answers · .notInit 0) = true := by decide

/-- MB2. -/
theorem test_clrev :
    nextIs (exec .clrev { s0 with udc := { s0.udc with ev := 0x03#8 } }) (fun t =>
      answers t .ok 0 && t.udc.ev == 0) = true := by decide

/-- RL17, and P2 step 6. -/
theorem test_getln :
    nextIs (exec .getln s0) (answers · .none 0) = true ∧
    nextIs (exec .getln (withLine false 0 0 [(0, 0x41#8), (1, 0)] s0)) (answers · .ok 0x0001#16) = true := by decide

/-- RL13, RL15. -/
theorem test_lbrd_stops :
    faultIs (exec (.lbrd 0#8) s0) .unwrittenRead = true ∧ nextIs (exec (.lbrd 4#8) s0) (answers · .badArg 0) = true := by
  decide

/-- P2 step 7. -/
theorem test_lbrd : nextIs (exec (.lbrd 1#8) (withLine false 0 0 [(0, 0x41#8), (1, 0x42#8), (2, 0)] s0))
    (answers · .ok 0x0042#16) = true := by decide

/-- RL12. -/
theorem test_rearm :
    nextIs (exec .rearm (withLine true 2 0 [(0, 0x41#8), (1, 0x42#8)] s0)) (fun t =>
      answers t .ok 0 && t.udc.lbEn && t.udc.lbP == 0) = true := by decide

/-- RR8. -/
theorem test_rxget :
    nextIs (exec .rxget (withRx 1 2 1 [(1, 0x42#8)] 0 s0r)) (fun t =>
      answers t .ok 0x0042#16 && cursors t.udc.rxr == (2, 2, 0)) = true := by decide

/-- RL18. -/
theorem test_rxget_empty : nextIs (exec .rxget s0) (answers · .empty 0) = true := by decide

/-- W5. -/
theorem test_rderr : nextIs (exec .rderr (withLine true 0 1 [] s0)) (answers · .ok 0x0001#16) = true := by decide

/-- RB1. -/
theorem test_rbInit :
    nextIs (exec (.rbInit .txr 0) (withTx 2 1 3 [(0, 7), (2, 8), (3, 9)] false s0)) (fun t =>
      cursors t.udc.txr == (0, 0, 0) && t.udc.txr.cells == [(0, 7), (2, 8), (3, 9)]) = true := by decide

/-- RB2: the write cursor wraps. -/
theorem test_rbPut_wraps :
    nextIs (exec (.rbPut .txr 0x41#8) (withTx 3 3 0 [] false s0)) (fun t =>
      cursors t.udc.txr == (3, 0, 1) && t.udc.txr.cells == [(3, 0x41#8)]) = true := by decide

/-- RB5: a full ring. -/
theorem test_rbPut_full :
    nextIs (exec (.rbPut .rxr 0#8) (withRx 1 1 4 [(0, 1), (1, 2), (2, 3), (3, 4)] 0 s0)) (fun t =>
      t.ringAnswers == [⟨.rxr, .full, 0⟩] && cursors t.udc.rxr == (1, 1, 4)) = true := by decide

/-- RB3: the read cursor wraps. -/
theorem test_rbGet_wraps :
    nextIs (exec (.rbGet .txr 0) (withTx 3 0 1 [(3, 0x41#8)] false s0)) (fun t =>
      t.ringAnswers == [⟨.txr, .ok, 0x41⟩] && cursors t.udc.txr == (0, 0, 0)) = true := by decide

/-- RB9. -/
theorem test_rbGet_unwritten : faultIs (exec (.rbGet .txr 0) (withTx 2 3 1 [] false s0)) .unwrittenRead = true := by decide

/-- RL5: a pending line is lost to a CR. -/
theorem test_dispRx_resync :
    nextIs (exec .dispRx (withLatch charCR false (withLine false 0 1 [(0, 0x41#8), (1, 0x42#8), (2, 0)] s0))) (fun t =>
      t.udc.lbEn && t.udc.lbP == 0 && t.udc.ovr == 2 && t.udc.ev == 0 && t.trace == s0.trace ++ [.rxrd]) = true := by decide

/-- RL7: the longest line. -/
theorem test_dispRx_completes :
    nextIs (exec .dispRx (withLatch charCR false (withLine true 3 0 [(0, 0x41#8), (1, 0x42#8), (2, 0x43#8)] s0))) (fun t =>
      consumerLine t.cfg t.udc.lbs == some [0x41#8, 0x42#8, 0x43#8] && !t.udc.lbEn && t.udc.ev == 0x01#8 &&
      t.trace == s0.trace ++ [.rxrd, .wake]) = true := by decide

/-- TX7. -/
theorem test_dispTx_sends :
    nextIs (step (next .disp (withSlot none true (withTx 0 1 1 [(0, 0x48#8)] true s0)))) (fun t =>
      cursors t.udc.txr == (1, 1, 0) && t.periph.slot == some 0x48#8 && !t.periph.txifg && t.udc.txBusy) = true := by decide

/-- TX11. -/
theorem test_dispTx_overwrite :
    faultIs (step (next .disp (withSlot (some 0x41#8) true (withTx 0 1 1 [(0, 0x48#8)] true s0)))) .txOverwrite = true := by
  decide

/-- DS5. -/
theorem test_dispNone : nextIs (exec (decodeCause 0x0006#16) s0) (· == s0) = true := by decide

/-- RR5: a CR on a full ring is dropped and counted, and still signals. -/
theorem test_ring_full_cr :
    nextIs (exec .dispRx (withLatch charCR false (withRx 0 0 4 [(0, 1), (1, 2), (2, 3), (3, 4)] 1 s0r))) (fun t =>
      t.udc.ovr == 2 && t.udc.ev == 0x01#8 && cursors t.udc.rxr == (0, 0, 4)) = true := by decide

/-- DS2: a second byte before the first is read is a peripheral overrun. -/
theorem test_rxin_overrun :
    nextIs (step (next (.rxin 0x42#8 false) (withLatch 0x41#8 false s0))) (fun t =>
      t.periph.rxb == 0x42#8 && t.periph.rxe && t.periph.rxifg) = true := by decide

/-- DS3: with both pending, RX is served first. -/
theorem test_rx_first :
    nextIs (step (next .disp (withLatch 0x41#8 false (withSlot none true (withTx 0 1 1 [(0, 0x48#8)] true s0))))) (fun t =>
      t.udc.lbs == [(0, 0x41#8)] && t.periph.txifg) = true := by decide

/-- DS6 and DS7: no interrupt is taken before INIT, nor a transmit one in POLLED mode. -/
theorem test_no_dispatch :
    nextIs (step (next .disp (withLatch 0x41#8 false State.reset))) (fun t => t.periph.rxifg && t.trace == []) = true ∧
    nextIs (step (next .disp (withSlot none true s0p))) (fun t => t.periph.txifg) = true := by decide

/-! ### Invariants of the start states -/

/-- R27, in a form that can be evaluated. -/
abbrev RingOk (cap : Nat) (r : RingBuf) : Prop :=
  r.cnt.toNat ≤ cap ∧ r.rd.toNat < cap ∧ r.wr.toNat < cap ∧ r.wr.toNat = (r.rd.toNat + r.cnt.toNat) % cap ∧
    ∀ k < r.cnt.toNat, (r.cells.read ((r.rd.toNat + k) % cap)).isSome = true

theorem ringInv_of {cap : Nat} {r : RingBuf} (h : RingOk cap r) : RingInv cap r :=
  ⟨h.1, h.2.1, h.2.2.1, h.2.2.2.1, h.2.2.2.2⟩

/-- The machine's invariant of a state after INIT, in a form that can be evaluated. -/
abbrev InvOk (s : State) : Prop :=
  (s.udc.txr.cells.wf ∧ s.udc.txr.cells.within s.cfg.txCap) ∧
  (s.udc.rxr.cells.wf ∧ s.udc.rxr.cells.within s.cfg.rxCap) ∧
  (s.udc.lbs.wf ∧ s.udc.lbs.within s.cfg.lbCap) ∧
  s.periph.rxie = s.udc.inited ∧ s.periph.txie = (s.udc.inited && decide (s.udc.txMode = .intr)) ∧
  RingOk s.cfg.txCap s.udc.txr ∧ RingOk s.cfg.rxCap s.udc.rxr ∧
  s.udc.lbP.toNat ≤ s.cfg.lbCap ∧ (∀ k < s.udc.lbP.toNat, (s.udc.lbs.read k).isSome = true) ∧
  (s.udc.lbEn = false → s.udc.lbP = 0 ∧
    ∃ k < s.cfg.lbCap, s.udc.lbs.read k = some 0x00#8 ∧ ∀ j < k, (s.udc.lbs.read j).isSome = true) ∧
  s.udc.baud ∈ s.cfg.baudSet ∧ s.udc.ev &&& 0xFC#8 = 0#8 ∧
  (s.cfg.txEvOnIdle = false → s.udc.ev.getLsbD 1 = false) ∧
  (s.udc.txBusy = true → s.periph.txifg = true ∨ s.periph.slot.isSome = true) ∧
  (s.udc.rxPol = .ring → s.udc.lbEn = true ∧ s.udc.lbP = 0)

theorem inv_of {s : State} (hl : LegalConfig s.cfg) (h : InvOk s) : MachineInv s :=
  ⟨hl, ⟨h.1.1, h.1.2⟩, ⟨h.2.1.1, h.2.1.2⟩, ⟨h.2.2.1.1, h.2.2.1.2⟩, h.2.2.2.1, h.2.2.2.2.1, fun _ =>
    have g := h.2.2.2.2.2
    ⟨ringInv_of g.1, ringInv_of g.2.1, g.2.2.1, g.2.2.2.1, g.2.2.2.2.1, g.2.2.2.2.2.1, g.2.2.2.2.2.2.1,
      g.2.2.2.2.2.2.2.1, g.2.2.2.2.2.2.2.2.1, g.2.2.2.2.2.2.2.2.2⟩⟩

theorem legal_vectors : LegalConfig Config.vectors :=
  ⟨by decide, by decide, by decide, by decide, by decide, by decide, by decide⟩

/-- The smallest and the largest capacities are legal (R8). -/
theorem legal_bounds :
    LegalConfig { Config.vectors with txCap := 1, rxCap := 1, lbCap := 1 } ∧
    LegalConfig { Config.vectors with txCap := 65535, rxCap := 65535, lbCap := 255 } :=
  ⟨⟨by decide, by decide, by decide, by decide, by decide, by decide, by decide⟩,
    ⟨by decide, by decide, by decide, by decide, by decide, by decide, by decide⟩⟩

/-- A platform that maps the port at 0x0200. -/
def mapped (s : State) : State := { s with cfg := { s.cfg with udcBase := some 0x200 } }

/-- Four written cells. -/
def fourCells : Memory := [(0, 0x61), (1, 0x62), (2, 0x63), (3, 0x64)]

/-- TXR full with a busy engine whose interrupt is pending. -/
def fullTx : State := withSlot none true (withTx 0 0 4 fourCells true s0)

/-- The end of P4: TXR full, the engine idle, nothing pending, a TXB at the head of the program. -/
def hung : State := hosts [0x2066#16] (withTx 1 1 4 [(0, 0x65), (1, 0x62), (2, 0x63), (3, 0x64)] false s0)

/-- One byte stranded in TXR, the engine idle, nothing pending and nothing left to do for the host. -/
def stranded : State := withTx 0 1 1 [(0, 0x62)] false s0

/-- "AB" and a CR received: a pending line. -/
def lineAB : State := withLine false 0 0 [(0, 0x41), (1, 0x42), (2, 0x00)] s0

/-! ### For each obligation with hypotheses, states that meet them -/

theorem witness_DecodeEncode :
    (Instr.dispNone 0xFFFF#16).wellFormed = true ∧ (Instr.dispNone 0x0000#16).wellFormed = true ∧
    (Instr.lbrd 0xFF#8).wellFormed = true := by decide

theorem witness_EncodeDecode : decode (.command 0x2148#16) = .ok (.txbF 0x48#8) ∧
    decode (.cause 0x0006#16) = .ok (.dispNone 0x0006#16) ∧ decode (.ring .rxr 0x2FF#10) = .ok (.rbGet .rxr 0xFF#8) := by
  decide

/-- Bytes without a 0x00; all responses of a SEND of two, none of a SEND of none, and one too few. -/
theorem witness_SendExpandsToTxb :
    0x00#8 ∉ [0x48#8, 0x69#8] ∧
    ([⟨.ok, 0⟩, ⟨.ok, 0⟩] : List Response).length = [0x48#8, 0x69#8].length ∧
    (∀ r ∈ ([⟨.ok, 0⟩, ⟨.ok, 0⟩] : List Response), r.status = .ok) ∧
    ([] : List Response).length = ([] : List Byte).length ∧
    ([⟨.ok, 0⟩] : List Response).length < [0x48#8, 0x69#8].length := by decide

/-- A legal word, and an illegal one. -/
theorem witness_StepRunsTheCommand :
    LegalConfig (hosts [0x2148#16] s0).cfg ∧ (hosts [0x2148#16] s0).sched = .host :: [] ∧
    (hosts [0x2148#16] s0).host.prog = 0x2148#16 :: [] ∧ decodeCommand 0x2148#16 = .ok (.txbF 0x48#8) ∧
    (hosts [0xA000#16] s0).host.prog = 0xA000#16 :: [] ∧ decodeCommand 0xA000#16 = .error .reservedOpcode :=
  ⟨legal_vectors, rfl, rfl, by decide, rfl, by decide⟩

theorem witness_StepRunsPortWords :
    LegalConfig s0.cfg ∧ (next (.ring .txr 0x141#10) s0).sched = .ring .txr 0x141#10 :: [] ∧
    decodeRing .txr 0x141#10 = .ok (.rbPut .txr 0x41#8) ∧ (next (.ring .rxr 0x300#10) s0).sched = .ring .rxr 0x300#10 :: [] ∧
    (0x300#10).extractLsb' 8 2 = 3#2 ∧ (next (.cause 0x0006#16) s0).sched = .cause 0x0006#16 :: [] :=
  ⟨legal_vectors, rfl, by decide, rfl, by decide, rfl⟩

/-- RX and TX both pending, TX alone, and neither. -/
theorem witness_StepTakesTheInterrupt :
    LegalConfig s0.cfg ∧ (next .disp s0).sched = .disp :: [] ∧
    (withLatch 0x41 false fullTx).periph.rxifg = true ∧ (withLatch 0x41 false fullTx).periph.rxie = true ∧
    fullTx.periph.rxifg = false ∧ fullTx.periph.txifg = true ∧ fullTx.periph.txie = true ∧
    s0.periph.rxifg = false ∧ s0.periph.txifg = false :=
  ⟨legal_vectors, rfl, rfl, rfl, rfl, rfl, rfl, rfl, rfl⟩

theorem witness_PeripheralSteps :
    LegalConfig s0.cfg ∧ (next .txdone (withSlot (some 0x41) false s0)).sched = .txdone :: [] ∧
    (withSlot (some 0x41) false s0).periph.slot = some 0x41 ∧
    (next (.rxin 0x42 false) s0).sched = .rxin 0x42 false :: [] ∧ s0.periph.rxifg = false ∧
    (withLatch 0x41 false s0).periph.rxifg = true :=
  ⟨legal_vectors, rfl, rfl, rfl, rfl, rfl⟩

theorem witness_DisabledAgentsMakeNoStep :
    LegalConfig s0.cfg ∧ (next .host s0).sched = .host :: [] ∧ s0.host.prog = [] ∧
    (next .txdone s0).sched = .txdone :: [] ∧ s0.periph.slot = none ∧ s0.sched = [] :=
  ⟨legal_vectors, rfl, rfl, rfl, rfl, rfl⟩

theorem witness_ZeroCapacityRefused :
    ({ s0 with cfg := { s0.cfg with txCap := 0 } } : State).cfg.txCap = 0 ∧
    ({ s0 with cfg := { s0.cfg with rxCap := 0 } } : State).cfg.rxCap = 0 ∧
    ({ s0 with cfg := { s0.cfg with lbCap := 0 } } : State).cfg.lbCap = 0 := ⟨rfl, rfl, rfl⟩

theorem witness_MappedPort :
    LegalConfig (mapped s0).cfg ∧ (mapped s0).cfg.udcBase = some 0x200 ∧ 0x200 % 2 = 0 ∧
    (respond .ok 7 (mapped s0)).host.resps.getLast? = some ⟨.ok, 7⟩ ∧
    (next (.bus 0x202 .read16) (mapped s0)).sched = .bus (0x200 + 2) .read16 :: [] ∧
    (next (.bus 0x205 .read8) (mapped s0)).sched = .bus (0x200 + 5) .read8 :: [] :=
  ⟨⟨by decide, by decide, by decide, by decide, by decide, by decide, by decide⟩, rfl, rfl, rfl, rfl, rfl⟩

theorem witness_NotInitBeforeInit : State.reset.udc.inited = false := rfl

theorem witness_NopAnswersOk : (1#12 ≠ 0) ∧ (0xFFF#12 ≠ 0) := by decide

theorem witness_InitLeavesInitialState : 0#4 ∈ s0.cfg.baudSet ∧ 3#4 ∈ s0.cfg.baudSet := by decide

theorem witness_InitUnsupportedBaud : 4#4 ∉ s0.cfg.baudSet ∧ 15#4 ∉ s0.cfg.baudSet := by decide

/-- An idle engine and a busy one; the second ring has room for one byte, its write cursor at the last cell. -/
theorem witness_TxbEnqueues :
    LegalConfig s0.cfg ∧ s0.udc.inited = true ∧ s0.udc.txMode = .intr ∧ RingInv s0.cfg.txCap s0.udc.txr ∧
    s0.udc.txr.cnt.toNat ≠ s0.cfg.txCap ∧ s0.udc.txBusy = false ∧
    RingInv s0.cfg.txCap (withTx 0 3 3 fourCells true s0).udc.txr ∧
    (withTx 0 3 3 fourCells true s0).udc.txr.cnt.toNat ≠ s0.cfg.txCap :=
  ⟨legal_vectors, rfl, rfl, ringInv_of (by decide), by decide, rfl, ringInv_of (by decide), by decide⟩

theorem witness_TxbHoldsOnFullRing :
    fullTx.udc.inited = true ∧ fullTx.udc.txMode = .intr ∧ fullTx.udc.txr.cnt.toNat = fullTx.cfg.txCap ∧
    LegalConfig s0.cfg ∧ RingInv s0.cfg.txCap (withTx 0 3 3 fourCells true s0).udc.txr ∧
    (withTx 0 3 3 fourCells true s0).udc.txr.cnt.toNat < s0.cfg.txCap :=
  ⟨rfl, rfl, rfl, legal_vectors, ringInv_of (by decide), by decide⟩

theorem witness_TxbPolled :
    s0p.udc.inited = true ∧ s0p.udc.txMode = .polled ∧ s0p.periph.slot = none ∧
    (withSlot (some 0x78) false s0p).periph.slot.isSome = true := ⟨rfl, rfl, rfl, rfl⟩

theorem witness_GetevReadsMailbox : s0.udc.inited = true ∧ MachineInv s0 := ⟨rfl, inv_of legal_vectors (by decide)⟩

theorem witness_ClrevClearsMailbox : ({ s0 with udc := { s0.udc with ev := 3 } } : State).udc.inited = true := rfl

theorem witness_GetlnReportsPendingLine :
    lineAB.udc.inited = true ∧ lineAB.udc.lbEn = false ∧ s0.udc.lbEn = true ∧ s0r.udc.rxPol = .ring ∧ MachineInv s0r :=
  ⟨rfl, rfl, rfl, rfl, inv_of legal_vectors (by decide)⟩

/-- LB_CAP itself, the last written cell, and the first unwritten one. -/
theorem witness_LbrdReadsLineBuffer :
    lineAB.udc.inited = true ∧ lineAB.cfg.lbCap ≤ (4#8).toNat ∧ (2#8).toNat < lineAB.cfg.lbCap ∧
    lineAB.udc.lbs.read (2#8).toNat = some 0 ∧ (3#8).toNat < lineAB.cfg.lbCap ∧ lineAB.udc.lbs.read (3#8).toNat = none := by
  decide

theorem witness_PendingLineCanBeRead : MachineInv lineAB ∧ lineAB.udc.inited = true ∧ lineAB.udc.lbEn = false :=
  ⟨inv_of legal_vectors (by decide), rfl, rfl⟩

theorem witness_RearmArms : lineAB.udc.inited = true ∧ MachineInv s0r ∧ s0r.udc.rxPol = .ring :=
  ⟨rfl, inv_of legal_vectors (by decide), rfl⟩

/-- An empty ring, and a full one whose read cursor is at the last cell. -/
theorem witness_RxgetTakesOldestByte :
    LegalConfig s0.cfg ∧ s0.udc.inited = true ∧ RingInv s0.cfg.rxCap s0.udc.rxr ∧ s0.udc.rxr.cnt = 0 ∧
    UnusedRingsEmpty s0 ∧ s0.udc.rxPol = .line ∧ RingInv s0.cfg.rxCap (withRx 3 3 4 fourCells 0 s0r).udc.rxr ∧
    (withRx 3 3 4 fourCells 0 s0r).udc.rxr.cnt ≠ 0 :=
  ⟨legal_vectors, rfl, ringInv_of (by decide), rfl, fun _ => ⟨fun _ => rfl, fun h => (by cases h)⟩, rfl,
    ringInv_of (by decide), by decide⟩

theorem witness_RderrReadsOverrun : (withLine true 0 0xFFFF [] s0).udc.inited = true := rfl

theorem witness_RbPutStoresOrFull :
    LegalConfig s0.cfg ∧ RingInv (ringCap s0.cfg .rxr) (s0.ring .rxr) ∧
    (s0.ring .rxr).cnt.toNat ≠ ringCap s0.cfg .rxr ∧ RingInv (ringCap fullTx.cfg .txr) (fullTx.ring .txr) ∧
    (fullTx.ring .txr).cnt.toNat = ringCap fullTx.cfg .txr :=
  ⟨legal_vectors, ringInv_of (by decide), by decide, ringInv_of (by decide), rfl⟩

/-- Empty, an unwritten cell, and a written one. -/
theorem witness_RbGetTakesOrEmpty :
    LegalConfig s0.cfg ∧ (s0.ring .txr).rd.toNat < ringCap s0.cfg .txr ∧ (s0.ring .txr).cnt = 0 ∧
    ((withTx 3 0 1 [] false s0).ring .txr).cnt ≠ 0 ∧ ((withTx 3 0 1 [] false s0).ring .txr).cells.read 3 = none ∧
    ((withTx 3 0 1 fourCells false s0).ring .txr).cells.read 3 = some 0x64 ∧
    ((withTx 3 0 1 fourCells false s0).ring .txr).rd.toNat < ringCap s0.cfg .txr :=
  ⟨legal_vectors, by decide, rfl, by decide, by decide, by decide, by decide⟩

theorem witness_RingIsFifo : (1 ≤ 1 ∧ 1 ≤ 65535) ∧ (1 ≤ 65535 ∧ 65535 ≤ 65535) := by decide

/-- Empty, nonempty with the slot empty, nonempty with the slot occupied. -/
theorem witness_DispTxPumpsOneByte :
    LegalConfig s0.cfg ∧ RingInv s0.cfg.txCap s0.udc.txr ∧ s0.udc.txr.cnt = 0 ∧
    RingInv fullTx.cfg.txCap fullTx.udc.txr ∧ fullTx.udc.txr.cnt ≠ 0 ∧ fullTx.periph.slot = none ∧
    (withSlot (some 0x41) true fullTx).periph.slot.isSome = true :=
  ⟨legal_vectors, ringInv_of (by decide), rfl, ringInv_of (by decide), by decide, rfl, rfl⟩

theorem witness_DispRxDiscardsErroneousByte : (withLatch 0x41 true s0).periph.rxe = true := rfl

/-- LF; a byte and a CR at a disabled assembler; a byte at a full one. -/
theorem witness_DispRxLineDropsAndRejects :
    (withLatch 0x0A false lineAB).periph.rxe = false ∧ (withLatch 0x0A false lineAB).udc.rxPol = .line ∧
    (withLatch 0x0A false lineAB).periph.rxb = 0x0A#8 ∧ (withLatch 0x43 false lineAB).periph.rxb ≠ 0x0A#8 ∧
    (withLatch 0x43 false lineAB).periph.rxb ≠ 0x0D#8 ∧ lineAB.udc.lbEn = false ∧
    (withLatch 0x0D false lineAB).periph.rxb = 0x0D#8 ∧
    (withLine true 4 0 fourCells s0).udc.lbP.toNat = s0.cfg.lbCap := by decide

/-- Cursor 0, and cursor LB_CAP - 1; a CR and another byte. -/
theorem witness_DispRxLineAccepts :
    LegalConfig s0.cfg ∧ (withLatch 0x0D false s0).periph.rxe = false ∧ (withLatch 0x0D false s0).udc.rxPol = .line ∧
    (withLatch 0x0D false s0).periph.rxb = 0x0D#8 ∧ s0.udc.lbEn = true ∧ s0.udc.lbP.toNat < s0.cfg.lbCap ∧
    (withLatch 0x41 false s0).periph.rxb ≠ 0x0A#8 ∧ (withLatch 0x41 false s0).periph.rxb ≠ 0x0D#8 ∧
    (withLine true 3 0 fourCells s0).udc.lbP.toNat < s0.cfg.lbCap :=
  ⟨legal_vectors, rfl, rfl, rfl, rfl, by decide, by decide, by decide, by decide⟩

theorem witness_DispRxRingPolicy :
    LegalConfig s0r.cfg ∧ (withLatch 0x0D false s0r).periph.rxe = false ∧ s0r.udc.rxPol = .ring ∧
    RingInv s0r.cfg.rxCap s0r.udc.rxr ∧ s0r.udc.rxr.cnt.toNat ≠ s0r.cfg.rxCap ∧
    RingInv s0r.cfg.rxCap (withRx 0 0 4 fourCells 0 s0r).udc.rxr ∧
    (withRx 0 0 4 fourCells 0 s0r).udc.rxr.cnt.toNat = s0r.cfg.rxCap :=
  ⟨legal_vectors, rfl, rfl, ringInv_of (by decide), by decide, ringInv_of (by decide), rfl⟩

theorem witness_DispNoneChangesNothing :
    (0x0000#16 ≠ 0x0002#16 ∧ 0x0000#16 ≠ 0x0004#16) ∧ (0x0006#16 ≠ 0x0002#16 ∧ 0x0006#16 ≠ 0x0004#16) := by decide

/-- W4: "A", LF, " B", the longest line LB_CAP = 4 allows. -/
theorem witness_LineIsAssembled :
    LegalConfig s0.cfg ∧ s0.udc.lbEn = true ∧ s0.udc.lbP = 0 ∧ 0x0D#8 ∉ [0x41#8, 0x0A#8, 0x20#8, 0x42#8] ∧
    [0x41#8, 0x20#8, 0x42#8] = [0x41#8, 0x0A#8, 0x20#8, 0x42#8].filter (fun b => b != 0x0A#8) ∧
    [0x41#8, 0x20#8, 0x42#8].length < s0.cfg.lbCap :=
  ⟨legal_vectors, rfl, rfl, by decide, by decide, by decide⟩

/-- W5: "ABCD" fills the buffer. -/
theorem witness_OverlongLineResynchronises :
    LegalConfig s0.cfg ∧ s0.udc.lbEn = true ∧ s0.udc.lbP = 0 ∧ 0x0D#8 ∉ [0x41#8, 0x42#8, 0x43#8, 0x44#8] ∧
    [0x41#8, 0x42#8, 0x43#8, 0x44#8] = [0x41#8, 0x42#8, 0x43#8, 0x44#8].filter (fun b => b != 0x0A#8) ∧
    s0.cfg.lbCap ≤ [0x41#8, 0x42#8, 0x43#8, 0x44#8].length :=
  ⟨legal_vectors, rfl, rfl, by decide, by decide, by decide⟩

theorem witness_ResetLeaves : State.reset = State.resetWith Config.vectors := rfl

theorem witness_ResetMeetsInvariant : ∃ cfg, LegalConfig cfg ∧ cfg.txCap = 65535 := ⟨_, legal_bounds.2, rfl⟩

/-- A transmit interrupt taken with the ring full. -/
theorem witness_StepKeepsInvariant : MachineInv (next .disp fullTx) ∧ ∃ t, step (next .disp fullTx) = .next t :=
  ⟨inv_of legal_vectors (by decide), (next_of (p := fun _ => true) (by decide)).imp fun _ h => h.1⟩

theorem witness_StepKeepsUnusedRingsEmpty :
    MachineInv (next .disp fullTx) ∧ UnusedRingsEmpty (next .disp fullTx) ∧ (next .disp fullTx).sched = .disp :: [] ∧
    (∀ r w, Event.disp ≠ .ring r w) ∧ ∃ t, step (next .disp fullTx) = .next t :=
  ⟨witness_StepKeepsInvariant.1, fun _ => ⟨fun _ => rfl, fun h => (by cases h)⟩, rfl, fun _ _ h => (by cases h),
    witness_StepKeepsInvariant.2⟩

/-- Both faults: an LBRD of an unwritten cell (RL13), and a TXC with the slot occupied (TX11). -/
theorem witness_FaultsOnlyWhereSpecified :
    (MachineInv (hosts [0x6000#16] s0) ∧ step (hosts [0x6000#16] s0) = .fault .unwrittenRead ∧
      Event.host.inContract = true) ∧
    (MachineInv (next .disp (withSlot (some 0x41) true fullTx)) ∧
      step (next .disp (withSlot (some 0x41) true fullTx)) = .fault .txOverwrite ∧ Event.disp.inContract = true) :=
  ⟨⟨inv_of legal_vectors (by decide), fault_of (by decide), rfl⟩,
    ⟨inv_of legal_vectors (by decide), fault_of (by decide), rfl⟩⟩

theorem witness_OverwriteNeedsReInit :
    MachineInv (next .disp fullTx) ∧ SlotTracked (next .disp fullTx) ∧ (next .disp fullTx).sched = .disp :: [] ∧
    Event.disp.inContract = true ∧ (nextInitialises (next .disp fullTx) → (next .disp fullTx).periph.slot = none) :=
  ⟨witness_StepKeepsInvariant.1, fun _ _ h => (by cases h), rfl, rfl, fun _ => rfl⟩

/-- The first TXB.F after INIT. -/
theorem witness_TransmitOrderPreserved :
    MachineInv (hosts [0x2148#16] s0) ∧ UnusedRingsEmpty (hosts [0x2148#16] s0) ∧ (hosts [0x2148#16] s0).udc.inited = true ∧
    (hosts [0x2148#16] s0).sched = .host :: [] ∧ Event.host.inContract = true ∧
    ¬ nextInitialises (hosts [0x2148#16] s0) ∧ ∃ t, step (hosts [0x2148#16] s0) = .next t := by
  refine ⟨inv_of legal_vectors (by decide), fun _ => ⟨fun _ => rfl, fun h => (by cases h)⟩, rfl, rfl, rfl, ?_,
    (next_of (p := fun _ => true) (by decide)).imp fun _ h => h.1⟩
  have hn : nextInstr (hosts [0x2148#16] s0) = some (.txbF 0x48#8) := by decide
  rintro ⟨_, _, _, h | h⟩ <;> rw [hn] at h <;> cases h

theorem witness_DrainDeliversEveryByte :
    MachineInv fullTx ∧ fullTx.udc.inited = true ∧ fullTx.udc.txMode = .intr ∧ fullTx.periph.slot = none ∧
    fullTx.periph.rxifg = false ∧ fullTx.periph.txifg = true ∧ fullTx.host.prog = [] :=
  ⟨inv_of legal_vectors (by decide), rfl, rfl, rfl, rfl, rfl, rfl⟩

/-- The end of P4, and the same ring with one byte stranded and the program exhausted (R250); with a mapped port, an event
of the bus is in the contract. -/
theorem witness_TransmitHang :
    (Event.bus 0 (.write16 0 0)).inContract = true ∧
    stranded.cfg = hung.cfg ∧ stranded.udc.inited = true ∧ stranded.udc.txMode = .intr ∧ stranded.udc.txBusy = false ∧
    stranded.periph.txifg = false ∧ stranded.periph.slot = none ∧ stranded.host.prog = [] ∧ stranded.udc.txr.cnt ≠ 0 ∧
    LegalConfig hung.cfg ∧ hung.udc.inited = true ∧ hung.udc.txMode = .intr ∧ hung.host.prog = 0x2066#16 :: [] ∧
    decodeCommand 0x2066#16 = .ok (.txb 0x66#8) ∧ decodeCommand 0x2166#16 = .ok (.txbF 0x66#8) ∧
    hung.udc.txr.cnt.toNat = hung.cfg.txCap ∧ hung.udc.txBusy = false ∧ hung.periph.txifg = false ∧
    hung.periph.slot = none :=
  ⟨rfl, rfl, rfl, rfl, rfl, rfl, rfl, rfl, by decide, legal_vectors, rfl, rfl, rfl, by decide, by decide, rfl, rfl, rfl,
    rfl⟩

/-- Idle to busy by a kick and by a TXC on stranded bytes; busy to idle by a TXC on an empty ring and by INIT. -/
theorem witness_BusyTransitions :
    (s0.udc.txBusy = false ∧ ∃ t, step (hosts [0x2148#16] s0) = .next t ∧ t.udc.txBusy = true) ∧
    ((withTx 0 1 1 fourCells false s0).udc.txBusy = false ∧
      ∃ t, step (next .disp (withSlot none true (withTx 0 1 1 fourCells false s0))) = .next t ∧ t.udc.txBusy = true) ∧
    ((withTx 1 1 0 fourCells true s0).udc.txBusy = true ∧
      ∃ t, step (next .disp (withSlot none true (withTx 1 1 0 fourCells true s0))) = .next t ∧ t.udc.txBusy = false) ∧
    (fullTx.udc.txBusy = true ∧ ∃ t, step (hosts [0x1004#16] fullTx) = .next t ∧ t.udc.txBusy = false) :=
  ⟨⟨rfl, next_of (p := fun t => decide (t.udc.txBusy = true)) (by decide) |>.imp fun _ h => ⟨h.1, of_decide_eq_true h.2⟩⟩,
    ⟨rfl, next_of (p := fun t => decide (t.udc.txBusy = true)) (by decide) |>.imp fun _ h => ⟨h.1, of_decide_eq_true h.2⟩⟩,
    ⟨rfl, next_of (p := fun t => decide (t.udc.txBusy = false)) (by decide) |>.imp fun _ h => ⟨h.1, of_decide_eq_true h.2⟩⟩,
    ⟨rfl, next_of (p := fun t => decide (t.udc.txBusy = false)) (by decide) |>.imp fun _ h => ⟨h.1, of_decide_eq_true h.2⟩⟩⟩

/-- The latch closes on a CR, and opens by REARM and by a rejected CR. -/
theorem witness_CompletionLatch :
    (s0.udc.lbEn = true ∧
      ∃ t, step (next .disp (withLatch 0x0D false s0)) = .next t ∧ t.udc.lbEn = false) ∧
    (lineAB.udc.lbEn = false ∧ ∃ t, step (hosts [0x7000#16] lineAB) = .next t ∧ t.udc.lbEn = true) ∧
    (lineAB.udc.lbEn = false ∧
      ∃ t, step (next .disp (withLatch 0x0D false lineAB)) = .next t ∧ t.udc.lbEn = true) :=
  ⟨⟨rfl, next_of (p := fun t => decide (t.udc.lbEn = false)) (by decide) |>.imp fun _ h => ⟨h.1, of_decide_eq_true h.2⟩⟩,
    ⟨rfl, next_of (p := fun t => decide (t.udc.lbEn = true)) (by decide) |>.imp fun _ h => ⟨h.1, of_decide_eq_true h.2⟩⟩,
    ⟨rfl, next_of (p := fun t => decide (t.udc.lbEn = true)) (by decide) |>.imp fun _ h => ⟨h.1, of_decide_eq_true h.2⟩⟩⟩

/-- A rejected byte in each policy, and a step that is none: an accepted one. -/
theorem witness_OverrunCountsRejectedBytes :
    (nextInstr (next .disp (withLatch 0x43 false lineAB)) = some .dispRx ∧
      receiveError (withLatch 0x43 false lineAB) = some .errC ∧
      ∃ t, step (next .disp (withLatch 0x43 false lineAB)) = .next t) ∧
    (nextInstr (next .disp (withLatch 0x43 false (withRx 0 0 4 fourCells 0 s0r))) = some .dispRx ∧
      receiveError (withLatch 0x43 false (withRx 0 0 4 fourCells 0 s0r)) = some .errD ∧
      ∃ t, step (next .disp (withLatch 0x43 false (withRx 0 0 4 fourCells 0 s0r))) = .next t) ∧
    (receiveError (withLatch 0x43 false s0) = none ∧ ∃ t, step (next .disp (withLatch 0x43 false s0)) = .next t) :=
  ⟨⟨by decide, by decide, (next_of (p := fun _ => true) (by decide)).imp fun _ h => h.1⟩,
    ⟨by decide, by decide, (next_of (p := fun _ => true) (by decide)).imp fun _ h => h.1⟩,
    ⟨by decide, (next_of (p := fun _ => true) (by decide)).imp fun _ h => h.1⟩⟩

/-- A completing INIT is the next step, in a machine already initialised and in one that is not. -/
theorem witness_nextInitialises : nextInitialises (hosts [0x1004#16] lineAB) ∧ nextInitialises (hosts [0x1005#16] State.reset) :=
  ⟨⟨0#4, .intr, by decide, .inl (by decide)⟩, ⟨0#4, .intr, by decide, .inr (by decide)⟩⟩

theorem witness_MailboxOnlyAccumulates :
    (nextInstr (hosts [0x4000#16] lineAB) = some .clrev ∧ lineAB.udc.inited = true ∧
      ∃ t, step (hosts [0x4000#16] lineAB) = .next t) ∧
    (nextInstr (next .disp fullTx) = some .dispTx ∧ ∃ t, step (next .disp fullTx) = .next t) :=
  ⟨⟨by decide, rfl, (next_of (p := fun _ => true) (by decide)).imp fun _ h => h.1⟩, ⟨by decide, witness_StepKeepsInvariant.2⟩⟩

theorem witness_ClearedMailboxStaysClear :
    s0.udc.ev = 0 ∧ (∀ e ∈ [Event.rxin 0x0D#8 false, Event.txdone], e ≠ .disp ∧ ∀ iv, e ≠ .cause iv) ∧
    ∃ t, runEvents [Event.rxin 0x0D#8 false, Event.txdone] s0 = .next t := by
  refine ⟨rfl, fun e he => ?_, (next_of (p := fun _ => true) (by decide)).imp fun _ h => h.1⟩
  rcases List.mem_cons.1 he with rfl | he
  · exact ⟨fun h => (by cases h), fun _ h => (by cases h)⟩
  · rcases List.mem_cons.1 he with rfl | he
    · exact ⟨fun h => (by cases h), fun _ h => (by cases h)⟩
    · cases he

/-- A step of DISP, one of the host and one of the peripheral. -/
theorem witness_SingleWriters :
    ((next .disp fullTx).sched = .disp :: [] ∧ ∃ t, step (next .disp fullTx) = .next t) ∧
    ((hosts [0x7000#16] lineAB).sched = .host :: [] ∧ ∃ t, step (hosts [0x7000#16] lineAB) = .next t) ∧
    ((next .txdone s0).sched = .txdone :: [] ∧ ∃ t, step (next .txdone s0) = .next t) :=
  ⟨⟨rfl, witness_StepKeepsInvariant.2⟩, ⟨rfl, (next_of (p := fun _ => true) (by decide)).imp fun _ h => h.1⟩,
    ⟨rfl, (next_of (p := fun _ => true) (by decide)).imp fun _ h => h.1⟩⟩

theorem witness_ConfigAndInitedPersist :
    (s0.udc.inited = true ∧ ∃ t, step (hosts [0x7000#16] s0) = .next t) ∧
    (State.reset.udc.inited = false ∧ ∃ t, step (hosts [0x1004#16] State.reset) = .next t) :=
  ⟨⟨rfl, (next_of (p := fun _ => true) (by decide)).imp fun _ h => h.1⟩,
    ⟨rfl, (next_of (p := fun _ => true) (by decide)).imp fun _ h => h.1⟩⟩

/-- Power-on with every unspecified register at another value, about to run an INIT. -/
theorem witness_UnspecifiedRegistersUnobservable :
    ∃ s s', PowerOnAlike s s' ∧ s ≠ s' ∧ s.sched = .host :: [] ∧ Event.host.inContract = true ∧ nextInitialises s :=
  ⟨hosts [0x1005#16] State.reset,
    { hosts [0x1005#16] State.reset with udc := { Udc.reset with
      txMode := .intr, rxPol := .ring, baud := 9, txr := ⟨9, 8, 7, []⟩, rxr := ⟨6, 5, 4, []⟩, txBusy := true
      lbP := 200, lbEn := true, ovr := 77, ev := 0xFF } },
    ⟨rfl, rfl, rfl, rfl, rfl, rfl, rfl, rfl⟩, by decide, rfl, rfl, witness_nextInitialises.2⟩

theorem witness_TransmitSideHidden :
    (fullTx = { fullTx with udc := { fullTx.udc with txr := fullTx.udc.txr, txBusy := fullTx.udc.txBusy } }) ∧
    (withTx 0 0 0 [] false fullTx = { fullTx with udc := { fullTx.udc with txr := ⟨0, 0, 0, []⟩, txBusy := false } }) ∧
    contextOf .getev = some .mainLoop ∧ (∀ d, Instr.getev ≠ .txb d ∧ Instr.getev ≠ .txbF d) :=
  ⟨rfl, rfl, rfl, fun _ => ⟨fun h => (by cases h), fun h => (by cases h)⟩⟩

theorem witness_ReadsAreRepeatable : (∃ t, exec (.lbrd 1#8) lineAB = .next t) ∧ ∃ t, exec .rderr lineAB = .next t :=
  ⟨(next_of (p := fun _ => true) (by decide)).imp fun _ h => h.1, (next_of (p := fun _ => true) (by decide)).imp fun _ h => h.1⟩

theorem witness_WritesAreIdempotent :
    (∃ t, exec .clrev lineAB = .next t) ∧ ∃ t, exec (.initRing 0#4 .intr) fullTx = .next t :=
  ⟨(next_of (p := fun _ => true) (by decide)).imp fun _ h => h.1, (next_of (p := fun _ => true) (by decide)).imp fun _ h => h.1⟩

end Sys2Proof.Tests
end

section
/-! PROOFS. The scope of the model: configurations the step refuses (R9). -/

namespace Sys2Proof.Machine

/-- The check finds a zero capacity before it looks at any other parameter (R9, log 10). -/
theorem configCheck_zeroCapacity {cfg : Config} (hz : cfg.txCap = 0 ∨ cfg.rxCap = 0 ∨ cfg.lbCap = 0) :
    configCheck cfg = some .zeroCapacity :=
  if_pos hz

/-- What the check refuses, the step refuses for the same reason, before any agent moves. -/
theorem step_refused_of_configCheck {s : State} {r : Refusal} (hr : configCheck s.cfg = some r) :
    step s = .refused r := by
  unfold step
  rw [hr]

/-- Settles O11: the parameters are checked before the schedule is looked at, and a capacity 0 is the first check. -/
theorem zeroCapacityRefused : Obligations.ZeroCapacityRefused :=
  fun _ hz => step_refused_of_configCheck (configCheck_zeroCapacity hz)

end Sys2Proof.Machine
end

section
/-! PROOFS. How each kind of update keeps the machine's invariant: registers it does not look at, the mailbox, the line
assembler, the rings, INIT. -/

namespace Sys2Proof.Machine

/-- The part of the invariant that speaks of the line registers: cursor in range, accepted cells written, a pending line
readable from a cursor at 0 (R31, R142, R145). -/
structure LineInv (cap : Nat) (m : Memory) (p : Byte) (armed : Bool) : Prop where
  le : p.toNat ≤ cap
  accumulated : ∀ k < p.toNat, (m.read k).isSome
  pending : armed = false → p = 0 ∧ LineReadable cap m

theorem LineInv.armed (cap : Nat) (m : Memory) : LineInv cap m 0 true where
  le := Nat.zero_le _
  accumulated := fun k hk => absurd hk (Nat.not_lt_zero k)
  pending := fun h => by cases h

theorem InitedInv.line {s : State} (h : InitedInv s) : LineInv s.cfg.lbCap s.udc.lbs s.udc.lbP s.udc.lbEn :=
  ⟨h.lbP_le, h.accumulated, h.pending⟩

/-- A CR closes the line: its 0x00 stands after the accepted bytes (R142, R145). -/
theorem LineInv.complete {cap : Nat} {m : Memory} {p : Byte} {armed : Bool} (h : LineInv cap m p armed)
    (hp : p.toNat < cap) : LineInv cap (m.write p.toNat 0x00#8) 0 false where
  le := Nat.zero_le _
  accumulated := fun k hk => absurd hk (Nat.not_lt_zero k)
  pending := fun _ => by
    refine ⟨rfl, p.toNat, hp, Memory.read_write_same _ _ _, fun j hj => ?_⟩
    rw [Memory.read_write_other _ _ (Nat.ne_of_lt hj)]
    exact h.accumulated j hj

/-- An accepted byte is stored at the cursor, which advances (R142). -/
theorem LineInv.store {cap : Nat} {m : Memory} {p : Byte} {armed : Bool} (h : LineInv cap m p armed)
    (ha : armed = true) (hc : cap ≤ 255) (hp : p.toNat < cap) (b : Byte) :
    LineInv cap (m.write p.toNat b) (BitVec.ofNat 8 (p.toNat + 1)) armed := by
  have hn : (BitVec.ofNat 8 (p.toNat + 1)).toNat = p.toNat + 1 := by
    rw [BitVec.toNat_ofNat]; exact Nat.mod_eq_of_lt (by omega)
  refine ⟨by rw [hn]; exact hp, fun k hk => ?_, fun hf => by cases ha.symm.trans hf⟩
  rw [hn] at hk
  rw [Memory.read_write]
  split
  · rfl
  · exact h.accumulated k (by omega)

/-- What the invariant asks of EV: reserved bits 0, EV_TX only where the parameter allows it (R36, R124). -/
def EvLegal (cfg : Config) (v : Byte) : Prop :=
  v &&& 0xFC#8 = 0#8 ∧ (cfg.txEvOnIdle = false → v.getLsbD 1 = false)

theorem EvLegal.zero (cfg : Config) : EvLegal cfg 0 := ⟨rfl, fun _ => rfl⟩

theorem EvLegal.evRx (cfg : Config) : EvLegal cfg evRx := ⟨rfl, fun _ => rfl⟩

theorem EvLegal.evTx {cfg : Config} (h : cfg.txEvOnIdle = true) : EvLegal cfg evTx :=
  ⟨rfl, fun h' => by rw [h] at h'; cases h'⟩

theorem EvLegal.or {cfg : Config} {v m : Byte} (hv : EvLegal cfg v) (hm : EvLegal cfg m) : EvLegal cfg (v ||| m) := by
  obtain ⟨hv0, hv1⟩ := hv
  obtain ⟨hm0, hm1⟩ := hm
  exact ⟨by rw [BitVec.and_or_distrib_right, hv0, hm0]; rfl,
    fun h => by rw [BitVec.getLsbD_or, hv1 h, hm1 h]; rfl⟩

/-- The invariant looks neither at OVR nor at the host, the trace or the schedule, at TX_BUSY only beside a pending
transmit interrupt, and at the peripheral only through the enables and that interrupt. -/
theorem MachineInv.of_unseen {s t : State} (h : MachineInv s) (hc : t.cfg = s.cfg)
    (hu : t.udc = { s.udc with txBusy := t.udc.txBusy, ovr := t.udc.ovr })
    (hr : t.periph.rxie = s.periph.rxie) (ht : t.periph.txie = s.periph.txie)
    (hb : s.udc.inited = true → t.udc.txBusy = true → t.periph.txifg = true ∨ t.periph.slot.isSome) :
    MachineInv t := by
  obtain ⟨cfg, udc, periph, host, ans, trace, sched, n⟩ := t
  obtain rfl : cfg = s.cfg := hc
  obtain ⟨legal, txs, rxs, lbs, rxie, txie, hi⟩ := h
  dsimp only at hu hr ht hb
  rw [hu]
  refine ⟨legal, txs, rxs, lbs, hr.trans rxie, ht.trans txie, fun h0 => ?_⟩
  obtain ⟨txr, rxr, lbP_le, acc, pend, baud, ev, evtx, -, ring⟩ := hi h0
  exact ⟨txr, rxr, lbP_le, acc, pend, baud, ev, evtx, hb h0, ring⟩

/-- An update of what the invariant does not see, with the engine and its interrupt as they were. -/
theorem MachineInv.of_same_engine {s t : State} (h : MachineInv s) (hc : t.cfg = s.cfg)
    (hu : t.udc = { s.udc with ovr := t.udc.ovr })
    (hr : t.periph.rxie = s.periph.rxie) (ht : t.periph.txie = s.periph.txie)
    (hi : t.periph.txifg = s.periph.txifg) (hs : t.periph.slot = s.periph.slot) : MachineInv t := by
  have hbusy : t.udc.txBusy = s.udc.txBusy := by rw [hu]
  refine h.of_unseen hc (by rw [hbusy]; exact hu) hr ht fun h0 hb => ?_
  rw [hi, hs]
  exact (h.inited h0).busy (hbusy ▸ hb)

theorem MachineInv.respond {s : State} (h : MachineInv s) (st : Status) (d : Word) : MachineInv (respond st d s) :=
  h.of_same_engine rfl rfl rfl rfl rfl rfl

theorem MachineInv.answerRing {s : State} (h : MachineInv s) (r : RingId) (st : RingStatus) (d : Byte) :
    MachineInv (answerRing r st d s) :=
  h.of_same_engine rfl rfl rfl rfl rfl rfl

theorem MachineInv.countOverrun {s : State} (h : MachineInv s) : MachineInv (countOverrun s) :=
  h.of_same_engine rfl rfl rfl rfl rfl rfl

theorem MachineInv.emit_rxrd {s : State} (h : MachineInv s) : MachineInv (emit .rxrd s) :=
  h.of_same_engine rfl rfl rfl rfl rfl rfl

theorem MachineInv.emit_errclr {s : State} (h : MachineInv s) : MachineInv (emit .errclr s) :=
  h.of_same_engine rfl rfl rfl rfl rfl rfl

/-- A byte in the slot is a transmit interrupt coming (R128). -/
theorem MachineInv.emit_txwr {s : State} (h : MachineInv s) (b : Byte) : MachineInv (emit (.txwr b) s) :=
  h.of_unseen rfl rfl rfl rfl fun _ _ => .inr rfl

theorem MachineInv.kick {s : State} (h : MachineInv s) : MachineInv (kick s) :=
  h.of_unseen rfl rfl rfl rfl fun _ _ => .inl rfl

theorem MachineInv.setEv {s : State} (h : MachineInv s) {v : Byte} (hv : s.udc.inited = true → EvLegal s.cfg v) :
    MachineInv { s with udc := { s.udc with ev := v } } := by
  obtain ⟨legal, txs, rxs, lbs, rxie, txie, hi⟩ := h
  refine ⟨legal, txs, rxs, lbs, rxie, txie, fun h0 => ?_⟩
  obtain ⟨txr, rxr, lbP_le, acc, pend, baud, -, -, busy, ring⟩ := hi h0
  exact ⟨txr, rxr, lbP_le, acc, pend, baud, (hv h0).1, (hv h0).2, busy, ring⟩

theorem MachineInv.orEvent {s : State} (h : MachineInv s) {m : Byte} (hm : EvLegal s.cfg m) :
    MachineInv (orEvent m s) :=
  h.setEv fun h0 => EvLegal.or ⟨(h.inited h0).ev_reserved, (h.inited h0).ev_tx⟩ hm

theorem MachineInv.signalLine {s : State} (h : MachineInv s) : MachineInv (signalLine s) :=
  (h.orEvent (.evRx _)).of_same_engine (signalLine_cfg s) (by simp) (by simp) (by simp) (by simp) (by simp)

theorem MachineInv.setLine {s : State} (h : MachineInv s) {m : Memory} {p : Byte} {armed : Bool}
    (hm : ArrayInv s.cfg.lbCap m) (hl : s.udc.inited = true → LineInv s.cfg.lbCap m p armed)
    (hp : s.udc.rxPol = .ring → armed = true ∧ p = 0) :
    MachineInv { s with udc := { s.udc with lbs := m, lbP := p, lbEn := armed } } := by
  obtain ⟨legal, txs, rxs, -, rxie, txie, hi⟩ := h
  refine ⟨legal, txs, rxs, hm, rxie, txie, fun h0 => ?_⟩
  obtain ⟨txr, rxr, -, -, -, baud, ev, evtx, busy, -⟩ := hi h0
  exact ⟨txr, rxr, (hl h0).le, (hl h0).accumulated, (hl h0).pending, baud, ev, evtx, busy, hp⟩

theorem MachineInv.armLine {s : State} (h : MachineInv s) : MachineInv (armLine s) :=
  h.setLine h.lbs (fun _ => .armed _ _) fun _ => ⟨rfl, rfl⟩

/-- The array of a ring is canonical and within its capacity. -/
theorem MachineInv.ringArray {s : State} (h : MachineInv s) (r : RingId) :
    ArrayInv (ringCap s.cfg r) (s.ring r).cells := by
  cases r with
  | txr => exact h.txs
  | rxr => exact h.rxs

theorem MachineInv.ringInv {s : State} (h : MachineInv s) (h0 : s.udc.inited = true) (r : RingId) :
    RingInv (ringCap s.cfg r) (s.ring r) := by
  cases r with
  | txr => exact (h.inited h0).txr
  | rxr => exact (h.inited h0).rxr

theorem LegalConfig.ringCap_pos {cfg : Config} (h : LegalConfig cfg) (r : RingId) : 0 < ringCap cfg r := by
  cases r with
  | txr => exact h.txCap_pos
  | rxr => exact h.rxCap_pos

theorem LegalConfig.ringCap_le {cfg : Config} (h : LegalConfig cfg) (r : RingId) : ringCap cfg r ≤ 65535 := by
  cases r with
  | txr => exact h.txCap_le
  | rxr => exact h.rxCap_le

theorem MachineInv.setRing {s : State} (h : MachineInv s) (r : RingId) {x : RingBuf}
    (ha : ArrayInv (ringCap s.cfg r) x.cells) (hx : s.udc.inited = true → RingInv (ringCap s.cfg r) x) :
    MachineInv (s.setRing r x) := by
  obtain ⟨legal, txs, rxs, lbs, rxie, txie, hi⟩ := h
  cases r with
  | txr =>
    refine ⟨legal, ha, rxs, lbs, rxie, txie, fun h0 => ?_⟩
    obtain ⟨-, rxr, lbP_le, acc, pend, baud, ev, evtx, busy, ring⟩ := hi h0
    exact ⟨hx h0, rxr, lbP_le, acc, pend, baud, ev, evtx, busy, ring⟩
  | rxr =>
    refine ⟨legal, txs, ha, lbs, rxie, txie, fun h0 => ?_⟩
    obtain ⟨txr, -, lbP_le, acc, pend, baud, ev, evtx, busy, ring⟩ := hi h0
    exact ⟨txr, hx h0, lbP_le, acc, pend, baud, ev, evtx, busy, ring⟩

theorem MachineInv.initRing {s : State} (h : MachineInv s) (r : RingId) :
    MachineInv (s.setRing r (s.ring r).init) :=
  h.setRing r (h.ringArray r) fun _ => RingInv.init (h.legal.ringCap_pos r) _

theorem MachineInv.putRing {s : State} (h : MachineInv s) (r : RingId) (b : Byte)
    (hc : (s.ring r).cnt.toNat ≠ ringCap s.cfg r) (hw : (s.ring r).wr.toNat < ringCap s.cfg r) :
    MachineInv (s.setRing r (putBuf (ringCap s.cfg r) (s.ring r) b)) :=
  h.setRing r ((h.ringArray r).write hw b) fun h0 => (h.ringInv h0 r).put (h.legal.ringCap_le r) b hc

theorem MachineInv.getRing {s : State} (h : MachineInv s) (r : RingId) (hc : (s.ring r).cnt.toNat ≠ 0) :
    MachineInv (s.setRing r (getBuf (ringCap s.cfg r) (s.ring r))) :=
  h.setRing r (h.ringArray r) fun h0 => (h.ringInv h0 r).get (h.legal.ringCap_le r) hc

/-- INIT establishes the invariant of the registers, whatever they were (R241). -/
theorem MachineInv.initialised {s : State} (h : MachineInv s) {baud : BitVec 4} (hb : baud ∈ s.cfg.baudSet) (m : TxMode)
    (pol : RxPolicy) : MachineInv (initialised baud m pol s) where
  legal := h.legal
  txs := h.txs
  rxs := h.rxs
  lbs := h.lbs
  rxie := rfl
  txie := rfl
  inited := fun _ =>
    { txr := RingInv.init h.legal.txCap_pos _
      rxr := RingInv.init h.legal.rxCap_pos _
      lbP_le := (LineInv.armed s.cfg.lbCap s.udc.lbs).le
      accumulated := (LineInv.armed s.cfg.lbCap s.udc.lbs).accumulated
      pending := (LineInv.armed s.cfg.lbCap s.udc.lbs).pending
      baud_mem := hb
      ev_reserved := (EvLegal.zero s.cfg).1
      ev_tx := (EvLegal.zero s.cfg).2
      busy := fun h => by cases h
      ring_armed := fun _ => ⟨rfl, rfl⟩ }

end Sys2Proof.Machine
end

section
/-! PROOFS. Every step keeps the machine's invariant. -/

namespace Sys2Proof.Machine

/-- TXC keeps the invariant, whatever the transmit flag is: delivering the cause may have cleared it (R124, R227). -/
theorem MachineInv.txComplete {s t : State} (h : MachineInv s) {flag : Bool}
    (ht : txComplete { s with periph := { s.periph with txifg := flag } } = .ok t) : MachineInv t := by
  rcases txComplete_cases ht with ⟨-, rfl⟩ | ⟨b, hc, -, -, -, rfl⟩
  · have hidle : MachineInv (setBusy false { s with periph := { s.periph with txifg := flag } }) :=
      h.of_unseen rfl rfl rfl rfl fun _ hb => by cases hb
    unfold txIdle
    split
    · next he => exact hidle.orEvent (.evTx he)
    · exact hidle
  · exact (h.getRing .txr hc).of_unseen rfl rfl rfl rfl fun _ _ => .inr rfl

theorem txComplete_of_did {s t : State} (h : Did s .dispTx t) : txComplete s = .ok t :=
  finish_next (exec_of_did h)

/-- Every operation keeps the invariant. -/
theorem Did.machineInv {i : Instr} {s t : State} (hd : Did s i t) (h : MachineInv s) : MachineInv t := by
  cases hd with
  | init hi hb => exact h.initialised hb _ _
  | txbFull | txbWait | dispNone => exact h
  | txbKick hi _ _ hc hw => exact ((h.putRing .txr _ hc hw).kick).respond _ _
  | txbPut hi _ _ hc hw => exact (h.putRing .txr _ hc hw).respond _ _
  | txbDirect => exact (h.emit_txwr _).respond _ _
  | clrev => exact (h.setEv fun _ => .zero _).respond _ _
  | rearm => exact h.armLine.respond _ _
  | rxget _ hc => exact (h.getRing .rxr hc).respond _ _
  | rbInit => exact (h.initRing _).answerRing _ _ _
  | rbFull | rbEmpty => exact h.answerRing _ _ _
  | rbPut hc hw => exact (h.putRing _ _ hc hw).answerRing _ _ _
  | rbGet hc => exact (h.getRing _ hc).answerRing _ _ _
  | rxError => exact h.emit_rxrd.emit_errclr
  | rxLf => exact h.emit_rxrd
  | rxRejected | rxDropped => exact h.emit_rxrd.countOverrun
  | rxResync => exact h.emit_rxrd.countOverrun.armLine
  | rxComplete _ hp _ _ hw =>
    exact (h.emit_rxrd.setLine (h.lbs.write hw _) (fun h0 => (h.inited h0).line.complete hw)
      fun hr => by cases hp.symm.trans hr).signalLine
  | rxStore _ hp hr _ _ hw =>
    exact h.emit_rxrd.setLine (h.lbs.write hw _)
      (fun h0 => (h.inited h0).line.store (lineRejects_false.1 hr).1 h.legal.lbCap_le hw _)
      fun hr => by cases hp.symm.trans hr
  | rxDroppedCr => exact h.emit_rxrd.countOverrun.signalLine
  | rxQueued _ _ hf hw => exact h.emit_rxrd.putRing .rxr _ hf hw
  | rxQueuedCr _ _ hf hw => exact (h.emit_rxrd.putRing .rxr _ hf hw).signalLine
  | txIdle hc => exact h.txComplete (flag := s.periph.txifg) (txComplete_of_did (.txIdle hc))
  | txSend hc hr hb hs => exact h.txComplete (flag := s.periph.txifg) (txComplete_of_did (.txSend hc hr hb hs))
  | _ => exact h.respond _ _

/-- Every agent keeps the invariant. -/
theorem AgentDid.machineInv {e : Event} {s t : State} (hd : AgentDid s e t) (h : MachineInv s) : MachineInv t := by
  cases hd with
  | noProgram | noInterrupt | txdoneIdle => exact h
  | illegalWord => exact h.respond _ _
  | command _ _ hx => exact hx.machineInv h
  | receive _ _ hx => exact hx.machineInv h
  | transmit _ _ _ hx => exact h.txComplete (txComplete_of_did hx)
  | txdone => exact h.of_unseen rfl rfl rfl rfl fun _ _ => .inl rfl
  | rxin => exact h.of_same_engine rfl rfl rfl rfl rfl rfl
  | cause hx => exact hx.machineInv h
  | ringOp _ hx => exact hx.machineInv h
  | ringIllegal => exact h.answerRing _ _ _
  | busWrite | busRead => exact h.of_same_engine rfl rfl rfl rfl rfl rfl

/-- Settles O43: the invariant is kept by every agent, and does not look at the schedule. -/
theorem stepKeepsInvariant : Obligations.StepKeepsInvariant := by
  intro s t h hstep
  obtain ⟨-, ⟨-, rfl⟩ | ⟨e, es, -, hd⟩⟩ := step_did hstep
  · exact h
  · have hs : MachineInv { s with sched := es } := h.of_same_engine rfl rfl rfl rfl rfl rfl
    exact hd.machineInv hs

end Sys2Proof.Machine
end

section
/-! PROOFS. Which registers an operation can write, and what an INIT that completes is. -/

namespace Sys2Proof.Machine

/-! ### Registers beside the rings -/

@[simp] theorem setRing_inited (s : State) (r : RingId) (x : RingBuf) : (s.setRing r x).udc.inited = s.udc.inited := by
  cases r <;> rfl

@[simp] theorem setRing_lbs (s : State) (r : RingId) (x : RingBuf) : (s.setRing r x).udc.lbs = s.udc.lbs := by
  cases r <;> rfl

@[simp] theorem setRing_lbEn (s : State) (r : RingId) (x : RingBuf) : (s.setRing r x).udc.lbEn = s.udc.lbEn := by
  cases r <;> rfl

@[simp] theorem setRing_ovr (s : State) (r : RingId) (x : RingBuf) : (s.setRing r x).udc.ovr = s.udc.ovr := by
  cases r <;> rfl

@[simp] theorem initialised_cfg (baud : BitVec 4) (m : TxMode) (pol : RxPolicy) (s : State) :
    (initialised baud m pol s).cfg = s.cfg := rfl

@[simp] theorem initialised_udc (baud : BitVec 4) (m : TxMode) (pol : RxPolicy) (s : State) :
    (initialised baud m pol s).udc = initUdc baud m pol s.udc := rfl

@[simp] theorem initialised_trace (baud : BitVec 4) (m : TxMode) (pol : RxPolicy) (s : State) :
    (initialised baud m pol s).trace = s.trace ++ [.baudsel baud, initEnables m] := by
  simp [initialised]

/-! ### INIT -/

/-- An operation that is INIT of a supported rate with a built-in policy: the one that completes (R191). -/
def CompletesInit (s : State) (i : Instr) : Prop := ∃ baud m pol, IsInitOf i baud m pol ∧ baud ∈ s.cfg.baudSet

/-- The next step is an INIT that completes exactly where the operation it runs is one. -/
theorem nextInitialises_iff {s : State} : nextInitialises s ↔ ∃ i, nextInstr s = some i ∧ CompletesInit s i := by
  constructor
  · rintro ⟨baud, m, hb, hn | hn⟩
    · exact ⟨_, hn, baud, m, .line, .inl ⟨rfl, rfl⟩, hb⟩
    · exact ⟨_, hn, baud, m, .ring, .inr ⟨rfl, rfl⟩, hb⟩
  · rintro ⟨i, hn, baud, m, pol, ⟨rfl, -⟩ | ⟨rfl, -⟩, hb⟩
    · exact ⟨baud, m, hb, .inl hn⟩
    · exact ⟨baud, m, hb, .inr hn⟩

theorem not_nextInitialises_of_none {s : State} (h : nextInstr s = none) : ¬ nextInitialises s := by
  rw [nextInitialises_iff]
  rintro ⟨i, hi, -⟩
  cases h.symm.trans hi

/-- What the operation a step runs says of the step: `u` is the state it runs from. -/
theorem nextInitialises_iff_of_some {s u : State} {i : Instr} (h : nextInstr s = some i) (hc : u.cfg = s.cfg) :
    nextInitialises s ↔ CompletesInit u i := by
  rw [nextInitialises_iff]
  unfold CompletesInit
  rw [hc]
  constructor
  · rintro ⟨j, hj, hinit⟩
    cases h.symm.trans hj
    exact hinit
  · exact fun hinit => ⟨i, h, hinit⟩

/-- An operation that completes INIT does what INIT does (R241). -/
theorem Did.eq_initialised {i : Instr} {s t : State} (hd : Did s i t) (h : CompletesInit s i) :
    ∃ baud m pol, t = initialised baud m pol s := by
  obtain ⟨baud, m, pol, hi, hb⟩ := h
  have hx := exec_of_did hd
  rw [exec_of_did (Did.init hi hb)] at hx
  exact ⟨baud, m, pol, (Host.Outcome.next.inj hx).symm⟩

/-! ### The port an operation stands on -/

theorem contextOf_decodeCause (iv : Word) : contextOf (decodeCause iv) = some .interrupt := by
  unfold decodeCause
  split
  · rfl
  · split <;> rfl

theorem plainCommand_ok {w : Word} {i j : Instr} (h : plainCommand w i = .ok j) : j = i := by
  unfold plainCommand at h
  split at h
  · exact (Except.ok.inj h).symm
  · cases h

theorem contextOf_decodeInit {w : Word} {i : Instr} (h : decodeInit w = .ok i) : contextOf i = some .mainLoop := by
  unfold decodeInit at h
  split at h
  · cases h
  · dsimp only at h
    split at h <;> cases h <;> rfl

theorem contextOf_decodeTxb {w : Word} {i : Instr} (h : decodeTxb w = .ok i) : contextOf i = some .mainLoop := by
  unfold decodeTxb at h
  split at h
  · cases h
  · split at h <;> cases h <;> rfl

theorem contextOf_decodeLbrd {w : Word} {i : Instr} (h : decodeLbrd w = .ok i) : contextOf i = some .mainLoop := by
  unfold decodeLbrd at h
  split at h <;> cases h
  rfl

/-- A command word is an operation of the main loop (R70, R219). -/
theorem contextOf_decodeCommand {w : Word} {i : Instr} (h : decodeCommand w = .ok i) :
    contextOf i = some .mainLoop := by
  unfold decodeCommand at h
  split at h
  case h_2 => exact contextOf_decodeInit h
  case h_3 => exact contextOf_decodeTxb h
  case h_7 => exact contextOf_decodeLbrd h
  case h_11 => cases h
  all_goals rw [plainCommand_ok h]; rfl

theorem contextOf_of_isInitOf {i : Instr} {baud : BitVec 4} {m : TxMode} {pol : RxPolicy}
    (h : IsInitOf i baud m pol) : contextOf i = some .mainLoop := by
  rcases h with ⟨rfl, -⟩ | ⟨rfl, -⟩ <;> rfl

theorem contextOf_of_isTxbOf {i : Instr} {d : Byte} {f : Bool} (h : IsTxbOf i d f) :
    contextOf i = some .mainLoop := by
  rcases h with ⟨rfl, -⟩ | ⟨rfl, -⟩ <;> rfl

/-- DISPATCH runs TXC, DISP.RX or nothing (R170). -/
theorem interrupt_cases {i : Instr} (h : contextOf i = some .interrupt) :
    i = .dispRx ∨ i = .dispTx ∨ ∃ iv, i = .dispNone iv := by
  cases i with
  | dispRx => exact .inl rfl
  | dispTx => exact .inr (.inl rfl)
  | dispNone iv => exact .inr (.inr ⟨iv, rfl⟩)
  | _ => cases h

end Sys2Proof.Machine
end

section
/-! PROOFS. INITED, the parameters and the trace over all steps (R8, R22, R38). -/

namespace Sys2Proof.Machine

theorem Did.cfg_eq {i : Instr} {s t : State} (h : Did s i t) : t.cfg = s.cfg := by
  cases h <;> simp

/-- Only a completing INIT writes INITED (R22). -/
theorem Did.inited_eq {i : Instr} {s t : State} (h : Did s i t) (hn : ¬ CompletesInit s i) :
    t.udc.inited = s.udc.inited := by
  cases h with
  | init hi hb => exact absurd ⟨_, _, _, hi, hb⟩ hn
  | _ => simp

theorem Did.inited_iff {i : Instr} {s t : State} (h : Did s i t) :
    t.udc.inited = true ↔ s.udc.inited = true ∨ CompletesInit s i := by
  by_cases hi : CompletesInit s i
  · obtain ⟨baud, m, pol, rfl⟩ := h.eq_initialised hi
    exact ⟨fun _ => .inr hi, fun _ => rfl⟩
  · rw [h.inited_eq hi]
    exact ⟨.inl, fun h' => h'.resolve_right hi⟩

/-- An operation only appends to the trace (R38). -/
theorem Did.trace_grows {i : Instr} {s t : State} (h : Did s i t) : s.trace <+: t.trace := by
  cases h <;> simp

/-- Settles O56: a step runs no operation or the one `nextInstr` names, and only a completing INIT writes INITED. -/
theorem configAndInitedPersist : Obligations.ConfigAndInitedPersist := by
  refine ⟨fun _ => rfl, fun s t hstep => ?_⟩
  rcases step_runs hstep with ⟨hn, hu, htr, hc⟩ | ⟨i, u, hn, hd, hu, htr, hc, -⟩
  · rw [hu, htr]
    exact ⟨hc, id, fun h0 => by simp [h0, not_nextInitialises_of_none hn], [], (List.append_nil _).symm⟩
  · rw [nextInitialises_iff_of_some hn hc, hd.inited_iff, hu]
    obtain ⟨out, ho⟩ := hd.trace_grows
    exact ⟨hd.cfg_eq.trans hc, .inl, fun h0 => by simp [h0], out, by rw [← ho, htr]⟩

end Sys2Proof.Machine
end

section
/-! PROOFS. The completion latch (R32, R143, R147, R148). -/

namespace Sys2Proof.Machine

/-- What may open the latch: REARM, a completing INIT, or a CR met by DISP.RX in LINE policy (R32). -/
def OpensLatch (s : State) (i : Instr) : Prop :=
  i = .rearm ∨ CompletesInit s i ∨
    (i = .dispRx ∧ s.udc.rxPol = .line ∧ s.periph.rxe = false ∧ s.periph.rxb = charCR)

/-- Everything an operation can do to the latch and LBS: leave both, open the latch leaving LBS, keep it open (a byte
may be stored), or close it with an accepted CR (R142, R143). -/
theorem Did.latch_cases {i : Instr} {s t : State} (h : Did s i t) :
    (t.udc.lbEn = s.udc.lbEn ∧ t.udc.lbs = s.udc.lbs) ∨
    (OpensLatch s i ∧ t.udc.lbEn = true ∧ t.udc.lbs = s.udc.lbs) ∨
    (s.udc.lbEn = true ∧ t.udc.lbEn = true) ∨
    (i = .dispRx ∧ s.udc.rxPol = .line ∧ s.periph.rxe = false ∧ s.periph.rxb = charCR ∧ s.udc.lbEn = true ∧
      s.udc.lbP.toNat ≠ s.cfg.lbCap) := by
  cases h with
  | init hi hb => exact .inr (.inl ⟨.inr (.inl ⟨_, _, _, hi, hb⟩), rfl, rfl⟩)
  | rearm => exact .inr (.inl ⟨.inl rfl, rfl, rfl⟩)
  | rxResync he hp _ hc => exact .inr (.inl ⟨.inr (.inr ⟨rfl, hp, he, hc⟩), rfl, rfl⟩)
  | rxStore _ _ hr =>
    obtain ⟨harmed, -⟩ := lineRejects_false.1 hr
    exact .inr (.inr (.inl ⟨harmed, harmed⟩))
  | rxComplete he hp hr hc =>
    obtain ⟨harmed, hroom⟩ := lineRejects_false.1 hr
    exact .inr (.inr (.inr ⟨rfl, hp, he, hc, harmed, hroom⟩))
  | _ => exact .inl (by simp)

/-- Only TXC may find a flag cleared by its delivery: DISP.RX sees the peripheral as it was (R227). -/
theorem step_periph_of_dispRx {i : Instr} {s u : State}
    (h : u.periph = s.periph ∨ (i = .dispTx ∧ u.periph = { s.periph with txifg := false })) (hi : i = .dispRx) :
    u.periph = s.periph :=
  h.resolve_right fun ⟨hx, _⟩ => by cases hi.symm.trans hx

/-- Settles O51: by what the operation of the step does to the latch; a step that runs none leaves the UDC as it was. -/
theorem completionLatch : Obligations.CompletionLatch := by
  intro s t hstep
  rcases step_runs hstep with ⟨-, hu, -⟩ | ⟨i, u, hn, hd, hu, -, hc, -, hp⟩
  · rw [hu]
    exact ⟨fun h h' => Bool.noConfusion (h.symm.trans h'), fun h h' => Bool.noConfusion (h.symm.trans h'), fun _ => rfl⟩
  · rw [nextInitialises_iff_of_some hn hc, hn, ← hu, ← hc]
    rcases hd.latch_cases with ⟨hen, hlbs⟩ | ⟨hopen, hen, hlbs⟩ | ⟨hen, hen'⟩ | ⟨hi, hpol, hrxe, hcr, hen, hroom⟩
    · rw [hen]
      exact ⟨fun h h' => Bool.noConfusion (h.symm.trans h'), fun h h' => Bool.noConfusion (h.symm.trans h'),
        fun _ => hlbs⟩
    · refine ⟨fun _ h => Bool.noConfusion (hen.symm.trans h), fun _ _ => ?_, fun _ => hlbs⟩
      rcases hopen with hi | hi | ⟨hi, hpol, hrxe, hcr⟩
      · exact .inl (congrArg some hi)
      · exact .inr (.inl hi)
      · rw [← step_periph_of_dispRx hp hi]
        exact .inr (.inr ⟨congrArg some hi, hpol, hrxe, hcr⟩)
    · exact ⟨fun _ h => Bool.noConfusion (hen'.symm.trans h), fun h => Bool.noConfusion (hen.symm.trans h),
        fun h => Bool.noConfusion (hen.symm.trans h)⟩
    · rw [← step_periph_of_dispRx hp hi]
      exact ⟨fun _ _ => ⟨congrArg some hi, hpol, hrxe, hcr, hroom⟩, fun h => Bool.noConfusion (hen.symm.trans h),
        fun h => Bool.noConfusion (hen.symm.trans h)⟩

end Sys2Proof.Machine
end

section
/-! PROOFS. The overrun counter (R34, R211, R212). -/

namespace Sys2Proof.Machine

/-- The byte in the latch is rejected by the line assembler or dropped by a full ring (ERR_C, ERR_D; R211). -/
def RejectsByte (s : State) : Prop := receiveError s = some .errC ∨ receiveError s = some .errD

theorem not_rejectsByte_of_rxe {s : State} (h : s.periph.rxe = true) : ¬ RejectsByte s := by
  simp [RejectsByte, receiveError, h]

theorem rejectsByte_line {s : State} (he : s.periph.rxe = false) (hp : s.udc.rxPol = .line) :
    RejectsByte s ↔ s.periph.rxb ≠ charLF ∧ lineRejects s = true := by
  rw [lineRejects_true]
  cases hl : s.udc.lbEn <;> simp [RejectsByte, receiveError, he, hp, hl]

theorem rejectsByte_ring {s : State} (he : s.periph.rxe = false) (hp : s.udc.rxPol = .ring) :
    RejectsByte s ↔ s.udc.rxr.cnt.toNat = s.cfg.rxCap := by
  simp [RejectsByte, receiveError, he, hp]

/-- DISP.RX counts a rejected byte (R143, R146, R211). -/
theorem Did.ovr_of_rejects {s t : State} (h : Did s .dispRx t) (hr : RejectsByte s) :
    t.udc.ovr = s.udc.ovr + 1 := by
  cases h with
  | notInit hi => cases hi
  | init hi | badRate hi => cases contextOf_of_isInitOf hi
  | txbFull hi | txbKick hi | txbPut hi | txbWait hi | txbDirect hi => cases contextOf_of_isTxbOf hi
  | rxError he => exact absurd hr (not_rejectsByte_of_rxe he)
  | rxLf he hp hb => exact absurd hb ((rejectsByte_line he hp).1 hr).1
  | rxRejected | rxResync | rxDropped => rfl
  | rxDroppedCr => simp
  | rxComplete he hp hj | rxStore he hp hj => cases hj.symm.trans ((rejectsByte_line he hp).1 hr).2
  | rxQueued he hp hf | rxQueuedCr he hp hf => exact absurd ((rejectsByte_ring he hp).1 hr) hf

/-- Nothing but INIT and a rejected byte changes OVR (R34, R212). -/
theorem Did.ovr_eq {i : Instr} {s t : State} (h : Did s i t) (hi : ¬ CompletesInit s i)
    (hr : ¬ (i = .dispRx ∧ RejectsByte s)) : t.udc.ovr = s.udc.ovr := by
  cases h with
  | init h hb => exact absurd ⟨_, _, _, h, hb⟩ hi
  | rxRejected he hp hb hj => exact absurd ⟨rfl, (rejectsByte_line he hp).2 ⟨hb, hj⟩⟩ hr
  | rxResync he hp hj hc =>
    exact absurd ⟨rfl, (rejectsByte_line he hp).2 ⟨by rw [hc]; decide, hj⟩⟩ hr
  | rxDropped he hp hf | rxDroppedCr he hp hf => exact absurd ⟨rfl, (rejectsByte_ring he hp).2 hf⟩ hr
  | _ => simp

theorem receiveError_congr {s u : State} (hu : u.udc = s.udc) (hp : u.periph = s.periph) (hc : u.cfg = s.cfg) :
    receiveError u = receiveError s := by
  unfold receiveError
  rw [hu, hp, hc]

/-- Settles O52: a completing INIT clears OVR, a rejected byte counts, and no other operation writes it. -/
theorem overrunCountsRejectedBytes : Obligations.OverrunCountsRejectedBytes := by
  intro s t hstep
  -- the obligation's two error classes, by name
  change _ ∧ (_ → RejectsByte s → _) ∧ (_ → ¬ (_ ∧ RejectsByte s) → _)
  rcases step_runs hstep with ⟨hn, hu, -⟩ | ⟨i, u, hn, hd, hu, -, hc, -, hp⟩
  · rw [hu, hn]
    exact ⟨fun h => absurd h (not_nextInitialises_of_none hn), fun h => (by cases h), fun _ _ => rfl⟩
  · have hrej : i = .dispRx → (RejectsByte u ↔ RejectsByte s) := fun hi => by
      unfold RejectsByte
      rw [receiveError_congr hu (step_periph_of_dispRx hp hi) hc]
    rw [nextInitialises_iff_of_some hn hc, hn, ← hu]
    refine ⟨fun hi => ?_, fun hi hr => ?_, fun hi hr => hd.ovr_eq hi fun ⟨hx, hr'⟩ => ?_⟩
    · obtain ⟨baud, m, pol, rfl⟩ := hd.eq_initialised hi
      rfl
    · cases hi
      exact hd.ovr_of_rejects ((hrej rfl).2 hr)
    · exact hr ⟨congrArg some hx, (hrej hx).1 hr'⟩

end Sys2Proof.Machine
end

section
/-! PROOFS. Which agent writes what (R28, R37, R107). -/

namespace Sys2Proof.Machine

/-- What DISP never writes: the configuration, TXR's write side, RXR's read cursor, the host (R37). -/
structure DispKeeps (s t : State) : Prop where
  inited : t.udc.inited = s.udc.inited
  txMode : t.udc.txMode = s.udc.txMode
  rxPol : t.udc.rxPol = s.udc.rxPol
  baud : t.udc.baud = s.udc.baud
  txrWr : t.udc.txr.wr = s.udc.txr.wr
  txrCells : t.udc.txr.cells = s.udc.txr.cells
  rxrRd : t.udc.rxr.rd = s.udc.rxr.rd
  host : t.host = s.host

/-- What HOST writes in no command but a completing INIT (R37). -/
structure CommandKeeps (s t : State) : Prop where
  txrRd : t.udc.txr.rd = s.udc.txr.rd
  rxrWr : t.udc.rxr.wr = s.udc.rxr.wr
  ovr : t.udc.ovr = s.udc.ovr
  inited : t.udc.inited = s.udc.inited
  txMode : t.udc.txMode = s.udc.txMode
  rxPol : t.udc.rxPol = s.udc.rxPol
  baud : t.udc.baud = s.udc.baud

theorem DispKeeps.refl (s : State) : DispKeeps s s := ⟨rfl, rfl, rfl, rfl, rfl, rfl, rfl, rfl⟩

theorem CommandKeeps.of_udc_eq {s t : State} (h : t.udc = s.udc) : CommandKeeps s t := by
  constructor <;> rw [h]

theorem CommandKeeps.of_start {s u t : State} (h : CommandKeeps u t) (hu : u.udc = s.udc) : CommandKeeps s t := by
  constructor <;> rw [← hu]
  exacts [h.txrRd, h.rxrWr, h.ovr, h.inited, h.txMode, h.rxPol, h.baud]

/-- An operation of DISP writes none of them (R171-R173). -/
theorem Did.dispKeeps {i : Instr} {s t : State} (h : Did s i t) (hi : contextOf i = some .interrupt) :
    DispKeeps s t := by
  cases h with
  | notInit hx => rcases interrupt_cases hi with rfl | rfl | ⟨iv, rfl⟩ <;> cases hx
  | init hx | badRate hx => cases hi.symm.trans (contextOf_of_isInitOf hx)
  | txbFull hx | txbKick hx | txbPut hx | txbWait hx | txbDirect hx => cases hi.symm.trans (contextOf_of_isTxbOf hx)
  | rxError | rxLf | rxRejected | rxResync | rxComplete | rxStore | rxDropped | rxDroppedCr | rxQueued | rxQueuedCr |
    txIdle | txSend | dispNone => constructor <;> simp
  | _ => cases hi

/-- A command writes neither LBS nor RXS, and but for a completing INIT no field of DISP and no configuration (R37). -/
theorem Did.command_frame {i : Instr} {s t : State} (h : Did s i t) (hi : contextOf i = some .mainLoop) :
    t.udc.lbs = s.udc.lbs ∧ t.udc.rxr.cells = s.udc.rxr.cells ∧ (¬ CompletesInit s i → CommandKeeps s t) := by
  cases h with
  | init hx hb => exact ⟨rfl, rfl, fun hn => absurd ⟨_, _, _, hx, hb⟩ hn⟩
  | rbInit | rbFull | rbPut | rbEmpty | rbGet => cases hi
  | rxError | rxLf | rxRejected | rxResync | rxComplete | rxStore | rxDropped | rxDroppedCr | rxQueued | rxQueuedCr |
    txIdle | txSend | dispNone => cases hi
  | _ => exact ⟨by simp, by simp, fun _ => by constructor <;> simp⟩

theorem AgentDid.dispKeeps {e : Event} {s t : State} (h : AgentDid s e t) (he : e = .disp ∨ ∃ iv, e = .cause iv) :
    DispKeeps s t := by
  cases h with
  | noInterrupt => exact .refl s
  | receive _ _ hx => exact hx.dispKeeps rfl
  | transmit _ _ _ hx =>
    have hk := hx.dispKeeps rfl
    exact ⟨hk.inited, hk.txMode, hk.rxPol, hk.baud, hk.txrWr, hk.txrCells, hk.rxrRd, hk.host⟩
  | cause hx => exact hx.dispKeeps (contextOf_decodeCause _)
  | _ => rcases he with he | ⟨iv, he⟩ <;> cases he

/-- PERIPH and the bus write no register of the UDC and no output event (R37). -/
theorem AgentDid.outside_udc_trace {e : Event} {s t : State} (h : AgentDid s e t)
    (he : e = .txdone ∨ (∃ b f, e = .rxin b f) ∨ ∃ a op, e = .bus a op) : t.udc = s.udc ∧ t.trace = s.trace := by
  cases h with
  | txdoneIdle | txdone | rxin | busWrite | busRead => exact ⟨rfl, rfl⟩
  | _ => rcases he with he | ⟨b, f, he⟩ | ⟨a, op, he⟩ <;> cases he

/-- The operation of a HOST step is a command (R70). -/
theorem contextOf_of_host {s : State} {es : List Event} {i : Instr} (hs : s.sched = .host :: es)
    (h : nextInstr s = some i) : contextOf i = some .mainLoop := by
  simp only [nextInstr, hs, Option.bind_eq_some_iff] at h
  obtain ⟨w, -, hw⟩ := h
  cases hd : decodeCommand w with
  | error e => rw [hd] at hw; cases hw
  | ok j =>
    rw [hd] at hw
    cases hw
    exact contextOf_decodeCommand hd

theorem step_host_frame {s t : State} {es : List Event} (hs : s.sched = .host :: es) (hstep : step s = .next t) :
    t.udc.lbs = s.udc.lbs ∧ t.udc.rxr.cells = s.udc.rxr.cells ∧ (¬ nextInitialises s → CommandKeeps s t) := by
  rcases step_runs hstep with ⟨-, hu, -⟩ | ⟨i, u, hn, hd, hu, -, hc, -⟩
  · exact ⟨by rw [hu], by rw [hu], fun _ => .of_udc_eq hu⟩
  · obtain ⟨hlbs, hcells, hkeeps⟩ := hd.command_frame (contextOf_of_host hs hn)
    rw [← hu, nextInitialises_iff_of_some hn hc]
    exact ⟨hlbs, hcells, fun hni => (hkeeps hni).of_start hu⟩

/-- Settles O55: by the agent whose turn it is, and for HOST by the command it performs. -/
theorem singleWriters : Obligations.SingleWriters := by
  intro s t e es hs hstep
  obtain ⟨-, ⟨h', -⟩ | ⟨e', es', h', hd⟩⟩ := step_did hstep
  · cases hs.symm.trans h'
  · cases hs.symm.trans h'
    refine ⟨fun he => ?_, fun he => ?_, fun he => hd.outside_udc_trace he⟩
    · have hk := hd.dispKeeps he
      exact ⟨hk.inited, hk.txMode, hk.rxPol, hk.baud, hk.txrWr, hk.txrCells, hk.rxrRd, hk.host⟩
    · subst he
      obtain ⟨hlbs, hcells, hkeeps⟩ := step_host_frame hs hstep
      refine ⟨hlbs, hcells, fun hni => ?_⟩
      have hk := hkeeps hni
      exact ⟨hk.txrRd, hk.rxrWr, hk.ovr, hk.inited, hk.txMode, hk.rxPol, hk.baud⟩

end Sys2Proof.Machine
end

section
/-! PROOFS. Bytes leave in the order they were accepted (R60, R106, R127). -/

namespace Sys2Proof.Machine

/-! ### The bytes of a trace -/

@[simp] theorem sentBytes_append (tr out : List OutEvent) : sentBytes (tr ++ out) = sentBytes tr ++ sentBytes out :=
  List.filterMap_append

@[simp] theorem sentBytes_nil : sentBytes [] = [] := rfl

@[simp] theorem sentBytes_txwr_cons (b : Byte) (tr : List OutEvent) :
    sentBytes (.txwr b :: tr) = b :: sentBytes tr := rfl

@[simp] theorem sentBytes_other_cons {e : OutEvent} (h : ∀ b, e ≠ .txwr b) (tr : List OutEvent) :
    sentBytes (e :: tr) = sentBytes tr := by
  cases e with
  | txwr b => exact absurd rfl (h b)
  | _ => rfl

/-- WAKE, where the target has it, is no byte sent (R231). -/
@[simp] theorem sentBytes_signalLine (s : State) : sentBytes (signalLine s).trace = sentBytes s.trace := by
  rw [signalLine_trace, sentBytes_append]
  split <;> exact List.append_nil _

/-! ### The byte a TXB hands over -/

/-- The operation is a TXB that completes with byte `d`: there is room in INTR mode, or the slot is free in POLLED mode
(R121, R122, R126). -/
def AcceptsByte (s : State) (i : Instr) (d : Byte) : Prop :=
  (∃ f, IsTxbOf i d f) ∧ s.udc.inited = true ∧
    ((s.udc.txMode = .intr ∧ s.udc.txr.cnt.toNat ≠ s.cfg.txCap) ∨
      (s.udc.txMode = .polled ∧ s.periph.slot = none))

theorem acceptsByte_congr {s u : State} (hu : u.udc = s.udc) (hc : u.cfg = s.cfg)
    (hp : u.periph.slot = s.periph.slot) (i : Instr) (d : Byte) : AcceptsByte u i d ↔ AcceptsByte s i d := by
  unfold AcceptsByte
  rw [hu, hc, hp]

/-- Only a TXB accepts a byte. -/
theorem not_acceptsByte {s : State} {i : Instr} (h : ∀ d, i ≠ .txb d ∧ i ≠ .txbF d) (d : Byte) :
    ¬ AcceptsByte s i d := by
  rintro ⟨⟨f, ⟨hi, -⟩ | ⟨hi, -⟩⟩, -⟩
  · exact (h d).1 hi
  · exact (h d).2 hi

theorem nextAcceptedBytes_of_accepts {s : State} {i : Instr} {d : Byte} (hn : nextInstr s = some i)
    (h : AcceptsByte s i d) : nextAcceptedBytes s = [d] := by
  obtain ⟨⟨f, ⟨rfl, -⟩ | ⟨rfl, -⟩⟩, h0, ⟨hm, hroom⟩ | ⟨hm, hroom⟩⟩ := h <;>
    simp [nextAcceptedBytes, hn, h0, hm, hroom]

theorem nextAcceptedBytes_of_none {s : State} (hn : nextInstr s = none) : nextAcceptedBytes s = [] := by
  simp [nextAcceptedBytes, hn]

theorem nextAcceptedBytes_of_not_accepts {s : State} {i : Instr} (hn : nextInstr s = some i)
    (h : ∀ d, ¬ AcceptsByte s i d) : nextAcceptedBytes s = [] := by
  have htxb : ∀ d f, IsTxbOf i d f → nextAcceptedBytes s = [] := by
    intro d f hi
    cases h0 : s.udc.inited with
    | false => rcases hi with ⟨rfl, -⟩ | ⟨rfl, -⟩ <;> simp [nextAcceptedBytes, hn, h0]
    | true =>
      cases hm : s.udc.txMode with
      | intr =>
        have hfull : s.udc.txr.cnt.toNat = s.cfg.txCap :=
          by_contra fun hroom => h d ⟨⟨f, hi⟩, h0, .inl ⟨hm, hroom⟩⟩
        rcases hi with ⟨rfl, -⟩ | ⟨rfl, -⟩ <;> simp [nextAcceptedBytes, hn, hm, hfull]
      | polled =>
        have hbusy : s.periph.slot.isSome :=
          Option.isSome_iff_ne_none.2 fun hfree => h d ⟨⟨f, hi⟩, h0, .inr ⟨hm, hfree⟩⟩
        rcases hi with ⟨rfl, -⟩ | ⟨rfl, -⟩ <;> simp [nextAcceptedBytes, hn, hm, hbusy]
  cases i with
  | txb d => exact htxb d false (.inl ⟨rfl, rfl⟩)
  | txbF d => exact htxb d true (.inr ⟨rfl, rfl⟩)
  | _ => simp [nextAcceptedBytes, hn]

/-! ### What an operation does to the bytes sent and queued -/

/-- The bytes written by TXWR, followed by those queued in TXR (R127). -/
def sentAndQueued (s : State) : List Byte := sentBytes s.trace ++ s.udc.txr.contents s.cfg.txCap

/-- In every operation of HOST or DISP but a completing INIT, the bytes sent and queued grow by the accepted byte
only (R127). -/
theorem Did.sentAndQueued_cases {i : Instr} {s t : State} (hd : Did s i t) (hr : RingInv s.cfg.txCap s.udc.txr)
    (hc : s.cfg.txCap ≤ 65535) (hp : s.udc.txMode = .polled → s.udc.txr.cnt.toNat = 0) (hi : contextOf i ≠ none)
    (hn : ¬ CompletesInit s i) :
    (∃ d, AcceptsByte s i d ∧ sentAndQueued t = sentAndQueued s ++ [d]) ∨
    ((∀ d, ¬ AcceptsByte s i d) ∧ sentAndQueued t = sentAndQueued s) := by
  cases hd with
  | notInit _ h0 => exact .inr ⟨fun d ⟨_, h, _⟩ => Bool.noConfusion (h0.symm.trans h), rfl⟩
  | init hx hb => exact absurd ⟨_, _, _, hx, hb⟩ hn
  | badRate hx =>
    refine .inr ⟨not_acceptsByte ?_, rfl⟩
    rcases hx with ⟨rfl, -⟩ | ⟨rfl, -⟩ <;> simp
  | txbFull _ _ hm hfull =>
    exact .inr ⟨fun d ⟨_, _, h⟩ => by simp [hm, hfull] at h, rfl⟩
  | txbWait _ _ hm hs =>
    exact .inr ⟨fun d ⟨_, _, h⟩ => by simp [hm, Option.isSome_iff_ne_none.1 hs] at h, rfl⟩
  | txbKick hx h0 hm hroom hw hk =>
    refine .inl ⟨_, ⟨⟨_, hx⟩, h0, .inl ⟨hm, hroom⟩⟩, ?_⟩
    simp [sentAndQueued, putBuf, hr.contents_put hc _ hroom]
  | txbPut hx h0 hm hroom hw hk =>
    refine .inl ⟨_, ⟨⟨_, hx⟩, h0, .inl ⟨hm, hroom⟩⟩, ?_⟩
    simp [sentAndQueued, putBuf, hr.contents_put hc _ hroom]
  | txbDirect hx h0 hm hs =>
    refine .inl ⟨_, ⟨⟨_, hx⟩, h0, .inr ⟨hm, hs⟩⟩, ?_⟩
    simp [sentAndQueued, RingBuf.contents_empty (hp hm)]
  | txSend hne _ hb =>
    exact .inr ⟨not_acceptsByte (by simp), by simp [sentAndQueued, getBuf, hr.contents_get hc hne hb]⟩
  | rbInit | rbFull | rbPut | rbEmpty | rbGet => exact absurd rfl hi
  | _ => exact .inr ⟨not_acceptsByte (by simp), by simp [sentAndQueued, -signalLine_trace]⟩

/-- The operation of a contract step is a command or an interrupt (R70, R170). -/
theorem contextOf_of_inContract {s : State} {e : Event} {es : List Event} {i : Instr} (hs : s.sched = e :: es)
    (he : e.inContract = true) (hn : nextInstr s = some i) : contextOf i ≠ none := by
  cases e with
  | host => rw [contextOf_of_host hs hn]; exact Option.some_ne_none _
  | disp =>
    simp only [nextInstr, hs, Option.map_eq_some_iff] at hn
    obtain ⟨p, -, rfl⟩ := hn
    rw [contextOf_decodeCause]
    exact Option.some_ne_none _
  | cause | ring => cases he
  | txdone | rxin | bus => simp [nextInstr, hs] at hn

/-- Settles O47: by what the operation of the step does to the bytes sent and queued. -/
theorem transmitOrderPreserved : Obligations.TransmitOrderPreserved := by
  intro s t e es h hunused h0 hs he hni hstep
  change sentAndQueued t = sentAndQueued s ++ nextAcceptedBytes s
  rcases step_runs hstep with ⟨hn, hu, htr, hc⟩ | ⟨i, u, hn, hd, hu, htr, hc, -, hp⟩
  · rw [nextAcceptedBytes_of_none hn, List.append_nil, sentAndQueued, hu, htr, hc]
    rfl
  · have hslot : u.periph.slot = s.periph.slot := by
      rcases hp with hp | ⟨-, hp⟩ <;> rw [hp]
    have hring : RingInv u.cfg.txCap u.udc.txr := by rw [hc, hu]; exact (h.inited h0).txr
    have hcap : u.cfg.txCap ≤ 65535 := by rw [hc]; exact h.legal.txCap_le
    have hempty : u.udc.txMode = .polled → u.udc.txr.cnt.toNat = 0 := by
      rw [hu]; exact fun hm => by rw [((hunused h0).2 hm).1]; rfl
    have hsame : sentAndQueued u = sentAndQueued s := by rw [sentAndQueued, hu, htr, hc]; rfl
    have hninit : ¬ CompletesInit u i := fun hx => hni ((nextInitialises_iff_of_some hn hc).2 hx)
    rw [← hsame]
    have hctx := contextOf_of_inContract hs he hn
    rcases hd.sentAndQueued_cases hring hcap hempty hctx hninit with ⟨d, ha, heq⟩ | ⟨ha, heq⟩
    · rw [heq, nextAcceptedBytes_of_accepts hn ((acceptsByte_congr hu hc hslot i d).1 ha)]
    · rw [heq, nextAcceptedBytes_of_not_accepts hn fun d hx => ha d ((acceptsByte_congr hu hc hslot i d).2 hx),
        List.append_nil]

end Sys2Proof.Machine
end

section
/-! PROOFS. The line assembler over sequences of bytes (R140, R142, R144, R145). -/

namespace Sys2Proof.Machine

/-! ### Bytes stored one after the other -/

/-- An array with the bytes of a list written from index `i` on. -/
def Memory.writeFrom (m : Memory) (i : Nat) : List Byte → Memory
  | [] => m
  | b :: bs => Memory.writeFrom (m.write i b) (i + 1) bs

@[simp] theorem Memory.writeFrom_cons (m : Memory) (i : Nat) (b : Byte) (bs : List Byte) :
    Memory.writeFrom m i (b :: bs) = Memory.writeFrom (m.write i b) (i + 1) bs := rfl

theorem Memory.read_writeFrom_outside (bs : List Byte) (m : Memory) {i j : Nat} (h : j < i ∨ i + bs.length ≤ j) :
    Memory.read (Memory.writeFrom m i bs) j = Memory.read m j := by
  induction bs generalizing m i with
  | nil => rfl
  | cons b bs ih =>
    rw [List.length_cons] at h
    rw [Memory.writeFrom_cons, ih _ (by omega), Memory.read_write_other _ _ (by omega)]

theorem Memory.read_writeFrom (bs : List Byte) (m : Memory) (i : Nat) {k : Nat} (hk : k < bs.length) :
    Memory.read (Memory.writeFrom m i bs) (i + k) = bs[k]? := by
  induction bs generalizing m i k with
  | nil => cases hk
  | cons b bs ih =>
    rw [Memory.writeFrom_cons]
    cases k with
    | zero => rw [Memory.read_writeFrom_outside _ _ (by omega), Nat.add_zero, Memory.read_write_same]; rfl
    | succ k =>
      have hk' : k < bs.length := Nat.lt_of_succ_lt_succ hk
      rw [← Nat.add_assoc, Nat.add_right_comm, ih _ _ hk']
      rfl

/-- A consumer reads the cells of a line up to its 0x00 (R84, R145). -/
theorem lineFrom_of_read (acc : List Byte) (m : Memory) {i n : Nat} (hn : acc.length < n) (h0 : 0x00#8 ∉ acc)
    (hread : ∀ k ≤ acc.length, m.read (i + k) = (acc ++ [0x00#8])[k]?) : lineFrom m i n = some acc := by
  induction acc generalizing i n with
  | nil =>
    obtain ⟨n, rfl⟩ := Nat.exists_eq_succ_of_ne_zero (Nat.ne_zero_of_lt hn)
    have hend : m.read i = some 0x00#8 := hread 0 le_rfl
    simp [lineFrom, hend]
  | cons b bs ih =>
    obtain ⟨n, rfl⟩ := Nat.exists_eq_succ_of_ne_zero (Nat.ne_zero_of_lt hn)
    obtain ⟨hb, h0⟩ := List.ne_and_not_mem_of_not_mem_cons h0
    have hfirst : m.read i = some b := hread 0 (Nat.zero_le _)
    have hrest : lineFrom m (i + 1) n = some bs := ih (Nat.lt_of_succ_lt_succ hn) h0 fun k hk => by
      rw [Nat.add_right_comm]
      exact hread (k + 1) (Nat.succ_le_succ hk)
    simp [lineFrom, hfirst, Ne.symm hb, hrest]

/-! ### Feeding bytes to the assembler -/

theorem feedLine_cons_of {b : Byte} {bs : List Byte} {s u t : State} {d : Bool} {ds : List Bool}
    (hb : rxLine b s = .ok (d, u)) (hbs : feedLine bs u = .ok (ds, t)) :
    feedLine (b :: bs) s = .ok (d :: ds, t) := by
  simp [feedLine, hb, hbs, Except.map]

/-- The bytes the assembler keeps of a sequence without a CR: all but the LFs (R144). -/
def lineBytes (bs : List Byte) : List Byte := bs.filter (fun b => b != charLF)

@[simp] theorem lineBytes_lf_cons (bs : List Byte) : lineBytes (charLF :: bs) = lineBytes bs := by simp [lineBytes]

theorem lineBytes_cons {b : Byte} (h : b ≠ charLF) (bs : List Byte) : lineBytes (b :: bs) = b :: lineBytes bs := by
  simp [lineBytes, h]

/-- The assembler closed, with the bytes of a list and a 0x00 stored from its cursor on (R142). -/
def lineClosed (acc : List Byte) (s : State) : State :=
  { s with udc := { s.udc with
      lbs := Memory.writeFrom s.udc.lbs s.udc.lbP.toNat (acc ++ [0x00#8]), lbEn := false, lbP := 0 } }

/-- An armed assembler stores what fits and closes on the CR, which alone signals (R142, R144). -/
theorem feedLine_closes (bs : List Byte) {s : State} (hcap : s.cfg.lbCap ≤ 255) (hen : s.udc.lbEn = true)
    (hcr : charCR ∉ bs) (hfit : s.udc.lbP.toNat + (lineBytes bs).length < s.cfg.lbCap) :
    feedLine (bs ++ [charCR]) s = .ok (List.replicate bs.length false ++ [true], lineClosed (lineBytes bs) s) := by
  induction bs generalizing s with
  | nil =>
    have hroom : s.udc.lbP.toNat < s.cfg.lbCap := hfit
    exact feedLine_cons_of (rxLine_complete (lineRejects_false.2 ⟨hen, Nat.ne_of_lt hroom⟩) hroom) rfl
  | cons b bs ih =>
    obtain ⟨hb, hcr'⟩ := List.ne_and_not_mem_of_not_mem_cons hcr
    by_cases hlf : b = charLF
    · subst hlf
      rw [lineBytes_lf_cons] at hfit ⊢
      exact feedLine_cons_of (rxLine_lf s) (ih hcap hen hcr' hfit)
    · rw [lineBytes_cons hlf] at hfit ⊢
      rw [List.length_cons] at hfit
      have hroom : s.udc.lbP.toNat < s.cfg.lbCap := by omega
      have hnext : (BitVec.ofNat 8 (s.udc.lbP.toNat + 1)).toNat = s.udc.lbP.toNat + 1 := by
        rw [BitVec.toNat_ofNat]; exact Nat.mod_eq_of_lt (by omega)
      have hstore := rxLine_store hlf (Ne.symm hb) (lineRejects_false.2 ⟨hen, Nat.ne_of_lt hroom⟩) hroom
      have hclosed := feedLine_cons_of hstore (ih hcap hen hcr' (by simp only [hnext]; omega))
      simpa only [lineClosed, hnext, List.length_cons, List.replicate_succ, List.cons_append, Memory.writeFrom_cons]
        using hclosed

/-- Settles O39: what the assembler has stored from index 0 on is read back cell by cell. -/
theorem lineIsAssembled : Obligations.LineIsAssembled := by
  intro s bs acc hlegal hen hp hcr hacc hfit
  obtain rfl : acc = lineBytes bs := hacc
  have hp0 : s.udc.lbP.toNat = 0 := by rw [hp]; rfl
  have hlbs : (lineClosed (lineBytes bs) s).udc.lbs = Memory.writeFrom s.udc.lbs 0 (lineBytes bs ++ [0x00#8]) := by
    rw [lineClosed, hp0]
  have hlen : (lineBytes bs ++ [0x00#8]).length = (lineBytes bs).length + 1 := List.length_append
  have hcell : ∀ k ≤ (lineBytes bs).length,
      (lineClosed (lineBytes bs) s).udc.lbs.read (0 + k) = (lineBytes bs ++ [0x00#8])[k]? := fun k hk => by
    rw [hlbs, Memory.read_writeFrom _ _ _ (by omega)]
  refine ⟨lineClosed (lineBytes bs) s, feedLine_closes bs hlegal.lbCap_le hen hcr (by rw [hp0]; omega),
    fun k hk => ?_, ?_, fun j hj => ?_, rfl, fun h0 => lineFrom_of_read _ _ hfit h0 hcell⟩
  · rw [← List.getElem?_eq_getElem hk, ← List.getElem?_append_left hk, ← hcell k hk.le, Nat.zero_add]
  · rw [← List.getElem?_concat_length, ← hcell _ le_rfl, Nat.zero_add]
  · rw [hlbs, Memory.read_writeFrom_outside _ _ (by omega)]

end Sys2Proof.Machine
end

section
/-! PROOFS. Where a step faults (R50, R103, R151, R213, R225). -/

namespace Sys2Proof.Machine

/-! ### Which operations can fault -/

/-- A ring that meets its invariant takes a byte or is full. -/
theorem RingInv.put_ne_error {cap : Nat} {r : RingBuf} (h : RingInv cap r) (b : Byte) (f : Fault) :
    r.put cap b ≠ .error f := by
  intro hf
  rcases RingBuf.put_cases cap r b with ⟨-, hput⟩ | ⟨-, hw, -⟩ | ⟨-, -, hput⟩
  · cases hput.symm.trans hf
  · exact hw h.wr_lt
  · cases hput.symm.trans hf

/-- A ring that meets its invariant gives a byte or is empty: the cell it reads is written (R27, R103). -/
theorem RingInv.get_ne_error {cap : Nat} {r : RingBuf} (h : RingInv cap r) (f : Fault) : r.get cap ≠ .error f := by
  intro hf
  by_cases hc : r.cnt.toNat = 0
  · cases (RingBuf.get_empty hc).symm.trans hf
  · obtain ⟨b, -, hget⟩ := h.get_some hc
    cases hget.symm.trans hf

/-- With its cursor in range the line assembler writes inside LBS (R31, R50). -/
theorem rxLine_ne_error {s : State} (h : s.udc.lbP.toNat ≤ s.cfg.lbCap) (b : Byte) (f : Fault) :
    rxLine b s ≠ .error f := by
  intro hf
  by_cases hlf : b = charLF
  · subst hlf; cases (rxLine_lf s).symm.trans hf
  · cases hr : lineRejects s with
    | true => cases (rxLine_rejected hlf hr).symm.trans hf
    | false =>
      have hw : s.udc.lbP.toNat < s.cfg.lbCap := Nat.lt_of_le_of_ne h (lineRejects_false.1 hr).2
      by_cases hcr : b = charCR
      · subst hcr; cases (rxLine_complete hr hw).symm.trans hf
      · cases (rxLine_store hlf hcr hr hw).symm.trans hf

theorem rxRing_ne_error {s : State} (h : RingInv s.cfg.rxCap s.udc.rxr) (b : Byte) (f : Fault) :
    rxRing b s ≠ .error f := by
  intro hf
  by_cases hc : s.udc.rxr.cnt.toNat = s.cfg.rxCap
  · cases (rxRing_full b hc).symm.trans hf
  · cases (rxRing_room b hc h.wr_lt).symm.trans hf

theorem execDispRx_ne_fault {s : State} (h : InitedInv s) (f : Fault) : exec .dispRx s ≠ .fault f := by
  intro hf
  cases he : s.periph.rxe with
  | true => cases (exec_of_did (.rxError he)).symm.trans hf
  | false =>
    cases hx : rxHandler s.periph.rxb (emit .rxrd s) with
    | ok r => cases (execDispRx_of he hx).symm.trans hf
    | error g =>
      cases hp : (emit .rxrd s).udc.rxPol with
      | line => exact rxLine_ne_error (s := emit .rxrd s) h.lbP_le _ g ((rxHandler_line hp).symm.trans hx)
      | ring => exact rxRing_ne_error (s := emit .rxrd s) h.rxr _ g ((rxHandler_ring hp).symm.trans hx)

/-- TXC faults only on an occupied slot (R225). -/
theorem execDispTx_fault {s : State} {f : Fault} (h : RingInv s.cfg.txCap s.udc.txr) (hf : exec .dispTx s = .fault f) :
    f = .txOverwrite ∧ s.periph.slot.isSome := by
  by_cases hc : s.udc.txr.cnt.toNat = 0
  · cases (exec_of_did (.txIdle hc)).symm.trans hf
  · obtain ⟨b, hb, hget⟩ := h.get_some hc
    cases hs : s.periph.slot with
    | none => cases (exec_of_did (.txSend hc h.rd_lt hb hs)).symm.trans hf
    | some x =>
      have hover : exec .dispTx s = .fault .txOverwrite := by
        simp [exec, execDispTx, txComplete, hget, emitTxwr, txReady, hs, Except.map, finish]
      cases hover.symm.trans hf
      exact ⟨rfl, rfl⟩

theorem requireInit_fault {s : State} {o : Host.Outcome State Fault Refusal} {f : Fault}
    (h : requireInit s o = .fault f) : s.udc.inited = true ∧ o = .fault f := by
  cases hi : s.udc.inited with
  | false => rw [requireInit_false hi] at h; cases h
  | true => rw [requireInit_true hi] at h; exact ⟨rfl, h⟩

theorem initWith_ne_fault {baud : BitVec 4} {m : TxMode} {pol : RxPolicy} {s : State} {f : Fault} :
    initWith baud m pol s ≠ .fault f := by
  unfold initWith
  split <;> exact fun h => by cases h

theorem txbWith_ne_fault {g : Bool} {d : Byte} {s : State} {f : Fault} (h : RingInv s.cfg.txCap s.udc.txr) :
    txbWith g d s ≠ .fault f := by
  intro hf
  cases hm : s.udc.txMode with
  | polled =>
    simp only [txbWith, hm, txbPolled, hold] at hf
    split at hf <;> cases hf
  | intr =>
    simp only [txbWith, hm, txbIntr] at hf
    split at hf
    · next hput => exact h.put_ne_error d _ hput
    · cases hf
    · cases hf

theorem execLbrd_fault {k : Byte} {s : State} {f : Fault} (h : exec (.lbrd k) s = .fault f) :
    f = .unwrittenRead ∧ s.udc.lbs.read k.toNat = none := by
  obtain ⟨h0, hread⟩ := requireInit_fault h
  by_cases hk : s.cfg.lbCap ≤ k.toNat
  · cases (exec_of_did (.lbrdOut h0 hk)).symm.trans h
  · cases hb : s.udc.lbs.read k.toNat with
    | none =>
      rw [if_neg hk, cellRead_unwritten (Nat.lt_of_not_le hk) hb] at hread
      cases hread
      exact ⟨rfl, rfl⟩
    | some b => cases (exec_of_did (.lbrd h0 (Nat.lt_of_not_le hk) hb)).symm.trans h

theorem execRxget_ne_fault {s : State} {f : Fault} (h : s.udc.inited = true → RingInv s.cfg.rxCap s.udc.rxr) :
    exec .rxget s ≠ .fault f := by
  intro hf
  obtain ⟨h0, hget⟩ := requireInit_fault hf
  split at hget
  · next hx => exact (h h0).get_ne_error _ hx
  · cases hget
  · cases hget

/-- Of the commands only LBRD can fault, on a cell nothing has written (R151). -/
theorem command_fault {i : Instr} {s : State} {f : Fault} (h : MachineInv s) (hi : contextOf i = some .mainLoop)
    (hf : exec i s = .fault f) : f = .unwrittenRead ∧ ∃ k, i = .lbrd k ∧ s.udc.lbs.read k.toNat = none := by
  cases i with
  | nop | initCustom => cases hf
  | initLine | initRing => exact absurd hf initWith_ne_fault
  | txb | txbF =>
    obtain ⟨h0, hx⟩ := requireInit_fault hf
    exact absurd hx (txbWith_ne_fault (h.inited h0).txr)
  | getev | clrev | getln | rearm | rderr => cases (requireInit_fault hf).2
  | lbrd k =>
    obtain ⟨hu, hread⟩ := execLbrd_fault hf
    exact ⟨hu, k, rfl, hread⟩
  | rxget => exact absurd hf (execRxget_ne_fault fun h0 => (h.inited h0).rxr)
  | rbInit | rbPut | rbGet | dispRx | dispTx | dispNone => cases hi

/-! ### Which agents can fault -/

theorem nextInstr_command {s : State} {es : List Event} {w : Word} {ws : List Word} {i : Instr}
    (hs : s.sched = .host :: es) (hp : s.host.prog = w :: ws) (hd : decodeCommand w = .ok i) :
    nextInstr s = some i := by
  simp [nextInstr, hs, hp, hd, Except.toOption]

/-- A HOST step faults only in an LBRD of an unwritten cell (R151). -/
theorem hostStep_fault {s : State} {f : Fault} (h : MachineInv s) (hf : hostStep s = .fault f) :
    f = .unwrittenRead ∧ ∃ w ws k, s.host.prog = w :: ws ∧ decodeCommand w = .ok (.lbrd k) ∧
      s.udc.lbs.read k.toNat = none := by
  unfold hostStep at hf
  split at hf
  · cases hf
  · next w ws hp =>
    split at hf
    · next i hd =>
      obtain ⟨hu, k, rfl, hread⟩ := command_fault h (contextOf_decodeCommand hd) hf
      exact ⟨hu, w, ws, k, hp, hd, hread⟩
    · cases hf

/-- An interrupt other than a receive interrupt is taken as a transmit interrupt (R227). -/
theorem nextInstr_transmit {s : State} {es : List Event} (hs : s.sched = .disp :: es)
    (he : dispatchEnabled s.periph = true) (hr : (s.periph.rxifg && s.periph.rxie) = false) :
    nextInstr s = some .dispTx := by
  simp [nextInstr, hs, enterInterrupt, deliverCause, he, hr, decodeCause_tx]

/-- An enabled interrupt means that INIT has completed (R227, R240). -/
theorem MachineInv.inited_of_enabled {s : State} (h : MachineInv s) (he : dispatchEnabled s.periph = true) :
    s.udc.inited = true := by
  unfold dispatchEnabled at he
  rw [h.rxie, h.txie] at he
  cases hi : s.udc.inited with
  | true => rfl
  | false => simp [hi] at he

/-- A DISP step faults only in a TXC with the slot occupied (R225). -/
theorem dispStep_fault {s : State} {f : Fault} (h : MachineInv s) (hf : dispStep s = .fault f) :
    f = .txOverwrite ∧ dispatchEnabled s.periph = true ∧ (s.periph.rxifg && s.periph.rxie) = false ∧
      s.periph.slot.isSome := by
  unfold dispStep enterInterrupt at hf
  cases he : dispatchEnabled s.periph with
  | false => rw [he] at hf; cases hf
  | true =>
    have hi := h.inited (h.inited_of_enabled he)
    simp only [he, if_true, returnFromInterrupt, deliverCause] at hf
    cases hr : s.periph.rxifg && s.periph.rxie with
    | true => rw [hr] at hf; exact absurd hf (execDispRx_ne_fault hi f)
    | false =>
      rw [hr] at hf
      obtain ⟨hu, hslot⟩ :=
        execDispTx_fault (s := { s with periph := { s.periph with txifg := false } }) hi.txr hf
      exact ⟨hu, rfl, rfl, hslot⟩

theorem outsidePort_ne_fault {off : Nat} {f : Fault} : outsidePort off ≠ .fault f := by
  unfold outsidePort
  split <;> exact fun h => by cases h

theorem portAccessAt_ne_fault {off : Nat} {op : BusOp} {s : State} {f : Fault} :
    portAccessAt off op s ≠ .fault f := by
  cases op with
  | read8 | write8 => exact outsidePort_ne_fault
  | write16 =>
    simp only [portAccessAt]
    split
    · exact fun h => by cases h
    · exact outsidePort_ne_fault
  | read16 =>
    simp only [portAccessAt]
    split
    · exact fun h => by cases h
    · split
      · exact fun h => by cases h
      · exact outsidePort_ne_fault

/-- A bus access is performed or refused (R53, R57). -/
theorem busAccess_ne_fault {a : Nat} {op : BusOp} {s : State} {f : Fault} : busAccess a op s ≠ .fault f := by
  unfold busAccess
  split
  · exact fun h => by cases h
  · split
    · exact fun h => by cases h
    · split
      · exact fun h => by cases h
      · exact portAccessAt_ne_fault

/-- Settles O45: HOST faults only in LBRD and DISP only in TXC; PERIPH and the bus never fault. -/
theorem faultsOnlyWhereSpecified : Obligations.FaultsOnlyWhereSpecified := by
  intro s e es f h hs he hf
  have hinv : MachineInv { s with sched := es } := h.of_same_engine rfl rfl rfl rfl rfl rfl
  rw [step_of_sched h.legal hs] at hf
  cases e with
  | host =>
    obtain ⟨hu, w, ws, k, hp, hd, hread⟩ := hostStep_fault hinv hf
    exact .inl ⟨hu, k, nextInstr_command hs hp hd, hread⟩
  | disp =>
    obtain ⟨hu, hen, hrx, hslot⟩ := dispStep_fault hinv hf
    exact .inr ⟨hu, nextInstr_transmit hs hen hrx, hslot⟩
  | txdone | rxin => cases hf
  | bus => exact absurd hf busAccess_ne_fault
  | cause | ring => cases he

end Sys2Proof.Machine
end

section
/-! PROOFS. Commands performed twice (R55, R56). -/

namespace Sys2Proof.Machine

/-- GETEV, GETLN, RDERR or LBRD (R55). -/
def IsRead (i : Instr) : Prop := i = .getev ∨ i = .getln ∨ i = .rderr ∨ ∃ k, i = .lbrd k

/-- CLREV, REARM or INIT with a built-in policy (R56). -/
def IsRepeatableWrite (i : Instr) : Prop :=
  i = .clrev ∨ i = .rearm ∨ ∃ b m, i = .initLine b m ∨ i = .initRing b m

/-- A read only answers, and answers the same from the state it leaves. -/
theorem Did.read_repeats {i : Instr} {s t : State} (hd : Did s i t) (hi : IsRead i) :
    ∃ st d, t = respond st d s ∧ Did t i (respond st d t) := by
  cases hd with
  | notInit hn h0 => exact ⟨_, _, rfl, .notInit hn h0⟩
  | getev h0 => exact ⟨_, _, rfl, .getev h0⟩
  | getlnNone h0 hl => exact ⟨_, _, rfl, .getlnNone h0 hl⟩
  | getlnPending h0 hl => exact ⟨_, _, rfl, .getlnPending h0 hl⟩
  | lbrdOut h0 hk => exact ⟨_, _, rfl, .lbrdOut h0 hk⟩
  | lbrd h0 hk hb => exact ⟨_, _, rfl, .lbrd h0 hk hb⟩
  | rderr h0 => exact ⟨_, _, rfl, .rderr h0⟩
  | init hx | badRate hx => rcases hx with ⟨rfl, -⟩ | ⟨rfl, -⟩ <;> simp [IsRead] at hi
  | txbFull hx | txbKick hx | txbPut hx | txbWait hx | txbDirect hx =>
    rcases hx with ⟨rfl, -⟩ | ⟨rfl, -⟩ <;> simp [IsRead] at hi
  | _ => simp [IsRead] at hi

/-- Settles O59: a read only answers. -/
theorem readsAreRepeatable : Obligations.ReadsAreRepeatable := by
  intro s t i hi hx
  obtain ⟨st, d, rfl, hagain⟩ := (exec_did hx).read_repeats hi
  exact ⟨rfl, ⟨st, d⟩, _, rfl, exec_of_did hagain, rfl⟩

/-- A repeated write leaves the same UDC and peripheral, and emits the same events again. -/
theorem Did.write_repeats {i : Instr} {s t : State} (hd : Did s i t) (hi : IsRepeatableWrite i) :
    ∃ u, Did t i u ∧ u.udc = t.udc ∧ u.periph = t.periph ∧
      ∃ out, t.trace = s.trace ++ out ∧ u.trace = t.trace ++ out := by
  cases hd with
  | notInit hn h0 => exact ⟨_, .notInit hn h0, rfl, rfl, [], by simp, by simp⟩
  | clrev h0 => exact ⟨_, .clrev h0, rfl, rfl, [], by simp, by simp⟩
  | rearm h0 => exact ⟨_, .rearm h0, rfl, rfl, [], by simp, by simp⟩
  | badRate hx hb => exact ⟨_, .badRate hx hb, rfl, rfl, [], by simp, by simp⟩
  | init hx hb => exact ⟨_, .init hx hb, rfl, rfl, _, initialised_trace _ _ _ _, initialised_trace _ _ _ _⟩
  | txbFull hx | txbKick hx | txbPut hx | txbWait hx | txbDirect hx =>
    rcases hx with ⟨rfl, -⟩ | ⟨rfl, -⟩ <;> simp [IsRepeatableWrite] at hi
  | _ => simp [IsRepeatableWrite] at hi

/-- Settles O60: the registers a write leaves are those it leaves again. -/
theorem writesAreIdempotent : Obligations.WritesAreIdempotent := by
  intro s t i hi hx
  obtain ⟨u, hagain, hrest⟩ := (exec_did hx).write_repeats hi
  exact ⟨u, exec_of_did hagain, hrest⟩

end Sys2Proof.Machine
end

section
/-! PROOFS. The transmit side is hidden from the host (R51). -/

namespace Sys2Proof.Machine

/-- The machine with another transmit ring and busy flag. -/
def withTransmitSide (r : RingBuf) (busy : Bool) (s : State) : State :=
  { s with udc := { s.udc with txr := r, txBusy := busy } }

section
variable (r : RingBuf) (busy : Bool) (s : State)

@[simp] theorem withTransmitSide_cfg : (withTransmitSide r busy s).cfg = s.cfg := rfl
@[simp] theorem withTransmitSide_rxr : (withTransmitSide r busy s).udc.rxr = s.udc.rxr := rfl
@[simp] theorem withTransmitSide_lbs : (withTransmitSide r busy s).udc.lbs = s.udc.lbs := rfl
@[simp] theorem withTransmitSide_lbEn : (withTransmitSide r busy s).udc.lbEn = s.udc.lbEn := rfl

end

/-- Two outcomes the host cannot tell apart. -/
def HostAlike (o o' : Host.Outcome State Fault Refusal) : Prop :=
  (∃ t t', o = .next t ∧ o' = .next t' ∧ t'.host = t.host) ∨
  (∃ f, o = .fault f ∧ o' = .fault f) ∨ (∃ r, o = .refused r ∧ o' = .refused r)

theorem HostAlike.next {t t' : State} (h : t'.host = t.host) : HostAlike (.next t) (.next t') :=
  .inl ⟨t, t', rfl, rfl, h⟩

theorem HostAlike.fault (f : Fault) : HostAlike (.fault f) (.fault f) := .inr (.inl ⟨f, rfl, rfl⟩)

theorem HostAlike.refused (r : Refusal) : HostAlike (.refused r) (.refused r) := .inr (.inr ⟨r, rfl, rfl⟩)

theorem HostAlike.ite {p : Prop} [Decidable p] {o o' q q' : Host.Outcome State Fault Refusal} (h : HostAlike o o')
    (h' : HostAlike q q') : HostAlike (if p then o else q) (if p then o' else q') := by
  split
  · exact h
  · exact h'

section
variable (r : RingBuf) (busy : Bool) (s : State)

/-- A command that answers NOTINIT before INIT is hidden where its work after INIT is (R195). -/
theorem HostAlike.requireInit {o o' : Host.Outcome State Fault Refusal} (h : HostAlike o o') :
    HostAlike (requireInit s o) (requireInit (withTransmitSide r busy s) o') :=
  .ite h (.next rfl)

theorem hostAlike_initWith (baud : BitVec 4) (m : TxMode) (pol : RxPolicy) :
    HostAlike (initWith baud m pol s) (initWith baud m pol (withTransmitSide r busy s)) :=
  .ite (.next rfl) (.next rfl)

theorem hostAlike_getln : HostAlike (execGetln s) (execGetln (withTransmitSide r busy s)) := by
  refine .requireInit r busy s (.next ?_)
  rw [withTransmitSide_lbEn]
  split <;> rfl

theorem hostAlike_lbrd (k : Byte) : HostAlike (execLbrd k s) (execLbrd k (withTransmitSide r busy s)) := by
  refine .requireInit r busy s (.ite (.next rfl) ?_)
  rw [withTransmitSide_cfg, withTransmitSide_lbs]
  cases cellRead s.cfg.lbCap s.udc.lbs k.toNat with
  | error f => exact .fault f
  | ok b => exact .next rfl

theorem hostAlike_rxget : HostAlike (execRxget s) (execRxget (withTransmitSide r busy s)) := by
  refine .requireInit r busy s ?_
  rw [withTransmitSide_cfg, withTransmitSide_rxr]
  rcases s.udc.rxr.get s.cfg.rxCap with f | _ | ⟨b, x⟩
  · exact .fault f
  · exact .next rfl
  · exact .next rfl

end

/-- Settles O58: no command but TXB looks at what the two states differ in. -/
theorem transmitSideHidden : Obligations.TransmitSideHidden := by
  intro s s' i hs hi htxb
  change HostAlike (exec i s) (exec i s')
  obtain ⟨r, busy, rfl⟩ : ∃ r busy, s' = withTransmitSide r busy s := ⟨_, _, hs⟩
  cases i with
  | nop => exact .next rfl
  | initLine | initRing => exact hostAlike_initWith r busy s _ _ _
  | initCustom => exact .refused _
  | txb d => exact absurd rfl (htxb d).1
  | txbF d => exact absurd rfl (htxb d).2
  | getev | clrev | rearm | rderr => exact .requireInit r busy s (.next rfl)
  | getln => exact hostAlike_getln r busy s
  | lbrd k => exact hostAlike_lbrd r busy s k
  | rxget => exact hostAlike_rxget r busy s
  | rbInit | rbPut | rbGet | dispRx | dispTx | dispNone => cases hi

end Sys2Proof.Machine
end

section
/-! PROOFS. Words and their fields as numbers: what the decoder rejects, and that on every port a word which decodes is
the word of what it decodes to (R70-R74, R77-R80). -/

namespace Sys2Proof.Machine

/-! ### The fields of a word as numbers -/

theorem toNat_append_eq_add {m n : Nat} (x : BitVec m) (y : BitVec n) :
    (x ++ y).toNat = x.toNat * 2 ^ n + y.toNat := by
  rw [BitVec.toNat_append, ← Nat.shiftLeft_add_eq_or_of_lt y.isLt, Nat.shiftLeft_eq]

theorem extractLsb'_eq_iff {n s l : Nat} {w : BitVec n} {x : BitVec l} :
    w.extractLsb' s l = x ↔ w.toNat / 2 ^ s % 2 ^ l = x.toNat := by
  rw [← BitVec.toNat_inj, BitVec.extractLsb'_toNat, Nat.shiftRight_eq_div_pow]

theorem getLsbD_iff {n k : Nat} {w : BitVec n} : w.getLsbD k = true ↔ w.toNat / 2 ^ k % 2 = 1 := by
  rw [← BitVec.testBit_toNat, Nat.testBit_eq_decide_div_mod_eq, decide_eq_true_iff]

theorem opcode_toNat (w : Word) : (w.extractLsb' 12 4).toNat = w.toNat / 0x1000 := by
  rw [BitVec.extractLsb'_toNat, Nat.shiftRight_eq_div_pow]
  omega

theorem policy_toNat (w : Word) : (w.extractLsb' 0 2).toNat = w.toNat % 4 := BitVec.extractLsb'_toNat 0 2 w

/-- A word is its upper bits and its low byte (R73, R78). -/
theorem append_lowByte {n : Nat} {w : BitVec (n + 8)} {x : BitVec n} (h : w.toNat / 0x100 = x.toNat) :
    x ++ w.extractLsb' 0 8 = w := by
  apply BitVec.eq_of_toNat_eq
  rw [toNat_append_eq_add, ← h, BitVec.extractLsb'_toNat, Nat.shiftRight_zero]
  exact Nat.div_add_mod' _ _

/-! ### Reserved operand bits (R74) -/

section
variable {w : Word}

theorem plain_reserved_iff : w.extractLsb' 0 12 = 0#12 ↔ w.toNat % 0x1000 = 0 := by
  rw [extractLsb'_eq_iff, BitVec.toNat_ofNat]; omega

theorem init_reserved_iff : w.extractLsb' 3 5 = 0#5 ↔ w.toNat % 0x100 / 8 = 0 := by
  rw [extractLsb'_eq_iff, BitVec.toNat_ofNat]; omega

theorem txb_reserved_iff : w.extractLsb' 9 3 = 0#3 ↔ w.toNat % 0x1000 / 0x200 = 0 := by
  rw [extractLsb'_eq_iff, BitVec.toNat_ofNat]; omega

theorem lbrd_reserved_iff : w.extractLsb' 8 4 = 0#4 ↔ w.toNat % 0x1000 / 0x100 = 0 := by
  rw [extractLsb'_eq_iff, BitVec.toNat_ofNat]; omega

/-! ### Words the decoder rejects -/

theorem plainCommand_error_iff {i : Instr} : (∃ e, plainCommand w i = .error e) ↔ w.toNat % 0x1000 ≠ 0 := by
  rw [Ne, ← plain_reserved_iff]
  unfold plainCommand
  split <;> simp [*]

/-- INIT is illegal with a reserved bit set, or with rr = 11 (R74, R79). -/
theorem decodeInit_error_iff : (∃ e, decodeInit w = .error e) ↔ w.toNat % 0x100 / 8 ≠ 0 ∨ w.toNat % 4 = 3 := by
  rw [Ne, ← init_reserved_iff]
  unfold decodeInit
  split
  · next hres => exact iff_of_true ⟨_, rfl⟩ (.inl hres)
  · next hres =>
    rw [or_iff_right hres, policy_toNat]
    dsimp only
    split
    case h_4 =>
      simp only [imp_false] at *
      exact iff_of_true ⟨_, rfl⟩ (by omega)
    all_goals exact iff_of_false (fun ⟨_, h⟩ => nomatch h) (by omega)

theorem decodeTxb_error_iff : (∃ e, decodeTxb w = .error e) ↔ w.toNat % 0x1000 / 0x200 ≠ 0 := by
  rw [Ne, ← txb_reserved_iff]
  unfold decodeTxb
  split
  · next hres => exact iff_of_true ⟨_, rfl⟩ hres
  · next hres => split <;> exact iff_of_false (fun ⟨_, h⟩ => nomatch h) hres

theorem decodeLbrd_error_iff : (∃ e, decodeLbrd w = .error e) ↔ w.toNat % 0x1000 / 0x100 ≠ 0 := by
  rw [Ne, ← lbrd_reserved_iff]
  unfold decodeLbrd
  split <;> simp [*]

end

/-- Settles O4: each opcode rejects its own reserved bits, and INIT one policy more. -/
theorem illegalWordsExactly : Obligations.IllegalWordsExactly := by
  intro w
  unfold decodeCommand
  rw [opcode_toNat]
  split
  case h_2 h => simp [decodeInit_error_iff, h]
  case h_3 h => simp [decodeTxb_error_iff, h]
  case h_7 h => simp [decodeLbrd_error_iff, h]
  case h_11 =>
    simp only [imp_false] at *
    exact iff_of_true ⟨_, rfl⟩ (.inl (by omega))
  all_goals
    next h => simp [plainCommand_error_iff, h]

/-! ### A word is the word of what it decodes to -/

/-- A command without operands has one word (R72). -/
theorem word_of_plainCommand {w : Word} {i j : Instr} {op : Nat} (hop : w.toNat / 0x1000 = op)
    (h : plainCommand w i = .ok j) : w = BitVec.ofNat 16 (op * 0x1000) := by
  have hres : w.toNat % 0x1000 = 0 := by
    by_contra hne
    obtain ⟨e, he⟩ := plainCommand_error_iff (i := i).2 hne
    cases he.symm.trans h
  apply BitVec.eq_of_toNat_eq
  rw [BitVec.toNat_ofNat]
  omega

theorem encodeInit_toNat (baud : BitVec 4) (t : TxMode) (rr : BitVec 2) :
    (encodeInit baud t rr).toNat = 0x1000 + baud.toNat * 0x100 + (bitOfTxMode t).toNat * 4 + rr.toNat := by
  simp only [encodeInit, toNat_append_eq_add, BitVec.toNat_ofNat]
  omega

theorem modeBit_toNat (w : Word) : (bitOfTxMode (txModeOfBit (w.getLsbD 2))).toNat = w.toNat / 4 % 2 := by
  cases hT : w.getLsbD 2 with
  | true => exact (getLsbD_iff.1 hT).symm
  | false =>
    have := getLsbD_iff.not.1 (Bool.not_eq_true _ ▸ hT)
    change 0 = _
    omega

/-- A word of INIT is put together from its fields (R73). -/
theorem encodeInit_fields {w : Word} {rr : BitVec 2} (hop : w.toNat / 0x1000 = 1) (hres : w.extractLsb' 3 5 = 0#5)
    (hrr : (w.extractLsb' 0 2).toNat = rr.toNat) :
    encodeInit (w.extractLsb' 8 4) (txModeOfBit (w.getLsbD 2)) rr = w := by
  rw [init_reserved_iff] at hres
  rw [policy_toNat] at hrr
  have hbaud : (w.extractLsb' 8 4).toNat = w.toNat / 0x100 % 0x10 := by
    rw [BitVec.extractLsb'_toNat, Nat.shiftRight_eq_div_pow]
  apply BitVec.eq_of_toNat_eq
  rw [encodeInit_toNat, modeBit_toNat, hbaud]
  omega

theorem encode_of_decodeInit {w : Word} {i : Instr} (hop : w.toNat / 0x1000 = 1) (h : decodeInit w = .ok i) :
    encode i = .command w := by
  unfold decodeInit at h
  split at h
  · cases h
  · next hres =>
    rw [not_not] at hres
    dsimp only at h
    split at h
    case h_4 => cases h
    all_goals
      next hrr =>
        cases h
        exact congrArg PortWord.command (encodeInit_fields hop hres hrr)

theorem encode_of_decodeTxb {w : Word} {i : Instr} (hop : w.toNat / 0x1000 = 2) (h : decodeTxb w = .ok i) :
    encode i = .command w := by
  unfold decodeTxb at h
  split at h
  · cases h
  · next hres =>
    rw [not_not, txb_reserved_iff] at hres
    split at h <;> next hf =>
      rw [getLsbD_iff] at hf
      cases h
      exact congrArg PortWord.command (append_lowByte (by rw [BitVec.toNat_ofNat]; omega))

theorem encode_of_decodeLbrd {w : Word} {i : Instr} (hop : w.toNat / 0x1000 = 6) (h : decodeLbrd w = .ok i) :
    encode i = .command w := by
  unfold decodeLbrd at h
  split at h
  · cases h
  · next hres =>
    rw [not_not, lbrd_reserved_iff] at hres
    cases h
    exact congrArg PortWord.command (append_lowByte (by rw [BitVec.toNat_ofNat]; omega))

theorem encode_of_decodeCommand {w : Word} {i : Instr} (h : decodeCommand w = .ok i) : encode i = .command w := by
  unfold decodeCommand at h
  rw [opcode_toNat] at h
  split at h
  case h_2 hop => exact encode_of_decodeInit hop h
  case h_3 hop => exact encode_of_decodeTxb hop h
  case h_7 hop => exact encode_of_decodeLbrd hop h
  case h_11 => cases h
  all_goals
    next hop => rw [plainCommand_ok h, word_of_plainCommand hop h]; rfl

theorem encode_of_decodeRing {r : RingId} {w : RingWord} {i : Instr} (h : decodeRing r w = .ok i) :
    encode i = .ring r w := by
  have hop : (w.extractLsb' 8 2).toNat = w.toNat / 0x100 := by
    rw [BitVec.extractLsb'_toNat, Nat.shiftRight_eq_div_pow]; omega
  unfold decodeRing at h
  rw [hop] at h
  dsimp only at h
  split at h
  case h_4 => cases h
  all_goals
    next hw =>
      cases h
      exact congrArg (PortWord.ring r) (append_lowByte hw)

theorem encode_decodeCause (iv : Word) : encode (decodeCause iv) = .cause iv := by
  unfold decodeCause
  split
  · next h => rw [h]; rfl
  · split
    · next h => rw [h]; rfl
    · rfl

theorem wellFormed_decodeCause (iv : Word) : (decodeCause iv).wellFormed = true := by
  unfold decodeCause
  split
  · rfl
  · next hrx =>
    split
    · rfl
    · next htx => exact Bool.and_eq_true_iff.2 ⟨bne_iff_ne.2 hrx, bne_iff_ne.2 htx⟩

/-- Only an operation of the cause input can be ill-formed (R173). -/
theorem wellFormed_of_not_cause {i : Instr} (h : ∀ iv, encode i ≠ .cause iv) : i.wellFormed = true := by
  cases i with
  | dispNone iv => exact absurd rfl (h iv)
  | _ => rfl

/-- Settles O3: port by port, the fields the decoder reads make up the word. -/
theorem encodeDecode : Obligations.EncodeDecode := by
  intro p i h
  cases p with
  | command w =>
    have hw := encode_of_decodeCommand h
    exact ⟨hw, wellFormed_of_not_cause fun iv hc => nomatch hw.symm.trans hc⟩
  | cause iv =>
    cases h
    exact ⟨encode_decodeCause iv, wellFormed_decodeCause iv⟩
  | ring r w =>
    have hw := encode_of_decodeRing h
    exact ⟨hw, wellFormed_of_not_cause fun iv hc => nomatch hw.symm.trans hc⟩

end Sys2Proof.Machine
end

section
/-! PROOFS. Every well-formed operation is read back from its word (R71-R73, R77, R78). -/

namespace Sys2Proof.Machine

/-! ### The fields of an encoded word -/

section
variable (baud : BitVec 4) (t : TxMode) (rr : BitVec 2)

theorem encodeInit_opcode : (encodeInit baud t rr).extractLsb' 12 4 = 0x1#4 :=
  extractLsb'_eq_iff.2 (by rw [encodeInit_toNat, BitVec.toNat_ofNat]; omega)

theorem encodeInit_reserved : (encodeInit baud t rr).extractLsb' 3 5 = 0#5 :=
  extractLsb'_eq_iff.2 (by rw [encodeInit_toNat, BitVec.toNat_ofNat]; omega)

theorem encodeInit_baud : (encodeInit baud t rr).extractLsb' 8 4 = baud :=
  extractLsb'_eq_iff.2 (by rw [encodeInit_toNat]; omega)

theorem encodeInit_policy : (encodeInit baud t rr).extractLsb' 0 2 = rr :=
  extractLsb'_eq_iff.2 (by rw [encodeInit_toNat]; omega)

theorem encodeInit_mode : txModeOfBit ((encodeInit baud t rr).getLsbD 2) = t := by
  have hbit : (encodeInit baud t rr).getLsbD 2 = true ↔ (bitOfTxMode t).toNat = 1 := by
    rw [getLsbD_iff, encodeInit_toNat]
    omega
  cases t with
  | polled => exact if_neg (hbit.not.2 (by decide))
  | intr => exact if_pos (hbit.2 rfl)

end

section
variable (hi lo : Byte)

theorem byteWord_low : (hi ++ lo : Word).extractLsb' 0 8 = lo := BitVec.extractLsb'_append_eq_right

theorem byteWord_high (k n : Nat) : (hi ++ lo : Word).extractLsb' (k + 8) n = hi.extractLsb' k n :=
  BitVec.extractLsb'_append_eq_of_le (Nat.le_add_left 8 k)

theorem byteWord_flag : (hi ++ lo : Word).getLsbD 8 = hi.getLsbD 0 := BitVec.getLsbD_append

end

theorem ringWord_op (op : BitVec 2) (d : Byte) : (op ++ d : RingWord).extractLsb' 8 2 = op :=
  BitVec.extractLsb'_append_eq_left

theorem ringWord_low (op : BitVec 2) (d : Byte) : (op ++ d : RingWord).extractLsb' 0 8 = d :=
  BitVec.extractLsb'_append_eq_right

/-! ### Decoding -/

theorem decodeCause_of_wellFormed {iv : Word} (h : (Instr.dispNone iv).wellFormed = true) :
    decodeCause iv = .dispNone iv := by
  obtain ⟨hrx, htx⟩ := Bool.and_eq_true_iff.1 h
  exact (if_neg (bne_iff_ne.1 hrx)).trans (if_neg (bne_iff_ne.1 htx))

/-- Settles O2: each format's fields are read back from its word. -/
theorem decodeEncode : Obligations.DecodeEncode := by
  intro i hwf
  cases i with
  | nop | getev | clrev | getln | rearm | rxget | rderr | dispRx | dispTx => rfl
  | initLine | initRing | initCustom =>
    simp only [encode, decode, decodeCommand, encodeInit_opcode, decodeInit, encodeInit_reserved, encodeInit_baud,
      encodeInit_mode, encodeInit_policy]
    rfl
  | txb | txbF =>
    simp only [encode, decode, decodeCommand, byteWord_high _ _ 4, decodeTxb, byteWord_high _ _ 1, byteWord_flag,
      byteWord_low]
    rfl
  | lbrd =>
    simp only [encode, decode, decodeCommand, byteWord_high _ _ 4, decodeLbrd, byteWord_high _ _ 0, byteWord_low]
    rfl
  | rbInit | rbPut | rbGet =>
    simp only [encode, decode, decodeRing]
    rw [ringWord_op, ringWord_low]
    rfl
  | dispNone iv => exact congrArg Except.ok (decodeCause_of_wellFormed hwf)

/-- A command is read back from its word: no command is ill-formed (R173). -/
theorem decodeCommand_of_encode {i : Instr} {w : Word} (h : encode i = .command w) : decodeCommand w = .ok i := by
  have hd := decodeEncode i (wellFormed_of_not_cause fun iv hc => nomatch h.symm.trans hc)
  rwa [h] at hd

/-- Settles O1: the decoder is run on each word. -/
theorem specWordsDecode : Obligations.SpecWordsDecode := by
  unfold Obligations.SpecWordsDecode
  decide

end Sys2Proof.Machine
end

section
/-! PROOFS. The pseudo-operations and the host's calls: what they expand to and what they are worth (R82-R84). -/

namespace Sys2Proof.Machine

/-! ### SEND and PRINT -/

theorem commandWords_cons {i : Instr} {w : Word} (h : encode i = .command w) (is : List Instr) :
    commandWords (i :: is) = w :: commandWords is := by
  simp [commandWords, h]

/-- The words of a list of commands decode to the list (R81). -/
theorem map_decodeCommand_commandWords {is : List Instr} (h : ∀ i ∈ is, ∃ w, encode i = .command w) :
    (commandWords is).map decodeCommand = is.map .ok := by
  induction is with
  | nil => rfl
  | cons i is ih =>
    obtain ⟨⟨w, hw⟩, his⟩ := List.forall_mem_cons.1 h
    rw [commandWords_cons hw, List.map_cons, List.map_cons, decodeCommand_of_encode hw, ih his]

theorem sendOps_commands (bs : List Byte) : ∀ i ∈ sendOps bs, ∃ w, encode i = .command w := by
  cases bs with
  | nil => exact fun i hi => nomatch hi
  | cons b bs =>
    refine List.forall_mem_cons.2 ⟨⟨_, rfl⟩, fun i hi => ?_⟩
    obtain ⟨c, -, rfl⟩ := List.mem_map.1 hi
    exact ⟨_, rfl⟩

theorem printBytes_of_not_mem {bs : List Byte} (h : 0x00#8 ∉ bs) : printBytes bs = bs :=
  List.takeWhile_eq_self_iff.2 fun _ hb => bne_iff_ne.2 (ne_of_mem_of_not_mem hb h)

theorem printBytes_append_zero {bs : List Byte} (h : 0x00#8 ∉ bs) (cs : List Byte) :
    printBytes (bs ++ 0x00#8 :: cs) = bs := by
  rw [printBytes, List.takeWhile_append_of_pos fun _ hb => bne_iff_ne.2 (ne_of_mem_of_not_mem hb h)]
  exact List.append_nil bs

theorem sendValue_of_all_ok {bs : List Byte} {rs : List Response} (hlen : rs.length = bs.length)
    (hok : ∀ r ∈ rs, r.status = .ok) (later : List Response) : sendValue bs (rs ++ later) = some bs.length := by
  refine if_pos ⟨?_, ?_⟩
  · rw [← hlen, List.length_append]; exact Nat.le_add_right _ _
  · rw [List.take_left' hlen]
    exact List.all_eq_true.2 fun r hr => beq_iff_eq.2 (hok r hr)

theorem sendValue_of_short {bs : List Byte} {rs : List Response} (h : rs.length < bs.length) :
    sendValue bs rs = none :=
  if_neg fun hv => Nat.not_le_of_lt h hv.1

/-- Settles O5: the words of SEND decode to its operations, and PRINT sends what stands before the first 0x00. -/
theorem sendExpandsToTxb : Obligations.SendExpandsToTxb := by
  refine ⟨rfl, fun b bs => ?_, fun bs cs h0 => ?_, fun bs rs later hlen hok => sendValue_of_all_ok hlen hok later,
    fun bs rs hshort => sendValue_of_short hshort, fun bs cs rs h0 => ?_⟩
  · rw [map_decodeCommand_commandWords (sendOps_commands _), sendOps, List.map_cons, List.map_map]
    rfl
  · rw [printOps, printOps, printBytes_append_zero h0, printBytes_of_not_mem h0]
    exact ⟨rfl, rfl⟩
  · rw [printValue, printValue, printBytes_append_zero h0, printBytes_of_not_mem h0]
    exact ⟨rfl, rfl⟩

/-! ### The pending line -/

/-- Written cells up to a 0x00 hold a line: the bytes before the first 0x00, and that 0x00 (R145). -/
theorem exists_line_of_readable {m : Memory} {k : Nat} : ∀ {i : Nat}, m.read (i + k) = some 0x00#8 →
    (∀ j < k, (m.read (i + j)).isSome) →
    ∃ bs : List Byte, bs.length ≤ k ∧ 0x00#8 ∉ bs ∧ ∀ j ≤ bs.length, m.read (i + j) = (bs ++ [0x00#8])[j]? := by
  induction k with
  | zero =>
    intro i hz _
    exact ⟨[], le_rfl, List.not_mem_nil, fun j hj => by rw [Nat.le_zero.1 hj]; exact hz⟩
  | succ k ih =>
    intro i hz hw
    obtain ⟨b, hb⟩ := Option.isSome_iff_exists.1 (hw 0 k.succ_pos)
    by_cases h0 : b = 0x00#8
    · exact ⟨[], Nat.zero_le _, List.not_mem_nil, fun j hj => by rw [Nat.le_zero.1 hj, ← h0]; exact hb⟩
    · have hshift : ∀ j, i + 1 + j = i + (j + 1) := fun j => Nat.add_right_comm i 1 j
      obtain ⟨bs, hlen, hnz, hread⟩ := ih (i := i + 1) (by rw [hshift]; exact hz) fun j hj => by
        rw [hshift]; exact hw _ (Nat.succ_lt_succ hj)
      refine ⟨b :: bs, Nat.succ_le_succ hlen, List.not_mem_cons_of_ne_of_not_mem (Ne.symm h0) hnz, fun j hj => ?_⟩
      cases j with
      | zero => exact hb
      | succ j => rw [← hshift]; exact hread j (Nat.le_of_succ_le_succ hj)

/-- LBRD of a written cell (R151). -/
theorem exec_lbrd_written {s : State} {k : Nat} {b : Byte} (h0 : s.udc.inited = true) (hcap : s.cfg.lbCap ≤ 255)
    (hk : k < s.cfg.lbCap) (hb : s.udc.lbs.read k = some b) :
    exec (.lbrd (BitVec.ofNat 8 k)) s = .next { s with host := answered s .ok (BitVec.ofNat 16 b.toNat) } := by
  have hi : (BitVec.ofNat 8 k).toNat = k := BitVec.toNat_ofNat k 8 ▸ Nat.mod_eq_of_lt (by omega)
  rw [exec_of_did (.lbrd h0 (by rw [hi]; exact hk) (by rw [hi]; exact hb)), respond_eq, dataOfByte_eq]

/-- Settles O25: the invariant's readable line is the consumer's, cell by cell. -/
theorem pendingLineCanBeRead : Obligations.PendingLineCanBeRead := by
  intro s hinv h0 hpend
  obtain ⟨-, k, hk, hz, hw⟩ := (hinv.inited h0).pending hpend
  obtain ⟨bs, hlen, hnz, hread⟩ := exists_line_of_readable (i := 0) (by rwa [Nat.zero_add])
    fun j hj => by rw [Nat.zero_add]; exact hw j hj
  have hfit : bs.length < s.cfg.lbCap := Nat.lt_of_le_of_lt hlen hk
  have hlbrd : ∀ {j b}, j ≤ bs.length → (bs ++ [0x00#8])[j]? = some b →
      exec (.lbrd (BitVec.ofNat 8 j)) s = .next { s with host := answered s .ok (BitVec.ofNat 16 b.toNat) } :=
    fun {j b} hj hb => exec_lbrd_written h0 hinv.legal.lbCap_le (Nat.lt_of_le_of_lt hj hfit)
      (by rw [← hb, ← hread j hj, Nat.zero_add])
  refine ⟨bs, lineFrom_of_read bs _ hfit hnz hread, hfit, hnz, fun j hj => ?_, ?_,
    exec_of_did (.getlnPending h0 hpend), ?_⟩
  · exact hlbrd hj.le (by rw [List.getElem?_append_left hj, List.getElem?_eq_getElem hj])
  · exact hlbrd le_rfl List.getElem?_concat_length
  · exact congrArg (Option.map LineValue.line) (lineOfReads_line hnz)

end Sys2Proof.Machine
end

section
/-! PROOFS. What a step runs for a command, a ring's port word and a presented cause (R70, R78, R104, R170, R197). -/

namespace Sys2Proof.Machine

theorem hostStep_command {s : State} {w : Word} {ws : List Word} {i : Instr} (hp : s.host.prog = w :: ws)
    (hd : decodeCommand w = .ok i) : hostStep s = exec i s := by
  simp [hostStep, hp, hd]

theorem hostStep_illegal {s : State} {w : Word} {ws : List Word} {e : DecodeError} (hp : s.host.prog = w :: ws)
    (hd : decodeCommand w = .error e) : hostStep s = .next (respond .illegal 0 s) := by
  simp [hostStep, hp, hd]

/-- Settles O6: the host scheduled, a step is the HOST step on the word at the head of the program. -/
theorem stepRunsTheCommand : Obligations.StepRunsTheCommand := by
  intro s w ws es hlegal hs hp
  rw [step_of_sched hlegal hs]
  exact ⟨fun i hd => hostStep_command hp hd, fun e hd => hostStep_illegal hp hd⟩

theorem ringStep_ok {r : RingId} {w : RingWord} {i : Instr} (hd : decodeRing r w = .ok i) (s : State) :
    ringStep r w s = exec i s := by
  rw [ringStep, hd]

/-- Operation 11 of a ring is answered ILLEGAL and changes nothing else (R104). -/
theorem ringStep_reserved (r : RingId) {w : RingWord} (hop : w.extractLsb' 8 2 = 3#2) (s : State) :
    ringStep r w s = .next (answerRing r .illegal 0 s) := by
  rw [ringStep, decodeRing, hop]
  rfl

/-- Settles O7: each port's event is the step of that port on the word it carries. -/
theorem stepRunsPortWords : Obligations.StepRunsPortWords := by
  intro s es hlegal
  refine ⟨fun r w i hs hd => ?_, fun r w hs hop => ?_, fun iv hs => step_of_sched hlegal hs⟩
  · exact (step_of_sched hlegal hs).trans (ringStep_ok hd _)
  · exact (step_of_sched hlegal hs).trans (ringStep_reserved r hop _)

end Sys2Proof.Machine
end

section
/-! PROOFS. The rings: RB_INIT, RB_PUT and RB_GET on a ring's port, TXB into the transmit ring, and a ring as a FIFO
(R101-R106, R121, R123). -/

namespace Sys2Proof.Machine

/-! ### A ring after a put and after a get -/

theorem putBuf_read_same (cap : Nat) (r : RingBuf) (b : Byte) : (putBuf cap r b).cells.read r.wr.toNat = some b :=
  Memory.read_write_same _ _ _

theorem putBuf_read_other (cap : Nat) (r : RingBuf) (b : Byte) {j : Nat} (h : j ≠ r.wr.toNat) :
    (putBuf cap r b).cells.read j = r.cells.read j :=
  Memory.read_write_other _ _ h

theorem RingInv.putBuf_cnt_toNat {cap : Nat} {r : RingBuf} (h : RingInv cap r) (h1 : cap ≤ 65535) (b : Byte)
    (hc : r.cnt.toNat ≠ cap) : (putBuf cap r b).cnt.toNat = r.cnt.toNat + 1 := by
  have hle := h.cnt_le
  exact ofNat16_toNat (by omega)

theorem getBuf_cnt_toNat (cap : Nat) {r : RingBuf} (hc : r.cnt.toNat ≠ 0) :
    (getBuf cap r).cnt.toNat + 1 = r.cnt.toNat := by
  have hcnt : (getBuf cap r).cnt.toNat = r.cnt.toNat - 1 := ofNat16_toNat (by omega)
  omega

theorem RingBuf.get_unwritten {cap : Nat} {r : RingBuf} (h : r.cnt.toNat ≠ 0) (hr : r.rd.toNat < cap)
    (hb : r.cells.read r.rd.toNat = none) : r.get cap = .error .unwrittenRead := by
  simp [RingBuf.get, h, cellRead_unwritten hr hb]

/-- Every byte a ring counts is in a written cell. -/
theorem RingInv.length_contents {cap : Nat} {r : RingBuf} (h : RingInv cap r) :
    (r.contents cap).length = r.cnt.toNat := by
  rw [RingBuf.contents, List.length_filterMap_eq_countP, List.countP_eq_length.2, List.length_range]
  exact fun k hk => h.written k (List.mem_range.1 hk)

/-! ### The operations of a ring's port -/

theorem setRing_ring_other (s : State) {r q : RingId} (x : RingBuf) (h : q ≠ r) :
    (s.setRing r x).ring q = s.ring q := by
  cases r with
  | txr =>
    cases q with
    | txr => exact absurd rfl h
    | rxr => rfl
  | rxr =>
    cases q with
    | txr => rfl
    | rxr => exact absurd rfl h

@[simp] theorem answerRing_ring (s : State) (r : RingId) (st : RingStatus) (d : Byte) :
    (answerRing r st d s).ring = s.ring := rfl

/-- Beside the ring `x`, a ring's port leaves one answer more, and the other ring and the rest of the machine as they
were (R78). -/
theorem answerRing_setRing_frame (s : State) (r : RingId) (x : RingBuf) (st : RingStatus) (d : Byte) :
    (answerRing r st d (s.setRing r x)).ringAnswers = s.ringAnswers ++ [⟨r, st, d⟩] ∧
    (∀ q, q ≠ r → (answerRing r st d (s.setRing r x)).ring q = s.ring q) ∧
    { answerRing r st d (s.setRing r x) with
      udc := { (answerRing r st d (s.setRing r x)).udc with txr := s.udc.txr, rxr := s.udc.rxr }
      ringAnswers := s.ringAnswers } = s := by
  refine ⟨?_, fun q hq => setRing_ring_other s x hq, ?_⟩
  · rw [answerRing_ringAnswers, setRing_ringAnswers]
  · cases r <;> rfl

/-- Settles O29: RB.INIT answers in every state, on a ring with its cursors reset. -/
theorem rbInitEmptiesRing : Obligations.RbInitEmptiesRing := by
  intro s r d
  refine ⟨_, exec_of_did .rbInit, ?_, answerRing_setRing_frame ..⟩
  rw [answerRing_ring, setRing_ring]
  rfl

/-- Settles O30: a full ring is answered FULL; with room the write cursor is in the array and the put is done there. -/
theorem rbPutStoresOrFull : Obligations.RbPutStoresOrFull := by
  intro s r d hl hr
  refine ⟨fun hc => exec_of_did (.rbFull hc), fun hc => ⟨_, exec_of_did (.rbPut hc hr.wr_lt), ?_⟩⟩
  rw [answerRing_ring, setRing_ring]
  exact ⟨putBuf_read_same .., fun j hj => putBuf_read_other _ _ _ hj, rfl,
    cursorNext_toNat (hl.ringCap_pos r) (hl.ringCap_le r), hr.putBuf_cnt_toNat (hl.ringCap_le r) d hc,
    answerRing_setRing_frame ..⟩

/-- Settles O31: by the count of the ring and the cell at its read cursor. -/
theorem rbGetTakesOrEmpty : Obligations.RbGetTakesOrEmpty := by
  intro s r d hl hrd
  have hcnt : (s.ring r).cnt ≠ 0 → (s.ring r).cnt.toNat ≠ 0 := fun h e => h (BitVec.eq_of_toNat_eq e)
  refine ⟨fun hc => exec_of_did (.rbEmpty (by rw [hc]; rfl)), fun hc hb => ?_, fun b hc hb => ?_⟩
  · simp only [exec, execRbGet, RingBuf.get_unwritten (hcnt hc) hrd hb]
  · refine ⟨_, exec_of_did (.rbGet (hcnt hc) hrd hb), ?_⟩
    rw [answerRing_ring, setRing_ring]
    exact ⟨cursorNext_toNat (hl.ringCap_pos r) (hl.ringCap_le r), getBuf_cnt_toNat _ (hcnt hc), rfl, rfl,
      answerRing_setRing_frame ..⟩

/-! ### TXB into the transmit ring -/

/-- TXB in INTR mode with room in the ring puts the byte, and kicks where wanted (R121, R123). -/
theorem exec_txb_room {i : Instr} {d : Byte} {f : Bool} {s : State} (hi : IsTxbOf i d f) (h0 : s.udc.inited = true)
    (hm : s.udc.txMode = .intr) (hc : s.udc.txr.cnt.toNat ≠ s.cfg.txCap) (hw : s.udc.txr.wr.toNat < s.cfg.txCap) :
    ∃ t, exec i s = .next t ∧ t.udc.txr = putBuf s.cfg.txCap s.udc.txr d ∧
      (kickWanted f s = true → t = respond .ok 0 (kick (s.setRing .txr t.udc.txr))) ∧
      (¬ kickWanted f s = true → t = respond .ok 0 (s.setRing .txr t.udc.txr)) := by
  by_cases hk : kickWanted f s = true
  · exact ⟨_, exec_of_did (.txbKick hi h0 hm hc hw hk), rfl, fun _ => rfl, fun hn => absurd hk hn⟩
  · exact ⟨_, exec_of_did (.txbPut hi h0 hm hc hw (Bool.eq_false_of_not_eq_true hk)), rfl,
      fun hx => absurd hx hk, fun _ => rfl⟩

/-- Settles O18: the ring takes the byte at its write cursor, and the kick is the one `kickWanted` asks for. -/
theorem txbEnqueues : Obligations.TxbEnqueues := by
  intro s d f i hi hl h0 hm hr hc
  obtain ⟨t, hx, hring, hkick, hput⟩ := exec_txb_room hi h0 hm hc hr.wr_lt
  rw [kickWanted_true] at hkick hput
  refine ⟨t, hx, ?_, ?_, ?_, ?_, ?_, hkick, hput⟩
  all_goals rw [hring]
  · exact putBuf_read_same ..
  · exact fun j hj => putBuf_read_other _ _ _ hj
  · exact putBuf_rd ..
  · exact cursorNext_toNat hl.txCap_pos hl.txCap_le
  · exact hr.putBuf_cnt_toNat hl.txCap_le d hc

/-! ### A ring as a FIFO -/

/-- What a run of puts and gets keeps: the ring's invariant, and the bytes got and then those held are the bytes put. -/
structure IsFifo (cap : Nat) (x : RingRun) : Prop where
  inv : RingInv cap x.ring
  queue : x.puts = x.gets ++ x.ring.contents cap

theorem IsFifo.init {cap : Nat} (h0 : 0 < cap) (r : RingBuf) : IsFifo cap ⟨r.init, [], []⟩ where
  inv := RingInv.init h0 r
  queue := (RingBuf.contents_init cap r).symm

theorem IsFifo.put {cap : Nat} {x : RingRun} (h : IsFifo cap x) (h1 : cap ≤ 65535) (b : Byte)
    (hc : x.ring.cnt.toNat ≠ cap) :
    IsFifo cap { x with ring := putBuf cap x.ring b, puts := x.puts ++ [b] } where
  inv := h.inv.put h1 b hc
  queue := by simp only [putBuf, h.inv.contents_put h1 b hc, h.queue, List.append_assoc]

theorem IsFifo.get {cap : Nat} {x : RingRun} (h : IsFifo cap x) (h1 : cap ≤ 65535) {b : Byte}
    (hc : x.ring.cnt.toNat ≠ 0) (hb : x.ring.cells.read x.ring.rd.toNat = some b) :
    IsFifo cap { x with ring := getBuf cap x.ring, gets := x.gets ++ [b] } where
  inv := h.inv.get h1 hc
  queue := by simp only [h.queue, h.inv.contents_get h1 hc hb, getBuf, List.append_assoc, List.singleton_append]

theorem IsFifo.length_puts {cap : Nat} {x : RingRun} (h : IsFifo cap x) :
    x.puts.length = x.gets.length + x.ring.cnt.toNat := by
  rw [h.queue, List.length_append, h.inv.length_contents]

/-- No operation of a run faults, and every one keeps the queue. -/
theorem IsFifo.run {cap : Nat} (h1 : cap ≤ 65535) (ops : List (Option Byte)) {x : RingRun} (h : IsFifo cap x) :
    ∃ y, ringRun cap ops x = .ok y ∧ IsFifo cap y := by
  induction ops generalizing x with
  | nil => exact ⟨x, rfl, h⟩
  | cons op ops ih =>
    cases op with
    | some b =>
      by_cases hc : x.ring.cnt.toNat = cap
      · simp only [ringRun, RingBuf.put_full b hc]
        exact ih h
      · simp only [ringRun, RingBuf.put_room b hc h.inv.wr_lt]
        exact ih (h.put h1 b hc)
    | none =>
      by_cases hc : x.ring.cnt.toNat = 0
      · simp only [ringRun, RingBuf.get_empty hc]
        exact ih h
      · obtain ⟨b, hb, hget⟩ := h.inv.get_some hc
        simp only [ringRun, hget]
        exact ih (h.get h1 hc hb)

/-- Settles O32: the queue is kept by every operation; its length gives the count. -/
theorem ringIsFifo : Obligations.RingIsFifo := by
  intro cap r ops h0 h1
  obtain ⟨y, hrun, hy⟩ := IsFifo.run h1 ops (.init h0 r)
  have hlen := hy.length_puts
  exact ⟨y, hrun, hy.queue, by omega, by omega, hy.inv.cnt_le⟩

end Sys2Proof.Machine
end

section
/-! PROOFS. One TXB on a full ring and one TXC, and the rings that stay empty (R122, R124, R126, R153, R172). -/

namespace Sys2Proof.Machine

/-- A step with an event scheduled that answers a next state is the named agent's. -/
theorem agentDid_of_step {e : Event} {es : List Event} {s t : State} (hs : s.sched = e :: es)
    (hstep : step s = .next t) : AgentDid { s with sched := es } e t := by
  obtain ⟨-, ⟨hidle, -⟩ | ⟨e', es', hs', hd⟩⟩ := step_did hstep
  · cases hs.symm.trans hidle
  · cases hs.symm.trans hs'
    exact hd

/-! ### TXB in INTR mode -/

/-- Settles O19: a full ring is the case of TXB that changes nothing; with room the put is done and answered. -/
theorem txbHoldsOnFullRing : Obligations.TxbHoldsOnFullRing := by
  intro s d i hi h0 hm
  obtain ⟨f, hi⟩ : ∃ f, IsTxbOf i d f := hi.elim (fun h => ⟨false, .inl ⟨h, rfl⟩⟩) fun h => ⟨true, .inr ⟨h, rfl⟩⟩
  refine ⟨fun hc => exec_of_did (.txbFull hi h0 hm hc), fun _ hr hc => ?_⟩
  obtain ⟨t, hx, -, hkick, hput⟩ := exec_txb_room hi h0 hm (Nat.ne_of_lt hc) hr.wr_lt
  refine ⟨t, hx, ?_⟩
  by_cases hk : kickWanted f s = true
  · rw [hkick hk]; rfl
  · rw [hput hk]; rfl

/-! ### TXC -/

theorem RingBuf.cnt_eq_zero_iff {r : RingBuf} : r.cnt = 0 ↔ r.cnt.toNat = 0 := BitVec.toNat_inj.symm

theorem txIdle_eq (s : State) : txIdle s = { s with udc := { s.udc with
    txBusy := false, ev := if s.cfg.txEvOnIdle then s.udc.ev ||| evTx else s.udc.ev } } := by
  unfold txIdle
  split <;> rfl

/-- TXC with a byte queued and the slot occupied writes over the byte in flight (R225). -/
theorem exec_dispTx_occupied {s : State} (hr : RingInv s.cfg.txCap s.udc.txr) (hc : s.udc.txr.cnt.toNat ≠ 0)
    (hs : s.periph.slot.isSome) : exec .dispTx s = .fault .txOverwrite := by
  obtain ⟨b, -, hget⟩ := hr.get_some hc
  obtain ⟨x, hx⟩ := Option.isSome_iff_exists.1 hs
  simp [exec, execDispTx, txComplete, hget, emitTxwr, txReady, hx, Except.map, finish]

/-- Settles O33: by the count of the ring and the slot. -/
theorem dispTxPumpsOneByte : Obligations.DispTxPumpsOneByte := by
  intro s hl hr
  simp only [Ne, RingBuf.cnt_eq_zero_iff]
  refine ⟨fun hc => ?_, fun hc hs => ?_, fun hc hs => exec_dispTx_occupied hr hc hs⟩
  · rw [exec_of_did (.txIdle hc), txIdle_eq]
    rfl
  · obtain ⟨b, hb, -⟩ := hr.get_some hc
    exact ⟨b, _, exec_of_did (.txSend hc hr.rd_lt hb hs), hr.contents_get hl.txCap_le hc hb,
      cursorNext_toNat hl.txCap_pos hl.txCap_le, getBuf_cnt_toNat _ hc, rfl⟩

/-! ### The rings a policy or mode does not use -/

theorem UnusedRingsEmpty.of_udc_eq {s t : State} (h : UnusedRingsEmpty s) (hu : t.udc = s.udc) :
    UnusedRingsEmpty t := by
  unfold UnusedRingsEmpty
  rw [hu]
  exact h

theorem UnusedRingsEmpty.signalLine {s : State} (h : UnusedRingsEmpty s) : UnusedRingsEmpty (signalLine s) := by
  simpa [UnusedRingsEmpty] using h

/-- In RING policy the receive ring is in use (R146). -/
theorem UnusedRingsEmpty.setRxr {s : State} (h : UnusedRingsEmpty s) (hp : s.udc.rxPol = .ring) (x : RingBuf) :
    UnusedRingsEmpty ((emit .rxrd s).setRing .rxr x) :=
  fun h0 => ⟨fun hl => (by cases hp.symm.trans hl), (h h0).2⟩

/-- Every operation of HOST and DISP keeps the unused rings empty: what fills a ring or starts the engine is done only
in the policy or mode that uses it (R121, R124, R146). -/
theorem Did.unusedRingsEmpty {i : Instr} {s t : State} (hd : Did s i t) (h : UnusedRingsEmpty s)
    (hi : contextOf i ≠ none) : UnusedRingsEmpty t := by
  cases hd with
  | init => exact fun _ => ⟨fun _ => rfl, fun _ => ⟨rfl, rfl⟩⟩
  | txbKick _ h0 hm | txbPut _ h0 hm => exact fun _ => ⟨(h h0).1, fun hm' => by cases hm.symm.trans hm'⟩
  | rxget h0 hc =>
    obtain ⟨hrx, htx⟩ := h h0
    exact fun _ => ⟨fun hp => absurd (RingBuf.cnt_eq_zero_iff.1 (hrx hp)) hc, htx⟩
  | rbInit | rbFull | rbPut | rbEmpty | rbGet => exact absurd rfl hi
  | rxQueued _ hp => exact h.setRxr hp _
  | rxQueuedCr _ hp => exact (h.setRxr hp _).signalLine
  | txIdle =>
    rw [txIdle_eq]
    intro h0
    obtain ⟨hrx, htx⟩ := h h0
    exact ⟨hrx, fun hm => ⟨(htx hm).1, rfl⟩⟩
  | txSend hc =>
    intro h0
    obtain ⟨hrx, htx⟩ := h h0
    exact ⟨hrx, fun hm => absurd (RingBuf.cnt_eq_zero_iff.1 (htx hm).1) hc⟩
  | _ => simpa [UnusedRingsEmpty] using h

theorem AgentDid.unusedRingsEmpty {e : Event} {s t : State} (hd : AgentDid s e t) (h : UnusedRingsEmpty s)
    (he : ∀ r w, e ≠ .ring r w) : UnusedRingsEmpty t := by
  cases hd with
  | command _ hw hx => exact hx.unusedRingsEmpty h (by rw [contextOf_decodeCommand hw]; exact Option.some_ne_none _)
  | receive _ _ hx => exact hx.unusedRingsEmpty h (Option.some_ne_none _)
  | transmit _ _ _ hx => exact hx.unusedRingsEmpty (h.of_udc_eq rfl) (Option.some_ne_none _)
  | cause hx => exact hx.unusedRingsEmpty h (by rw [contextOf_decodeCause]; exact Option.some_ne_none _)
  | ringOp | ringIllegal => exact absurd rfl (he _ _)
  | _ => exact h.of_udc_eq rfl

/-- Settles O44: by the agent whose turn it is and the operation it performs. -/
theorem stepKeepsUnusedRingsEmpty : Obligations.StepKeepsUnusedRingsEmpty := by
  intro s t e es _ h hs he hstep
  exact (agentDid_of_step hs hstep).unusedRingsEmpty (h.of_udc_eq rfl) he

end Sys2Proof.Machine
end

section
/-! PROOFS. The transmit engine over all steps: when TX_BUSY changes, and that the slot is overwritten only after an INIT
with a byte in flight (R123-R125, R128, R225, R255). -/

namespace Sys2Proof.Machine

@[simp] theorem setRing_txBusy (s : State) (r : RingId) (x : RingBuf) : (s.setRing r x).udc.txBusy = s.udc.txBusy := by
  cases r <;> rfl

@[simp] theorem setRing_txMode (s : State) (r : RingId) (x : RingBuf) : (s.setRing r x).udc.txMode = s.udc.txMode := by
  cases r <;> rfl

/-! ### What an operation does to the engine -/

/-- The engine and the peripheral's transmit side are as they were. -/
structure SameEngine (s t : State) : Prop where
  inited : t.udc.inited = s.udc.inited
  txMode : t.udc.txMode = s.udc.txMode
  txBusy : t.udc.txBusy = s.udc.txBusy
  txifg : t.periph.txifg = s.periph.txifg
  slot : t.periph.slot = s.periph.slot

/-- Everything an operation can do to the engine and the slot: leave them, INIT, kick an idle engine, write the slot in
POLLED mode, and the two outcomes of TXC (R123-R126, R191). -/
theorem Did.engine_cases {i : Instr} {s t : State} (h : Did s i t) :
    SameEngine s t ∨
    (CompletesInit s i ∧ t.udc.txBusy = false ∧ t.periph.slot = s.periph.slot) ∨
    (∃ d f, IsTxbOf i d f ∧ s.udc.inited = true ∧ s.udc.txMode = .intr ∧ s.udc.txBusy = false ∧
      t.periph.slot = s.periph.slot ∧ t.trace = s.trace ++ [.kick]) ∨
    (t.udc.txMode = .polled ∧ t.udc.txBusy = s.udc.txBusy) ∨
    (i = .dispTx ∧ s.udc.txr.cnt.toNat = 0 ∧ t.udc.txBusy = false) ∨
    (i = .dispTx ∧ s.udc.txr.cnt.toNat ≠ 0 ∧ t.udc.txBusy = true) := by
  cases h with
  | init hi hb => exact .inr (.inl ⟨⟨_, _, _, hi, hb⟩, rfl, rfl⟩)
  | txbKick hi h0 hm _ _ hk =>
    obtain ⟨-, hidle⟩ := kickWanted_true.1 hk
    exact .inr (.inr (.inl ⟨_, _, hi, h0, hm, hidle, rfl, rfl⟩))
  | txbDirect _ _ hm => exact .inr (.inr (.inr (.inl ⟨hm, rfl⟩)))
  | txIdle hc => exact .inr (.inr (.inr (.inr (.inl ⟨rfl, hc, by simp⟩))))
  | txSend hc => exact .inr (.inr (.inr (.inr (.inr ⟨rfl, hc, rfl⟩))))
  | _ => exact .inl (by constructor <;> simp)

/-! ### The slot is tracked by the engine -/

/-- A transmit interrupt taken from a tracked state finds the slot empty (R128, R227). -/
theorem SlotTracked.slot_eq_none {s : State} (h : SlotTracked s) (hinv : MachineInv s) (hi : s.periph.txifg = true)
    (he : s.periph.txie = true) : s.periph.slot = none := by
  have hmode : s.udc.inited = true ∧ s.udc.txMode = .intr := by simpa [he] using hinv.txie.symm
  obtain ⟨h0, hm⟩ := hmode
  by_contra hs
  obtain ⟨-, hclear⟩ := h h0 hm (Option.isSome_iff_ne_none.2 hs)
  exact Bool.noConfusion (hi.symm.trans hclear)

theorem SlotTracked.of_sameEngine {s t : State} (h : SlotTracked s) (hs : SameEngine s t) : SlotTracked t := by
  unfold SlotTracked
  rw [hs.inited, hs.txMode, hs.txBusy, hs.txifg, hs.slot]
  exact h

theorem SlotTracked.of_slot_eq_none {s : State} (h : s.periph.slot = none) : SlotTracked s := by
  intro _ _ hs
  rw [h] at hs
  cases hs

/-- TXC on an empty slot: the slot stays empty, or a busy engine fills it and the write clears the flag (R124, R225). -/
theorem slotTracked_of_txComplete {s t : State} (h : txComplete s = .ok t) (hs : s.periph.slot = none) :
    SlotTracked t := by
  rcases txComplete_cases h with ⟨-, rfl⟩ | ⟨b, -, -, -, -, rfl⟩
  · exact .of_slot_eq_none (by rw [txIdle_periph, hs])
  · exact fun _ _ _ => ⟨rfl, rfl⟩

/-- Beside TXC, an operation keeps the slot tracked but for an INIT with a byte in flight (R255). -/
theorem Did.slotTracked {i : Instr} {s t : State} (hd : Did s i t) (h : SlotTracked s) (hi : i ≠ .dispTx)
    (hinit : CompletesInit s i → s.periph.slot = none) : SlotTracked t := by
  rcases hd.engine_cases with hsame | ⟨hc, -, hs⟩ | ⟨d, f, -, h0, hm, hidle, hs, -⟩ | ⟨hm, -⟩ | ⟨hx, -⟩ | ⟨hx, -⟩
  · exact h.of_sameEngine hsame
  · exact .of_slot_eq_none (hs.trans (hinit hc))
  · -- a kicked engine was idle, so that the slot was empty
    refine .of_slot_eq_none (hs.trans (Option.not_isSome_iff_eq_none.1 fun hfull => ?_))
    exact Bool.noConfusion (hidle.symm.trans (h h0 hm hfull).1)
  · exact fun _ hm' => by cases hm.symm.trans hm'
  · exact absurd hx hi
  · exact absurd hx hi

/-- An overwrite is a transmit interrupt taken with the slot occupied (R225, R227). -/
theorem step_overwrite {s : State} {e : Event} {es : List Event} (h : MachineInv s) (hs : s.sched = e :: es)
    (he : e.inContract = true) (hf : step s = .fault .txOverwrite) :
    s.periph.txifg = true ∧ s.periph.txie = true ∧ s.periph.slot.isSome := by
  have hinv : MachineInv { s with sched := es } := h.of_same_engine rfl rfl rfl rfl rfl rfl
  rw [step_of_sched h.legal hs] at hf
  cases e with
  | host =>
    obtain ⟨hu, -⟩ := hostStep_fault hinv hf
    cases hu
  | disp =>
    obtain ⟨-, hen, hrx, hfull⟩ := dispStep_fault hinv hf
    simp only [dispatchEnabled, hrx, Bool.false_or, Bool.and_eq_true] at hen
    exact ⟨hen.1, hen.2, hfull⟩
  | txdone | rxin => cases hf
  | bus => exact absurd hf busAccess_ne_fault
  | cause | ring => cases he

/-- A contract step keeps the slot tracked but for an INIT with a byte in flight (R128, R255). -/
theorem step_slotTracked {s t : State} {e : Event} {es : List Event} (hinv : MachineInv s) (h : SlotTracked s)
    (hs : s.sched = e :: es) (he : e.inContract = true) (hinit : nextInitialises s → s.periph.slot = none)
    (hstep : step s = .next t) : SlotTracked t := by
  have h' : SlotTracked { s with sched := es } := h
  cases agentDid_of_step hs hstep with
  | noProgram | noInterrupt | txdoneIdle | illegalWord | rxin | busWrite | busRead =>
    exact h'.of_sameEngine ⟨rfl, rfl, rfl, rfl, rfl⟩
  | command hp hw hx =>
    refine hx.slotTracked h' (fun hi => ?_) fun hc => hinit ?_
    · subst hi
      cases contextOf_decodeCommand hw
    · exact nextInitialises_iff.2 ⟨_, nextInstr_command hs hp hw, hc⟩
  | receive _ _ hx =>
    refine hx.slotTracked h' (fun hi => by cases hi) fun ⟨_, _, _, hi, _⟩ => ?_
    cases contextOf_of_isInitOf hi
  | transmit _ hi hen hx => exact slotTracked_of_txComplete (txComplete_of_did hx) (h.slot_eq_none hinv hi hen)
  | txdone => exact .of_slot_eq_none rfl
  | cause | ringOp | ringIllegal => cases he

/-- Settles O46: a tracked slot is empty where TXC runs, and INIT is the one other step that can break the tracking. -/
theorem overwriteNeedsReInit : Obligations.OverwriteNeedsReInit := by
  intro s e es hinv htr hs he hinit
  refine ⟨fun hf => ?_, fun t => step_slotTracked hinv htr hs he hinit⟩
  obtain ⟨hi, hen, hfull⟩ := step_overwrite hinv hs he hf
  rw [htr.slot_eq_none hinv hi hen] at hfull
  cases hfull

/-! ### When the engine's flag changes -/

/-- A flag that keeps its value makes neither transition. -/
theorem no_transition_of_eq {a b : Bool} (h : b = a) {p q : Prop} :
    (a = false → b = true → p) ∧ (a = true → b = false → q) := by
  subst h
  exact ⟨fun h h' => Bool.noConfusion (h.symm.trans h'), fun h h' => Bool.noConfusion (h.symm.trans h')⟩

/-- Settles O50: by what the operation of the step does to the engine. -/
theorem busyTransitions : Obligations.BusyTransitions := by
  intro s t hstep
  rw [Ne, RingBuf.cnt_eq_zero_iff]
  rcases step_runs hstep with ⟨-, hu, -⟩ | ⟨i, u, hn, hd, hu, htr, hc, -⟩
  · exact no_transition_of_eq (by rw [hu])
  · rw [nextInitialises_iff_of_some hn hc, hn, ← hu, ← htr]
    rcases hd.engine_cases with hsame | ⟨hi, hb, -⟩ | ⟨d, f, hi, -, -, hb, -, hk⟩ | ⟨-, hb⟩ | ⟨rfl, h0, hb⟩ |
      ⟨rfl, h0, hb⟩
    · exact no_transition_of_eq hsame.txBusy
    · exact ⟨fun _ h => Bool.noConfusion (hb.symm.trans h), fun _ _ => .inr hi⟩
    · exact ⟨fun _ _ => .inl ⟨hk, d, hi.imp (congrArg some ·.1) (congrArg some ·.1)⟩,
        fun h => Bool.noConfusion (hb.symm.trans h)⟩
    · exact no_transition_of_eq hb
    · exact ⟨fun _ h => Bool.noConfusion (hb.symm.trans h), fun _ _ => .inl ⟨rfl, h0⟩⟩
    · exact ⟨fun _ _ => .inr ⟨rfl, h0⟩, fun _ h => Bool.noConfusion (hb.symm.trans h)⟩

end Sys2Proof.Machine
end

section
/-! PROOFS. Alternating DISPATCH and TXDONE drains the transmit ring (R124, R128, R223, R245). -/

namespace Sys2Proof.Machine

/-! ### One turn of DISP, one of PERIPH -/

/-- DISP with no byte in the receive latch takes the transmit interrupt, whose delivery clears the flag (R227). -/
theorem dispStep_transmit {s : State} (hr : s.periph.rxifg = false) (hi : s.periph.txifg = true)
    (he : s.periph.txie = true) :
    dispStep s = exec .dispTx { s with periph := { s.periph with txifg := false } } := by
  simp [dispStep, enterInterrupt, dispatchEnabled, deliverCause, hr, hi, he, returnFromInterrupt, decodeCause_tx]

/-- A run takes its first event, whatever the schedule was. -/
theorem runEvents_cons_of {e : Event} {es : List Event} {s u t : State} (hl : LegalConfig s.cfg)
    (hu : agentStep e { s with sched := es } = .next u) (ht : runEvents es u = .next t) :
    runEvents (e :: es) s = .next t :=
  runEvents_cons.2 ⟨u, (step_of_sched (s := { s with sched := e :: es }) hl rfl).trans hu, ht⟩

/-! ### The drain -/

/-- From here the transmit ring can be drained: INTR mode, the slot empty, the transmit flag up, no byte received. -/
structure Draining (s : State) : Prop where
  inv : MachineInv s
  inited : s.udc.inited = true
  intr : s.udc.txMode = .intr
  slot : s.periph.slot = none
  rxifg : s.periph.rxifg = false
  txifg : s.periph.txifg = true

theorem Draining.txie {s : State} (h : Draining s) : s.periph.txie = true := by
  rw [h.inv.txie, h.inited, h.intr]
  rfl

theorem Draining.ring {s : State} (h : Draining s) : RingInv s.cfg.txCap s.udc.txr := (h.inv.inited h.inited).txr

theorem Draining.with_sched {s : State} (h : Draining s) (es : List Event) : Draining { s with sched := es } :=
  ⟨h.inv.of_same_engine rfl rfl rfl rfl rfl rfl, h.inited, h.intr, h.slot, h.rxifg, h.txifg⟩

/-- The machine with its oldest queued byte `b` in the slot (R124). -/
def loaded (b : Byte) (s : State) : State :=
  { s with
    udc := { s.udc with txr := getBuf s.cfg.txCap s.udc.txr, txBusy := true }
    periph := { s.periph with slot := some b, txifg := false }
    trace := s.trace ++ [.txwr b] }

/-- The machine after that byte has left (R223). -/
def pumped (b : Byte) (s : State) : State :=
  { loaded b s with periph := { s.periph with sink := s.periph.sink ++ [b], slot := none, txifg := true } }

theorem Draining.pump {s : State} (h : Draining s) (hc : s.udc.txr.cnt.toNat ≠ 0) (b : Byte) :
    Draining (pumped b s) where
  inv := (h.inv.getRing .txr hc).of_unseen rfl rfl rfl rfl fun _ _ => .inl rfl
  inited := h.inited
  intr := h.intr
  slot := rfl
  rxifg := h.rxifg
  txifg := rfl

theorem Draining.dispStep_loads {s : State} {b : Byte} (h : Draining s) (hc : s.udc.txr.cnt.toNat ≠ 0)
    (hb : s.udc.txr.cells.read s.udc.txr.rd.toNat = some b) : dispStep s = .next (loaded b s) :=
  (dispStep_transmit h.rxifg h.txifg h.txie).trans (exec_of_did (.txSend hc h.ring.rd_lt hb h.slot))

theorem txdone_loaded (b : Byte) (s : State) : agentStep .txdone (loaded b s) = .next (pumped b s) := rfl

theorem Draining.dispStep_idles {s : State} (h : Draining s) (hc : s.udc.txr.cnt.toNat = 0) :
    dispStep s = .next (txIdle { s with periph := { s.periph with txifg := false } }) :=
  (dispStep_transmit h.rxifg h.txifg h.txie).trans (exec_of_did (.txIdle hc))

/-- One turn of DISP and one of TXDONE move the oldest byte to the line. -/
theorem Draining.run_pump {s t : State} {b : Byte} {evs : List Event} (h : Draining s) (hc : s.udc.txr.cnt.toNat ≠ 0)
    (hb : s.udc.txr.cells.read s.udc.txr.rd.toNat = some b)
    (ht : runEvents evs (pumped b s) = .next t) : runEvents (.disp :: .txdone :: evs) s = .next t :=
  runEvents_cons_of h.inv.legal ((h.with_sched (.txdone :: evs)).dispStep_loads hc hb)
    (runEvents_cons_of h.inv.legal (txdone_loaded b { s with sched := evs }) ht)

/-- Each byte takes a turn of DISP and one of TXDONE, and a last DISP finds the ring empty. -/
def drainEvents (n : Nat) : List Event := (List.replicate n [Event.disp, Event.txdone]).flatten ++ [Event.disp]

theorem drainEvents_succ (n : Nat) : drainEvents (n + 1) = .disp :: .txdone :: drainEvents n := rfl

/-- The bytes of `bs` have left, and the transmit side is at rest. -/
structure Drained (bs : List Byte) (s t : State) : Prop where
  sink : t.periph.sink = s.periph.sink ++ bs
  trace : t.trace = s.trace ++ bs.map OutEvent.txwr
  cnt : t.udc.txr.cnt = 0
  txBusy : t.udc.txBusy = false
  slot : t.periph.slot = none
  txifg : t.periph.txifg = false
  rxifg : t.periph.rxifg = false
  host : t.host = s.host

theorem Draining.run_empty {s : State} (h : Draining s) (hc : s.udc.txr.cnt.toNat = 0) :
    ∃ t, runEvents (drainEvents 0) s = .next t ∧ Drained [] s t := by
  refine ⟨_, runEvents_cons_of h.inv.legal ((h.with_sched []).dispStep_idles hc) (runEvents_nil _), ?_⟩
  have hcnt : s.udc.txr.cnt = 0 := RingBuf.cnt_eq_zero_iff.2 hc
  constructor <;> simp [hcnt, h.slot, h.rxifg]

theorem Draining.run {bs : List Byte} {s : State} (h : Draining s) (hbs : s.udc.txr.contents s.cfg.txCap = bs) :
    ∃ t, runEvents (drainEvents bs.length) s = .next t ∧ Drained bs s t := by
  induction bs generalizing s with
  | nil =>
    refine h.run_empty ?_
    rw [← h.ring.length_contents, hbs]
    rfl
  | cons b bs ih =>
    have hc : s.udc.txr.cnt.toNat ≠ 0 := by
      rw [← h.ring.length_contents, hbs]
      exact Nat.succ_ne_zero _
    obtain ⟨c, hcell, -⟩ := h.ring.get_some hc
    rw [h.ring.contents_get h.inv.legal.txCap_le hc hcell] at hbs
    obtain ⟨rfl, hrest⟩ := List.cons.inj hbs
    obtain ⟨t, hrun, hd⟩ := ih (h.pump hc c) hrest
    refine ⟨t, ?_, { hd with
      sink := by simpa [pumped] using hd.sink
      trace := by simpa [pumped, loaded] using hd.trace }⟩
    rw [List.length_cons, drainEvents_succ]
    exact h.run_pump hc hcell hrun

/-- Settles O48: byte by byte, by induction on what the ring holds. -/
theorem drainDeliversEveryByte : Obligations.DrainDeliversEveryByte := by
  intro s hinv h0 hm hs hr hi
  obtain ⟨t, hrun, hd⟩ := Draining.run ⟨hinv, h0, hm, hs, hr, hi⟩ rfl
  refine ⟨t, hrun, hd.sink, hd.trace, hd.cnt, hd.txBusy, hd.slot, hd.txifg, fun hp => ?_⟩
  have hquiet : dispatchEnabled t.periph = false := by simp [dispatchEnabled, hd.rxifg, hd.txifg]
  exact ⟨hd.host ▸ hp, hquiet, hd.slot, fun _ _ => ⟨hd.cnt, hd.txBusy⟩⟩

end Sys2Proof.Machine
end

section
/-! PROOFS. The transmit hang: with the engine idle and no transmit interrupt coming, nothing moves the queued bytes
(R122, R245, R250, R251). -/

namespace Sys2Proof.Machine

/-- What the steps of a kind of event keep, whatever the schedule, a run of such events keeps. -/
theorem run_keeps {P : State → Prop} {Q : Event → Prop} (hsched : ∀ s es, P s → P { s with sched := es })
    (hstep : ∀ s t e, Q e → P s → AgentDid s e t → P t) {evs : List Event} {s t : State} (hQ : ∀ e ∈ evs, Q e)
    (hs : P s) (hrun : runEvents evs s = .next t) : P t := by
  refine runEvents_preserves hsched (fun s t e es hq he hp hst => ?_) evs s t hQ hs hrun
  exact hstep _ t e hq (hsched s es hp) (agentDid_of_step he hst)

/-! ### A transmit side that nothing moves -/

/-- `t` has the parameters and the transmit ring of `s`, in INTR mode, with the engine idle and no transmit interrupt
pending or coming. -/
structure Dormant (s t : State) : Prop where
  cfg : t.cfg = s.cfg
  txr : t.udc.txr = s.udc.txr
  inited : t.udc.inited = true
  txMode : t.udc.txMode = .intr
  txBusy : t.udc.txBusy = false
  txifg : t.periph.txifg = false
  slot : t.periph.slot = none

theorem Dormant.with_sched {s t : State} (h : Dormant s t) (es : List Event) : Dormant s { t with sched := es } :=
  ⟨h.cfg, h.txr, h.inited, h.txMode, h.txBusy, h.txifg, h.slot⟩

/-- Receiving a byte leaves the transmit side as it was (R51, R171). -/
theorem Did.dormant_of_dispRx {s t u : State} (hd : Did t .dispRx u) (h : Dormant s t) : Dormant s u := by
  obtain ⟨hcfg, htxr, h0, hm, hb, hi, hs⟩ := h
  cases hd with
  | notInit hx => cases hx
  | init hx | badRate hx => cases contextOf_of_isInitOf hx
  | txbFull hx | txbKick hx | txbPut hx | txbWait hx | txbDirect hx => cases contextOf_of_isTxbOf hx
  | _ => constructor <;> simpa

/-- A step of DISP, PERIPH or the bus leaves a dormant transmit side dormant: no transmit interrupt comes (R227, R250). -/
theorem AgentDid.dormant {e : Event} {s t u : State} (hd : AgentDid t e u) (he : e.inContract = true)
    (hhost : e = .host → u = t) (h : Dormant s t) : Dormant s u := by
  cases hd with
  | noProgram | noInterrupt | txdoneIdle => exact h
  | illegalWord | command => rw [hhost rfl]; exact h
  | receive _ _ hx => exact hx.dormant_of_dispRx h
  | transmit _ hi => exact Bool.noConfusion (h.txifg.symm.trans hi)
  | txdone hs => cases h.slot.symm.trans hs
  | rxin | busWrite | busRead => exact ⟨h.cfg, h.txr, h.inited, h.txMode, h.txBusy, h.txifg, h.slot⟩
  | cause | ringOp | ringIllegal => cases he

/-- Of the other agents only the bus changes the host's side: it adds a command at the end of the program, or a word the
host reads (R57). -/
theorem AgentDid.host_frame {e : Event} {s t : State} (hd : AgentDid s e t) (he : e.inContract = true)
    (hhost : e ≠ .host) : (e.isAgentStep = true → t.host = s.host) ∧ s.host.prog <+: t.host.prog ∧
      t.host.resps = s.host.resps := by
  cases hd with
  | noProgram | illegalWord | command => exact absurd rfl hhost
  | noInterrupt | txdoneIdle | txdone | rxin => exact ⟨fun _ => rfl, ⟨[], List.append_nil _⟩, rfl⟩
  | receive _ _ hx | transmit _ _ _ hx =>
    have hh := (hx.dispKeeps rfl).host
    rw [hh]
    exact ⟨fun _ => rfl, ⟨[], List.append_nil _⟩, rfl⟩
  | busWrite => exact ⟨fun ha => (by cases ha), ⟨_, rfl⟩, rfl⟩
  | busRead => exact ⟨fun ha => (by cases ha), ⟨[], List.append_nil _⟩, rfl⟩
  | cause | ringOp | ringIllegal => cases he

theorem Event.inContract_of_isAgentStep {e : Event} (h : e.isAgentStep = true) : e.inContract = true := by
  cases e with
  | cause | ring | bus => cases h
  | _ => rfl

/-! ### A command held for ever -/

/-- TXB on a full ring in INTR mode does nothing (R122). -/
theorem Did.eq_of_txb_full {i : Instr} {d : Byte} {f : Bool} {s t : State} (hd : Did s i t) (hi : IsTxbOf i d f)
    (h0 : s.udc.inited = true) (hm : s.udc.txMode = .intr) (hc : s.udc.txr.cnt.toNat = s.cfg.txCap) : t = s := by
  have hx := exec_of_did hd
  rw [exec_of_did (.txbFull hi h0 hm hc)] at hx
  exact (Host.Outcome.next.inj hx).symm

/-- A host whose next command is a TXB makes no step while the transmit ring is full (R122). -/
theorem AgentDid.eq_of_held {w : Word} {i : Instr} {d : Byte} {f : Bool} {s t : State} (hd : AgentDid s .host t)
    (hw : s.host.prog.head? = some w) (hdec : decodeCommand w = .ok i) (hi : IsTxbOf i d f)
    (h0 : s.udc.inited = true) (hm : s.udc.txMode = .intr) (hc : s.udc.txr.cnt.toNat = s.cfg.txCap) : t = s := by
  cases hd with
  | noProgram hp => rfl
  | illegalWord hp hx =>
    rw [hp] at hw
    cases hw
    cases hx.symm.trans hdec
  | command hp hx hy =>
    rw [hp] at hw
    cases hw
    cases hx.symm.trans hdec
    exact hy.eq_of_txb_full hi h0 hm hc

/-- A host whose program is exhausted makes no step (R245). -/
theorem AgentDid.eq_of_noProgram {s t : State} (hd : AgentDid s .host t) (hp : s.host.prog = []) : t = s := by
  cases hd with
  | noProgram => rfl
  | illegalWord hq | command hq => cases hp.symm.trans hq

/-- What a TXB `w` held in `s` keeps: the transmit side dormant, the word at the head of the program, no answer. -/
structure Held (w : Word) (s t : State) : Prop where
  dormant : Dormant s t
  head : t.host.prog.head? = some w
  resps : t.host.resps = s.host.resps

/-- A TXB held on a full ring with a dormant transmit side stays held under every contract step (R122, R250). -/
theorem AgentDid.held {e : Event} {w : Word} {i : Instr} {d : Byte} {f : Bool} {s t u : State} (hd : AgentDid t e u)
    (he : e.inContract = true) (hdec : decodeCommand w = .ok i) (hi : IsTxbOf i d f)
    (hc : s.udc.txr.cnt.toNat = s.cfg.txCap) (h : Held w s t) : Held w s u := by
  have hfull : t.udc.txr.cnt.toNat = t.cfg.txCap := by rw [h.dormant.txr, h.dormant.cfg, hc]
  have hhost : e = .host → u = t := fun hx => by
    subst hx
    exact hd.eq_of_held h.head hdec hi h.dormant.inited h.dormant.txMode hfull
  by_cases hx : e = .host
  · rw [hhost hx]
    exact h
  · obtain ⟨-, ⟨ws, hprog⟩, hresps⟩ := hd.host_frame he hx
    have hhead : u.host.prog.head? = some w := by rw [← hprog, List.head?_append, h.head]; rfl
    exact ⟨hd.dormant he hhost h.dormant, hhead, hresps.trans h.resps⟩

/-- With the host's program exhausted a dormant transmit side stays dormant, and the host as it is (R250). -/
theorem AgentDid.stranded {e : Event} {s t u : State} (hd : AgentDid t e u) (he : e.isAgentStep = true)
    (hp : s.host.prog = []) (h : Dormant s t ∧ t.host = s.host) : Dormant s u ∧ u.host = s.host := by
  obtain ⟨hdorm, hsame⟩ := h
  have hcon := Event.inContract_of_isAgentStep he
  have hhost : e = .host → u = t := fun hx => by
    subst hx
    exact hd.eq_of_noProgram (by rw [hsame, hp])
  refine ⟨hd.dormant hcon hhost hdorm, ?_⟩
  by_cases hx : e = .host
  · rw [hhost hx, hsame]
  · obtain ⟨hframe, -⟩ := hd.host_frame hcon hx
    exact (hframe he).trans hsame

section

variable {s t : State} {evs : List Event}

/-- A TXB once held is held at the end of every run of contract steps. -/
theorem Held.run {w : Word} {i : Instr} {d : Byte} {f : Bool} (h : Held w s s) (hdec : decodeCommand w = .ok i)
    (hi : IsTxbOf i d f) (hc : s.udc.txr.cnt.toNat = s.cfg.txCap) (he : ∀ e ∈ evs, e.inContract = true)
    (hrun : runEvents evs s = .next t) : Held w s t :=
  run_keeps (fun _ es ht => ⟨ht.dormant.with_sched es, ht.head, ht.resps⟩)
    (fun _ _ _ he ht hd => hd.held he hdec hi hc ht) he h hrun

/-- Stranded bytes are stranded at the end of every run of HOST, DISP and PERIPH. -/
theorem Dormant.run (h : Dormant s s) (hp : s.host.prog = []) (he : ∀ e ∈ evs, e.isAgentStep = true)
    (hrun : runEvents evs s = .next t) : Dormant s t ∧ t.host = s.host :=
  run_keeps (P := fun t => Dormant s t ∧ t.host = s.host) (fun _ es ⟨hdorm, hhost⟩ => ⟨hdorm.with_sched es, hhost⟩)
    (fun _ _ _ he ht hd => hd.stranded he hp ht) he ⟨h, rfl⟩ hrun

end

/-- Settles O49: the dormant transmit side and the waiting host are an invariant of the run, and no final state has
either. -/
theorem transmitHang : Obligations.TransmitHang := by
  intro s _ h0 hm hb hi hs
  have hself : Dormant s s := ⟨rfl, rfl, h0, hm, hb, hi, hs⟩
  refine ⟨fun w ws d hp hdec hc => ?_, fun hp hc => ⟨fun evs t he ht => ?_, fun evs he t ht hfin => ?_⟩⟩
  · obtain ⟨i, f, hdec, htxb⟩ : ∃ i f, decodeCommand w = .ok i ∧ IsTxbOf i d f :=
      hdec.elim (fun h => ⟨_, _, h, .inl ⟨rfl, rfl⟩⟩) fun h => ⟨_, _, h, .inr ⟨rfl, rfl⟩⟩
    have hheld : Held w s s := ⟨hself, by rw [hp]; rfl, rfl⟩
    refine ⟨fun evs t he ht => ?_, fun evs he t ht hfin => ?_⟩
    · obtain ⟨hdorm, hhead, hresps⟩ := hheld.run hdec htxb hc he ht
      exact ⟨hhead, hresps, hdorm.txr, hdorm.txBusy⟩
    · have hcon : ∀ e ∈ evs, e.inContract = true := fun e hx => Event.inContract_of_isAgentStep (he e hx)
      obtain ⟨-, hhead, -⟩ := hheld.run hdec htxb hc hcon ht
      obtain ⟨hprog, -⟩ := hfin
      rw [hprog] at hhead
      cases hhead
  · obtain ⟨hdorm, hhost⟩ := hself.run hp he ht
    exact ⟨hhost, hdorm.txr, hdorm.txBusy⟩
  · obtain ⟨hdorm, -⟩ := hself.run hp he ht
    obtain ⟨-, -, -, hempty⟩ := hfin
    obtain ⟨hcnt, -⟩ := hempty hdorm.inited hdorm.txMode
    exact hc (hdorm.txr ▸ hcnt)

end Sys2Proof.Machine
end

section
/-! PROOFS. The consumer commands: GETLN, LBRD, REARM, RXGET and RDERR (R150-R154). -/

namespace Sys2Proof.Machine

/-- In RING policy no line is pending and the line cursor stays at 0 (R33, R146). -/
theorem MachineInv.ring_armed {s : State} (h : MachineInv s) (h0 : s.udc.inited = true) (hp : s.udc.rxPol = .ring) :
    s.udc.lbEn = true ∧ s.udc.lbP = 0 :=
  (h.inited h0).ring_armed hp

/-- Settles O23: by the latch, which the invariant keeps open in RING policy. -/
theorem getlnReportsPendingLine : Obligations.GetlnReportsPendingLine := by
  intro s h0
  have hnone : s.udc.lbEn = true → exec .getln s = .next { s with host := answered s .none 0 } :=
    fun hl => exec_of_did (.getlnNone h0 hl)
  exact ⟨fun hl => exec_of_did (.getlnPending h0 hl), hnone, fun h hp => hnone (h.ring_armed h0 hp).1, fun _ => rfl⟩

theorem exec_lbrd_unwritten {s : State} {k : Byte} (h0 : s.udc.inited = true) (hk : k.toNat < s.cfg.lbCap)
    (hb : s.udc.lbs.read k.toNat = none) : exec (.lbrd k) s = .fault .unwrittenRead :=
  (requireInit_true h0 _).trans (by rw [if_neg (Nat.not_le.2 hk), cellRead_unwritten hk hb])

/-- Settles O24: an index is outside the buffer, or its cell is written or not. -/
theorem lbrdReadsLineBuffer : Obligations.LbrdReadsLineBuffer := by
  intro s k h0
  refine ⟨fun hk => exec_of_did (.lbrdOut h0 hk), fun b hk hb => ?_, fun hk hb => exec_lbrd_unwritten h0 hk hb⟩
  rw [← dataOfByte_eq]
  exact exec_of_did (.lbrd h0 hk hb)

/-- Arming an armed assembler whose cursor is at 0 changes nothing. -/
theorem armLine_of_armed {s : State} (hen : s.udc.lbEn = true) (hp : s.udc.lbP = 0) : armLine s = s := by
  rw [armLine, ← hen, ← hp]

/-- Settles O26: REARM arms, and in RING policy the assembler is armed already. -/
theorem rearmArms : Obligations.RearmArms := by
  intro s h0
  have hx := exec_of_did (.rearm h0)
  refine ⟨hx, fun h hpol => ?_⟩
  obtain ⟨hen, hp⟩ := h.ring_armed h0 hpol
  rw [armLine_of_armed hen hp] at hx
  exact hx

/-- Settles O27: by the count of the receive ring, which is 0 where LINE policy leaves the ring unused. -/
theorem rxgetTakesOldestByte : Obligations.RxgetTakesOldestByte := by
  intro s hl h0 hr
  have hempty : s.udc.rxr.cnt = 0 → exec .rxget s = .next { s with host := answered s .empty 0 } :=
    fun hc => exec_of_did (.rxgetEmpty h0 (RingBuf.cnt_eq_zero_iff.1 hc))
  refine ⟨hempty, fun hunused hp => hempty ((hunused h0).1 hp), fun hc => ?_⟩
  rw [Ne, RingBuf.cnt_eq_zero_iff] at hc
  obtain ⟨b, hb, -⟩ := hr.get_some hc
  refine ⟨b, _, exec_of_did (.rxget h0 hc hr.rd_lt hb), hr.contents_get hl.rxCap_le hc hb,
    cursorNext_toNat hl.rxCap_pos hl.rxCap_le, getBuf_cnt_toNat _ hc, ?_⟩
  rw [← dataOfByte_eq]
  rfl

/-- Settles O28: RDERR only answers. -/
theorem rderrReadsOverrun : Obligations.RderrReadsOverrun :=
  fun _ h0 => exec_of_did (.rderr h0)

end Sys2Proof.Machine
end

section
/-! PROOFS. DISP.RX with a byte that has no hardware error: the line handler and the ring handler (R142-R146, R171,
R231). -/

namespace Sys2Proof.Machine

theorem signalLine_eq (s : State) : signalLine s = { s with
    udc := { s.udc with ev := s.udc.ev ||| evRx }
    trace := s.trace ++ (if s.cfg.lpmWake then [.wake] else []) } := by
  unfold signalLine
  split
  · rfl
  · rw [List.append_nil]; rfl

/-! ### LINE policy -/

/-- Settles O35: an LF is dropped in every state; any other byte meets an assembler that rejects it. -/
theorem dispRxLineDropsAndRejects : Obligations.DispRxLineDropsAndRejects := by
  intro s he hp
  refine ⟨fun hlf => exec_of_did (.rxLf he hp hlf), fun hlf hr => ?_⟩
  have hrej : lineRejects s = true := lineRejects_true.2 hr
  exact ⟨fun hcr => exec_of_did (.rxRejected he hp hlf hrej hcr), fun hcr =>
    exec_of_did (.rxResync he hp hrej hcr)⟩

/-- Below the capacity the line cursor advances without wrapping (R8, R31). -/
theorem lineCursor_next {p : Byte} {cap : Nat} (hp : p.toNat < cap) (hcap : cap ≤ 255) :
    (BitVec.ofNat 8 (p.toNat + 1)).toNat = p.toNat + 1 := by
  rw [BitVec.toNat_ofNat]; exact Nat.mod_eq_of_lt (by omega)

/-- Settles O36: a CR writes the terminator and is signalled; any other byte is written at the cursor. -/
theorem dispRxLineAccepts : Obligations.DispRxLineAccepts := by
  intro s hl he hp hlf hen hroom
  have hacc : lineRejects s = false := lineRejects_false.2 ⟨hen, Nat.ne_of_lt hroom⟩
  by_cases hcr : s.periph.rxb = charCR
  · have hx := exec_of_did (.rxComplete he hp hacc hcr hroom)
    rw [signalLine_eq] at hx
    exact ⟨_, hx, fun j hj => Memory.read_write_other _ _ hj, rfl, rfl,
      fun _ => ⟨Memory.read_write_same .., rfl, (List.append_cons ..).symm⟩, fun hn => absurd hcr hn⟩
  · exact ⟨_, exec_of_did (.rxStore he hp hacc hlf hcr hroom), fun j hj => Memory.read_write_other _ _ hj, rfl, rfl,
      fun hn => absurd hn hcr, fun _ => ⟨Memory.read_write_same .., lineCursor_next hroom hl.lbCap_le, rfl, rfl⟩⟩

/-! ### RING policy -/

/-- The ring handler's signal: EV_RX and WAKE on a CR, stored or dropped (R146). -/
def signalCr (b : Byte) (s : State) : State := if b = charCR then signalLine s else s

theorem signalCr_eq (b : Byte) (s : State) : signalCr b s = { s with
    udc := { s.udc with ev := if b = charCR then s.udc.ev ||| evRx else s.udc.ev }
    trace := s.trace ++ (if b = charCR ∧ s.cfg.lpmWake = true then [.wake] else []) } := by
  unfold signalCr
  by_cases hb : b = charCR
  · simp only [hb, if_true, true_and, signalLine_eq]
  · simp only [hb, if_false, false_and, List.append_nil]

theorem execDispRx_of_rxRing {s u : State} (he : s.periph.rxe = false) (hp : s.udc.rxPol = .ring)
    (h : rxRing s.periph.rxb (emit .rxrd s) = .ok (decide (s.periph.rxb = charCR), u)) :
    exec .dispRx s = .next (signalCr s.periph.rxb u) := by
  rw [execDispRx_of he ((rxHandler_ring (s := emit .rxrd s) hp).trans h), signalCr]
  simp only [decide_eq_true_iff]

/-- Settles O37: a full ring drops the byte, a ring with room takes it at its write cursor, and either way a CR is
signalled. -/
theorem dispRxRingPolicy : Obligations.DispRxRingPolicy := by
  intro s hl he hp hr
  by_cases hc : s.udc.rxr.cnt.toNat = s.cfg.rxCap
  · have hx := execDispRx_of_rxRing he hp (rxRing_full (s := emit .rxrd s) _ hc)
    rw [signalCr_eq] at hx
    exact ⟨_, hx, rfl, rfl, (List.append_cons ..).symm, rfl, fun _ => ⟨rfl, rfl⟩, fun hn => absurd hc hn⟩
  · have hx := execDispRx_of_rxRing he hp (rxRing_room (s := emit .rxrd s) _ hc hr.wr_lt)
    rw [signalCr_eq] at hx
    exact ⟨_, hx, rfl, rfl, (List.append_cons ..).symm, rfl, fun hf => absurd hf hc, fun _ =>
      ⟨rfl, putBuf_read_same .., fun j hj => putBuf_read_other _ _ _ hj, rfl,
        cursorNext_toNat hl.rxCap_pos hl.rxCap_le, hr.putBuf_cnt_toNat hl.rxCap_le _ hc,
        hr.contents_put hl.rxCap_le _ hc⟩⟩

end Sys2Proof.Machine
end

section
/-! PROOFS. A line that does not fit (R142-R144, R148). -/

namespace Sys2Proof.Machine

/-- The assembler armed again after a line that did not fit: of the bytes of a list those with room are stored from its
cursor on, each later one and the CR are counted (R143, R148). -/
def lineResynced (acc : List Byte) (s : State) : State :=
  { s with udc := { s.udc with
      lbs := Memory.writeFrom s.udc.lbs s.udc.lbP.toNat (acc.take (s.cfg.lbCap - s.udc.lbP.toNat))
      lbEn := true, lbP := 0
      ovr := s.udc.ovr + BitVec.ofNat 16 (s.udc.lbP.toNat + acc.length - s.cfg.lbCap + 1) } }

/-- A CR at a full assembler is counted and arms it (R143). -/
theorem lineResynced_nil {s : State} (hfull : s.udc.lbP.toNat = s.cfg.lbCap) :
    armLine (countOverrun s) = lineResynced [] s := by
  simp [lineResynced, hfull, armLine, countOverrun, Memory.writeFrom]

/-- A byte counted at a full assembler is one more that did not fit (R143). -/
theorem lineResynced_countOverrun {s : State} (hfull : s.udc.lbP.toNat = s.cfg.lbCap) (b : Byte) (acc : List Byte) :
    lineResynced acc (countOverrun s) = lineResynced (b :: acc) s := by
  have hcount : BitVec.ofNat 16 (acc.length + 1 + 1) = 1 + BitVec.ofNat 16 (acc.length + 1) := by
    rw [Nat.add_comm _ 1, BitVec.ofNat_add]
    rfl
  simp [lineResynced, hfull, countOverrun, hcount, BitVec.add_assoc]

/-- A byte stored with room is the first of those with room (R142). -/
theorem lineResynced_store {s : State} (hroom : s.udc.lbP.toNat < s.cfg.lbCap) (hcap : s.cfg.lbCap ≤ 255) (b : Byte)
    (acc : List Byte) :
    lineResynced acc { s with udc := { s.udc with
      lbs := s.udc.lbs.write s.udc.lbP.toNat b, lbP := BitVec.ofNat 8 (s.udc.lbP.toNat + 1) } } =
      lineResynced (b :: acc) s := by
  have htake : s.cfg.lbCap - s.udc.lbP.toNat = s.cfg.lbCap - (s.udc.lbP.toNat + 1) + 1 := by omega
  have hcount : s.udc.lbP.toNat + 1 + acc.length = s.udc.lbP.toNat + (acc.length + 1) := by omega
  simp only [lineResynced, lineCursor_next hroom hcap, htake, List.take_succ_cons, Memory.writeFrom_cons,
    List.length_cons, hcount]

/-- An armed assembler stores what fits, counts the rest and the CR, and signals nothing (R142-R144, R148). -/
theorem feedLine_resyncs (bs : List Byte) {s : State} (hcap : s.cfg.lbCap ≤ 255) (hen : s.udc.lbEn = true)
    (hp : s.udc.lbP.toNat ≤ s.cfg.lbCap) (hcr : charCR ∉ bs)
    (hover : s.cfg.lbCap ≤ s.udc.lbP.toNat + (lineBytes bs).length) :
    feedLine (bs ++ [charCR]) s = .ok (List.replicate (bs.length + 1) false, lineResynced (lineBytes bs) s) := by
  induction bs generalizing s with
  | nil =>
    have hfull : s.udc.lbP.toNat = s.cfg.lbCap := Nat.le_antisymm hp hover
    have hrej := rxLine_rejected (b := charCR) (by decide) (lineRejects_true.2 (.inr hfull))
    rw [if_pos rfl, lineResynced_nil hfull] at hrej
    exact feedLine_cons_of hrej rfl
  | cons b bs ih =>
    obtain ⟨hb, hcr'⟩ := List.ne_and_not_mem_of_not_mem_cons hcr
    by_cases hlf : b = charLF
    · subst hlf
      rw [lineBytes_lf_cons] at hover ⊢
      exact feedLine_cons_of (rxLine_lf s) (ih hcap hen hp hcr' hover)
    · rw [lineBytes_cons hlf] at hover ⊢
      rw [List.length_cons] at hover
      rcases Nat.eq_or_lt_of_le hp with hfull | hroom
      · have hrej := rxLine_rejected hlf (lineRejects_true.2 (.inr hfull))
        rw [if_neg (Ne.symm hb)] at hrej
        rw [← lineResynced_countOverrun hfull]
        exact feedLine_cons_of hrej (ih hcap hen hp hcr' (hfull ▸ Nat.le_add_right _ _))
      · have hnext := lineCursor_next hroom hcap
        have hstore := rxLine_store hlf (Ne.symm hb) (lineRejects_false.2 ⟨hen, Nat.ne_of_lt hroom⟩) hroom
        rw [← lineResynced_store hroom hcap]
        exact feedLine_cons_of hstore (ih hcap hen (by rw [hnext]; exact hroom) hcr'
          (by simp only [hnext]; omega))

/-- Settles O40: what the assembler has stored from index 0 on, up to its capacity, is read back cell by cell. -/
theorem overlongLineResynchronises : Obligations.OverlongLineResynchronises := by
  intro s bs acc hlegal hen hp hcr hacc hover
  obtain rfl : acc = lineBytes bs := hacc
  have hp0 : s.udc.lbP.toNat = 0 := by rw [hp]; rfl
  have hlbs : (lineResynced (lineBytes bs) s).udc.lbs =
      Memory.writeFrom s.udc.lbs 0 ((lineBytes bs).take s.cfg.lbCap) := by
    rw [lineResynced, hp0, Nat.sub_zero]
  have hlen : ((lineBytes bs).take s.cfg.lbCap).length = s.cfg.lbCap := List.length_take_of_le hover
  refine ⟨lineResynced (lineBytes bs) s,
    feedLine_resyncs bs hlegal.lbCap_le hen (by omega) hcr (by omega), fun k hk hlt => ?_, fun j hj => ?_, ?_⟩
  · have hread := Memory.read_writeFrom ((lineBytes bs).take s.cfg.lbCap) s.udc.lbs 0 (hlt.trans_eq hlen.symm)
    rw [Nat.zero_add, List.getElem?_take_of_lt hlt, List.getElem?_eq_getElem hk] at hread
    rw [hlbs, hread]
  · rw [hlbs, Memory.read_writeFrom_outside _ _ (by omega)]
  · rw [lineResynced, hp0, Nat.zero_add]

end Sys2Proof.Machine
end


section
/-! PROOFS. The dispatcher's unrecognised causes, GETEV and CLREV (R173, R176, R177). -/

namespace Sys2Proof.Machine

/-- Settles O38: by the one case of DISP.NONE, which every code but the two recognised ones selects. -/
theorem dispNoneChangesNothing : Obligations.DispNoneChangesNothing := by
  intro s iv
  have hnone : exec (.dispNone iv) s = .next s := exec_of_did .dispNone
  refine ⟨hnone, fun hrx htx => ?_⟩
  rw [decodeCause_of_wellFormed (by simp [Instr.wellFormed, hrx, htx]), hnone]

/-! ### The mailbox as response data -/

theorem dataOfByte_eq_append (b : Byte) : dataOfByte b = 0#8 ++ b := BitVec.setWidth_eq_append (by decide)

theorem getEventValue_dataOfByte (st : Status) (b : Byte) : getEventValue ⟨st, dataOfByte b⟩ = b := by
  rw [getEventValue, dataOfByte_eq_append, BitVec.extractLsb'_append_eq_right]

/-- The reserved bits 7..2 of EV and the zero extension above them are bits 15..2 of GETEV's data (R36, R76). -/
theorem dataOfByte_reserved {b : Byte} (h : b &&& 0xFC#8 = 0#8) : dataOfByte b &&& 0xFFFC#16 = 0 := by
  have hmask : 0xFFFC#16 = 0xFF#8 ++ 0xFC#8 := rfl
  rw [dataOfByte_eq_append, hmask, BitVec.and_append, h, BitVec.zero_and]
  rfl

/-- Settles O21: GETEV only answers; the invariant keeps EV's reserved bits 0. -/
theorem getevReadsMailbox : Obligations.GetevReadsMailbox := by
  intro s h0
  rw [← dataOfByte_eq]
  exact ⟨exec_of_did (.getev h0), getEventValue_dataOfByte _ _, fun h => dataOfByte_reserved (h.inited h0).ev_reserved⟩

/-- Settles O22: by the case of CLREV after INIT. -/
theorem clrevClearsMailbox : Obligations.ClrevClearsMailbox :=
  fun _ h0 => exec_of_did (.clrev h0)

end Sys2Proof.Machine
end

section
/-! PROOFS. The mailbox over all steps: what clears it and what ORs into it (R35, R175, R178). -/

namespace Sys2Proof.Machine

@[simp] theorem setRing_ev (s : State) (r : RingId) (x : RingBuf) : (s.setRing r x).udc.ev = s.udc.ev := by
  cases r <;> rfl

/-- An operation answers at most one next state. -/
theorem Did.unique {i : Instr} {s t u : State} (h : Did s i t) (h' : Did s i u) : t = u :=
  Host.Outcome.next.inj ((exec_of_did h).symm.trans (exec_of_did h'))

/-- The operations that clear the mailbox: CLREV after INIT, and an INIT that completes (R175). -/
def ClearsMailbox (s : State) (i : Instr) : Prop := (i = .clrev ∧ s.udc.inited = true) ∨ CompletesInit s i

theorem Did.ev_eq_zero_of_clears {i : Instr} {s t : State} (hd : Did s i t) (h : ClearsMailbox s i) :
    t.udc.ev = 0 := by
  rcases h with ⟨rfl, h0⟩ | hinit
  · rw [hd.unique (.clrev h0)]
    rfl
  · obtain ⟨baud, m, pol, rfl⟩ := hd.eq_initialised hinit
    rfl

/-- Every other operation leaves EV, or ORs into it: EV_RX in DISP.RX, EV_TX in DISP.TX where TX_EV_ON_IDLE (R175). -/
theorem Did.ev_cases {i : Instr} {s t : State} (hd : Did s i t) (h : ¬ ClearsMailbox s i) :
    t.udc.ev = s.udc.ev ∨
    (t.udc.ev = s.udc.ev ||| evRx ∧ i = .dispRx) ∨
    (t.udc.ev = s.udc.ev ||| evTx ∧ i = .dispTx ∧ s.cfg.txEvOnIdle = true) := by
  cases hd with
  | clrev h0 => exact absurd (.inl ⟨rfl, h0⟩) h
  | init hi hb => exact absurd (.inr ⟨_, _, _, hi, hb⟩) h
  | rxComplete | rxDroppedCr | rxQueuedCr => exact .inr (.inl ⟨by simp, rfl⟩)
  | txIdle =>
    by_cases htx : s.cfg.txEvOnIdle = true
    · exact .inr (.inr ⟨by simp [htx], rfl, htx⟩)
    · exact .inl (by simp [htx])
  | _ => exact .inl (by simp)

/-- Settles O53: by what the operation of the step does to EV; a step that runs none leaves the UDC as it was. -/
theorem mailboxOnlyAccumulates : Obligations.MailboxOnlyAccumulates := by
  intro s t hstep
  rcases step_runs hstep with ⟨hn, hu, -⟩ | ⟨i, u, hn, hd, hu, -, hc, -⟩
  · rw [hu, hn]
    refine ⟨?_, fun _ _ => .inl rfl⟩
    rintro (⟨hclrev, -⟩ | hinit)
    · cases hclrev
    · exact absurd hinit (not_nextInitialises_of_none hn)
  · rw [nextInitialises_iff_of_some hn hc, hn, ← hu, ← hc]
    simp only [Option.some.injEq]
    exact ⟨hd.ev_eq_zero_of_clears, fun hclrev hinit => hd.ev_cases (not_or.2 ⟨hclrev, hinit⟩)⟩

/-! ### Turns in which DISP does not run -/

/-- An event that enters DISPATCH neither by an interrupt nor by a presented cause. -/
def NotDispatch (e : Event) : Prop := e ≠ .disp ∧ ∀ iv, e ≠ .cause iv

/-- Only a turn of DISP and a presented cause run an operation of DISP (R70, R78, R170). -/
theorem contextOf_ne_interrupt {s : State} {e : Event} {es : List Event} {i : Instr} (hs : s.sched = e :: es)
    (he : NotDispatch e) (hn : nextInstr s = some i) : contextOf i ≠ some .interrupt := by
  cases e with
  | host => simp [contextOf_of_host hs hn]
  | disp => exact absurd rfl he.1
  | cause iv => exact absurd rfl (he.2 iv)
  | ring r w =>
    simp only [nextInstr, hs] at hn
    cases hd : decodeRing r w with
    | error e => rw [hd] at hn; cases hn
    | ok j =>
      rw [hd] at hn
      cases hn
      simp [contextOf, encode_of_decodeRing hd]
  | txdone | rxin | bus => simp [nextInstr, hs] at hn

/-- A step in which DISP does not run sets no bit of EV (R175, R178). -/
theorem step_ev_eq_zero {s t : State} {e : Event} {es : List Event} (hs : s.sched = e :: es) (he : NotDispatch e)
    (hev : s.udc.ev = 0) (hstep : step s = .next t) : t.udc.ev = 0 := by
  obtain ⟨hclears, hkeeps⟩ := mailboxOnlyAccumulates s t hstep
  by_cases hclrev : nextInstr s = some .clrev ∧ s.udc.inited = true
  · exact hclears (.inl hclrev)
  by_cases hinit : nextInitialises s
  · exact hclears (.inr hinit)
  rcases hkeeps hclrev hinit with h | ⟨-, hrx⟩ | ⟨-, htx, -⟩
  · exact h.trans hev
  · exact absurd rfl (contextOf_ne_interrupt hs he hrx)
  · exact absurd rfl (contextOf_ne_interrupt hs he htx)

/-- Settles O54: no event of the run sets a bit of EV. -/
theorem clearedMailboxStaysClear : Obligations.ClearedMailboxStaysClear :=
  fun evs s t hev hevs => runEvents_preserves (P := fun s => s.udc.ev = 0) (Q := NotDispatch) (fun _ _ h => h)
    (fun _ _ _ _ he hs hev => step_ev_eq_zero hs he hev) evs s t hevs hev

end Sys2Proof.Machine
end

section
/-! PROOFS. What power-on leaves unspecified before the first INIT (R195, R227, R240, R241). -/

namespace Sys2Proof.Machine

/-- The machine with other UDC registers and arrays. -/
def withUdc (u : Udc) (s : State) : State := { s with udc := u }

section
variable {s : State} {u : Udc}

/-! ### What keeps two such machines alike -/

/-- The relation looks at the UDC, and at the peripheral only through the enables. -/
theorem PowerOnAlike.of_same_udc {t : State} (h : PowerOnAlike s (withUdc u s)) (hu : t.udc = s.udc)
    (hrx : t.periph.rxie = s.periph.rxie) (htx : t.periph.txie = s.periph.txie) : PowerOnAlike t (withUdc u t) where
  uninit := by rw [hu]; exact h.uninit
  uninit' := h.uninit'
  rxie := hrx.trans h.rxie
  txie := htx.trans h.txie
  outside := rfl
  txs := by rw [hu]; exact h.txs
  rxs := by rw [hu]; exact h.rxs
  lbs := by rw [hu]; exact h.lbs

/-- INIT writes every register but the arrays, and those agree (R241). -/
theorem PowerOnAlike.initUdc_eq (h : PowerOnAlike s (withUdc u s)) (baud : BitVec 4) (m : TxMode) (pol : RxPolicy) :
    initUdc baud m pol u = initUdc baud m pol s.udc := by
  have htxs : u.txr.cells = s.udc.txr.cells := h.txs
  have hrxs : u.rxr.cells = s.udc.rxr.cells := h.rxs
  have hlbs : u.lbs = s.udc.lbs := h.lbs
  simp only [initUdc, RingBuf.init, htxs, hrxs, hlbs]

theorem PowerOnAlike.initialised_eq (h : PowerOnAlike s (withUdc u s)) (baud : BitVec 4) (m : TxMode)
    (pol : RxPolicy) : initialised baud m pol (withUdc u s) = initialised baud m pol s := by
  simp only [initialised, withUdc, h.initUdc_eq]

/-! ### Outcomes that do not show the difference -/

/-- Both outcomes are next states, equal where `init` holds and still alike where it does not, or the same refusal. -/
def AlikeOutcomes (init : Prop) (o o' : Host.Outcome State Fault Refusal) : Prop :=
  (∃ t t', o = .next t ∧ o' = .next t' ∧ (init → t' = t) ∧ (¬ init → PowerOnAlike t t')) ∨
  (∃ r, o = .refused r ∧ o' = .refused r)

variable {init : Prop}

theorem AlikeOutcomes.refused (r : Refusal) : AlikeOutcomes init (.refused r) (.refused r) := .inr ⟨r, rfl, rfl⟩

theorem AlikeOutcomes.equal {t t' : State} (hi : init) (h : t' = t) : AlikeOutcomes init (.next t) (.next t') :=
  .inl ⟨t, t', rfl, rfl, fun _ => h, fun hn => absurd hi hn⟩

theorem AlikeOutcomes.alike {t t' : State} (hn : ¬ init) (h : PowerOnAlike t t') :
    AlikeOutcomes init (.next t) (.next t') :=
  .inl ⟨t, t', rfl, rfl, fun hi => absurd hi hn, fun _ => h⟩

theorem AlikeOutcomes.ite {p : Prop} [Decidable p] {o o' q q' : Host.Outcome State Fault Refusal}
    (h : AlikeOutcomes init o o') (h' : AlikeOutcomes init q q') :
    AlikeOutcomes init (if p then o else q) (if p then o' else q') := by
  split
  · exact h
  · exact h'

/-! ### One command -/

theorem not_completesInit_of_isInitOp {i : Instr} (h : isInitOp i = false) : ¬ CompletesInit s i := by
  rintro ⟨_, _, _, ⟨rfl, -⟩ | ⟨rfl, -⟩, -⟩ <;> cases h

theorem IsInitOf.completesInit_iff {i : Instr} {baud : BitVec 4} {m : TxMode} {pol : RxPolicy}
    (hi : IsInitOf i baud m pol) : CompletesInit s i ↔ baud ∈ s.cfg.baudSet := by
  refine ⟨?_, fun hb => ⟨baud, m, pol, hi, hb⟩⟩
  rintro ⟨baud', m', pol', hi', hb⟩
  rcases hi with ⟨rfl, -⟩ | ⟨rfl, -⟩ <;> rcases hi' with ⟨he, -⟩ | ⟨he, -⟩ <;> cases he <;> exact hb

theorem PowerOnAlike.exec_alike_of_isInitOf {i : Instr} {baud : BitVec 4} {m : TxMode} {pol : RxPolicy}
    (h : PowerOnAlike s (withUdc u s)) (hi : IsInitOf i baud m pol) :
    AlikeOutcomes (CompletesInit s i) (exec i s) (exec i (withUdc u s)) := by
  by_cases hb : baud ∈ s.cfg.baudSet
  · rw [exec_of_did (.init hi hb), exec_of_did (Did.init (s := withUdc u s) hi hb)]
    exact .equal (hi.completesInit_iff.2 hb) (h.initialised_eq _ _ _)
  · rw [exec_of_did (.badRate hi hb), exec_of_did (Did.badRate (s := withUdc u s) hi hb)]
    exact .alike (hi.completesInit_iff.not.2 hb) (h.of_same_udc rfl rfl rfl)

theorem PowerOnAlike.exec_alike_of_needsInit {i : Instr} (h : PowerOnAlike s (withUdc u s)) (hi : needsInit i = true)
    (hinit : isInitOp i = false) : AlikeOutcomes (CompletesInit s i) (exec i s) (exec i (withUdc u s)) := by
  rw [exec_notInit hi h.uninit, exec_notInit hi h.uninit']
  exact .alike (not_completesInit_of_isInitOp hinit) (h.of_same_udc rfl rfl rfl)

/-- Before INIT no command shows a register: NOP answers OK, INIT writes them all, any other answers NOTINIT (R195). -/
theorem PowerOnAlike.exec_alike {i : Instr} (h : PowerOnAlike s (withUdc u s))
    (hi : contextOf i = some .mainLoop) :
    AlikeOutcomes (CompletesInit s i) (exec i s) (exec i (withUdc u s)) := by
  cases i with
  | nop => exact .alike (not_completesInit_of_isInitOp rfl) (h.of_same_udc rfl rfl rfl)
  | initLine => exact h.exec_alike_of_isInitOf (.inl ⟨rfl, rfl⟩)
  | initRing => exact h.exec_alike_of_isInitOf (.inr ⟨rfl, rfl⟩)
  | initCustom => exact .refused _
  | txb | txbF | getev | clrev | getln | lbrd | rearm | rxget | rderr => exact h.exec_alike_of_needsInit rfl rfl
  | rbInit | rbPut | rbGet | dispRx | dispTx | dispNone => cases hi

/-! ### One agent -/

theorem hostStep_noProgram (h : s.host.prog = []) : hostStep s = .next s := by rw [hostStep, h]

/-- A turn of HOST in `t`, which is `s` with the event taken off its schedule. -/
theorem PowerOnAlike.hostStep_alike {t : State} {es : List Event} (h : PowerOnAlike t (withUdc u t))
    (hs : s.sched = .host :: es) (hhost : t.host = s.host) (hcfg : t.cfg = s.cfg) :
    AlikeOutcomes (nextInitialises s) (hostStep t) (hostStep (withUdc u t)) := by
  cases hp : t.host.prog with
  | nil =>
    rw [hostStep_noProgram hp, hostStep_noProgram (s := withUdc u t) hp]
    exact .alike (not_nextInitialises_of_none (by simp [nextInstr, hs, ← hhost, hp])) h
  | cons w ws =>
    cases hd : decodeCommand w with
    | error e =>
      rw [hostStep_illegal hp hd, hostStep_illegal (s := withUdc u t) hp hd]
      exact .alike (not_nextInitialises_of_none (by simp [nextInstr, hs, ← hhost, hp, hd, Except.toOption]))
        (h.of_same_udc rfl rfl rfl)
    | ok i =>
      rw [hostStep_command hp hd, hostStep_command (s := withUdc u t) hp hd,
        nextInitialises_iff_of_some (nextInstr_command hs (hhost ▸ hp) hd) hcfg]
      exact h.exec_alike (contextOf_decodeCommand hd)

/-- With no interrupt enabled, a contract step of an agent other than HOST runs no operation (R227). -/
theorem nextInstr_eq_none {e : Event} {es : List Event} (hs : s.sched = e :: es) (he : e.inContract = true)
    (hne : e ≠ .host) (hd : dispatchEnabled s.periph = false) : nextInstr s = none := by
  cases e with
  | host => exact absurd rfl hne
  | disp => simp [nextInstr, hs, enterInterrupt, hd]
  | txdone | rxin | bus => simp [nextInstr, hs]
  | cause | ring => cases he

theorem PowerOnAlike.dispatch_disabled {s' : State} (h : PowerOnAlike s s') : dispatchEnabled s.periph = false := by
  simp [dispatchEnabled, h.rxie, h.txie]

theorem dispStep_of_disabled (h : dispatchEnabled s.periph = false) : dispStep s = .next s := by
  simp [dispStep, enterInterrupt, h]

theorem periphTxdone_enables (p : Periph) : (periphTxdone p).rxie = p.rxie ∧ (periphTxdone p).txie = p.txie := by
  unfold periphTxdone
  split <;> exact ⟨rfl, rfl⟩

/-- The bus reaches the host's side only, and the address, the access and the parameters decide a refusal (R53, R57). -/
theorem PowerOnAlike.busAccess_alike (h : PowerOnAlike s (withUdc u s)) (hn : ¬ init) (a : Nat) (op : BusOp) :
    AlikeOutcomes init (busAccess a op s) (busAccess a op (withUdc u s)) := by
  have houtside : ∀ off, AlikeOutcomes init (outsidePort off) (outsidePort off) :=
    fun _ => .ite (.refused _) (.refused _)
  have hport : ∀ off, AlikeOutcomes init (portAccessAt off op s) (portAccessAt off op (withUdc u s)) := fun off => by
    cases op with
    | read8 | write8 => exact houtside off
    | write16 => exact .ite (.alike hn (h.of_same_udc rfl rfl rfl)) (houtside off)
    | read16 =>
      exact .ite (.alike hn (h.of_same_udc rfl rfl rfl)) (.ite (.alike hn (h.of_same_udc rfl rfl rfl)) (houtside off))
  cases hb : s.cfg.udcBase with
  | none => simpa only [busAccess, withUdc, hb] using AlikeOutcomes.refused _
  | some base =>
    simpa only [busAccess, withUdc, hb] using AlikeOutcomes.ite (.refused _) (.ite (.refused _) (hport (a - base)))

theorem PowerOnAlike.agentStep_alike {e : Event} (h : PowerOnAlike s (withUdc u s)) (hn : ¬ init)
    (he : e.inContract = true) (hne : e ≠ .host) :
    AlikeOutcomes init (agentStep e s) (agentStep e (withUdc u s)) := by
  cases e with
  | host => exact absurd rfl hne
  | disp =>
    rw [agentStep, agentStep, dispStep_of_disabled h.dispatch_disabled,
      dispStep_of_disabled (s := withUdc u s) h.dispatch_disabled]
    exact .alike hn h
  | txdone =>
    obtain ⟨hrx, htx⟩ := periphTxdone_enables s.periph
    exact .alike hn (h.of_same_udc rfl hrx htx)
  | rxin => exact .alike hn (h.of_same_udc rfl rfl rfl)
  | bus a op => exact h.busAccess_alike hn a op
  | cause | ring => cases he

end

/-- Settles O57: with no interrupt enabled only HOST runs an operation, and before INIT no command reads a register that
power-on leaves unspecified. -/
theorem unspecifiedRegistersUnobservable : Obligations.UnspecifiedRegistersUnobservable := by
  intro s s' e es h hs he
  change AlikeOutcomes (nextInitialises s) (step s) (step s')
  obtain ⟨u, rfl⟩ : ∃ u, s' = withUdc u s := ⟨_, h.outside⟩
  cases hc : configCheck s.cfg with
  | some r =>
    rw [step_refused_of_configCheck hc, step_refused_of_configCheck (s := withUdc u s) hc]
    exact .refused r
  | none =>
    have hl := configCheck_none.1 hc
    have h1 : PowerOnAlike { s with sched := es } (withUdc u { s with sched := es }) := h.of_same_udc rfl rfl rfl
    rw [step_of_sched hl hs, step_of_sched (s := withUdc u s) hl hs]
    by_cases hhost : e = .host
    · subst hhost
      exact h1.hostStep_alike hs rfl rfl
    · have hn := nextInstr_eq_none hs he hhost h.dispatch_disabled
      exact h1.agentStep_alike (not_nextInitialises_of_none hn) he hhost

end Sys2Proof.Machine
end

section
/-! PROOFS. The commands before the first INIT, NOP, and the INITs that do not complete (R190, R192, R193, R195). -/

namespace Sys2Proof.Machine

/-- Settles O13: each of these commands begins with the INITED check. -/
theorem notInitBeforeInit : Obligations.NotInitBeforeInit := by
  intro s i h0 hi
  have hneeds : needsInit i = true := by
    rcases hi with rfl | rfl | rfl | rfl | rfl | rfl | ⟨d, rfl | rfl | rfl⟩ <;> rfl
  exact exec_notInit hneeds h0

/-- Settles O14: the operand of NOP is reserved bits, and NOP looks at no state. -/
theorem nopAnswersOk : Obligations.NopAnswersOk := by
  refine ⟨decodeCommand_of_encode (i := .nop) rfl, fun x hx => (illegalWordsExactly _).2 ?_,
    fun _ => exec_of_did .nop⟩
  have hw : (0x0#4 ++ x).toNat = x.toNat := by rw [toNat_append_eq_add, BitVec.toNat_ofNat]; omega
  have hne : x.toNat ≠ 0 := fun h => hx (BitVec.eq_of_toNat_eq h)
  have hop : x.toNat / 0x1000 = 0 := Nat.div_eq_of_lt x.isLt
  rw [hw]
  exact .inr (.inl ⟨by simp [hop], by omega⟩)

/-- Settles O16: both policies check the rate in the same way. -/
theorem initUnsupportedBaud : Obligations.InitUnsupportedBaud := by
  intro s baud t i hb hi
  obtain ⟨pol, hi⟩ : ∃ pol, IsInitOf i baud t pol :=
    hi.elim (fun h => ⟨.line, .inl ⟨h, rfl⟩⟩) fun h => ⟨.ring, .inr ⟨h, rfl⟩⟩
  exact exec_of_did (.badRate hi hb)

theorem decodeCommand_encodeInit (baud : BitVec 4) (t : TxMode) (rr : BitVec 2) :
    decodeCommand (encodeInit baud t rr) = decodeInit (encodeInit baud t rr) := by
  simp only [decodeCommand, encodeInit_opcode]
  rfl

theorem decodeInit_illegalPolicy (baud : BitVec 4) (t : TxMode) :
    decodeInit (encodeInit baud t 0b11#2) = .error .illegalPolicy := by
  simp only [decodeInit, encodeInit_reserved, encodeInit_policy]
  rfl

/-- Settles O17: the refusal comes before any look at the state, and the decoder knows three policies. -/
theorem initCustomRefused : Obligations.InitCustomRefused :=
  fun _ baud t => ⟨decodeCommand_of_encode rfl, rfl,
    (decodeCommand_encodeInit baud t _).trans (decodeInit_illegalPolicy baud t)⟩

end Sys2Proof.Machine
end

section
/-! PROOFS. Interrupt delivery, the peripheral's own steps, TXB in POLLED mode, and the discard of an erroneous byte
(R126, R212, R223, R224, R226, R227). -/

namespace Sys2Proof.Machine

/-! ### Which interrupt DISP takes -/

/-- A pending enabled receive interrupt goes first, and its delivery leaves the state as it is (R227). -/
theorem dispStep_of_rx {s : State} (h : s.periph.rxifg = true ∧ s.periph.rxie = true) :
    dispStep s = exec .dispRx s := by
  obtain ⟨hflag, hen⟩ := h
  simp [dispStep, enterInterrupt, dispatchEnabled, deliverCause, hflag, hen, returnFromInterrupt, decodeCause_rx]

/-- The transmit interrupt is taken where the receive interrupt is not pending or not enabled, and its delivery clears
the flag (R227). -/
theorem dispStep_of_tx {s : State} (hrx : ¬ (s.periph.rxifg = true ∧ s.periph.rxie = true))
    (htx : s.periph.txifg = true ∧ s.periph.txie = true) :
    dispStep s = exec .dispTx { s with periph := { s.periph with txifg := false } } := by
  rw [← Bool.and_eq_true, Bool.not_eq_true] at hrx
  obtain ⟨hflag, hen⟩ := htx
  simp [dispStep, enterInterrupt, dispatchEnabled, deliverCause, hrx, hflag, hen, returnFromInterrupt, decodeCause_tx]

theorem dispatchEnabled_eq_false {p : Periph} (hrx : ¬ (p.rxifg = true ∧ p.rxie = true))
    (htx : ¬ (p.txifg = true ∧ p.txie = true)) : dispatchEnabled p = false := by
  rw [← Bool.and_eq_true, Bool.not_eq_true] at hrx htx
  rw [dispatchEnabled, hrx, htx, Bool.or_false]

/-- Settles O8: by which of the two interrupts is pending and enabled. -/
theorem stepTakesTheInterrupt : Obligations.StepTakesTheInterrupt := by
  intro s es hl hs
  have hstep : step s = dispStep { s with sched := es } := step_of_sched hl hs
  rw [hstep]
  exact ⟨dispStep_of_rx (s := { s with sched := es }), dispStep_of_tx (s := { s with sched := es }),
    fun hrx htx => dispStep_of_disabled (dispatchEnabled_eq_false hrx htx)⟩

/-! ### The peripheral's steps -/

theorem periphTxdone_of_slot {p : Periph} {b : Byte} (h : p.slot = some b) :
    periphTxdone p = { p with sink := p.sink ++ [b], slot := none, txifg := true } := by
  simp only [periphTxdone, h]

/-- A byte that meets an unread one is marked erroneous (R224). -/
theorem periphRxin_of_unread {p : Periph} (h : p.rxifg = true) (b : Byte) (e : Bool) :
    periphRxin b e p = { p with rxb := b, rxe := true, rxifg := true } := by
  rw [periphRxin, if_pos h]

/-- A byte that meets an empty latch keeps its own error bit (R224). -/
theorem periphRxin_of_empty {p : Periph} (h : p.rxifg = false) (b : Byte) (e : Bool) :
    periphRxin b e p = { p with rxb := b, rxe := e, rxifg := true } := by
  rw [periphRxin, if_neg (ne_true_of_eq_false h)]

/-- Settles O9: TXDONE by its slot, RXIN by the latch's flag. -/
theorem peripheralSteps : Obligations.PeripheralSteps := by
  intro s es hl
  refine ⟨fun b hs hslot => ?_, fun b e hs hflag => ?_, fun b e hs hflag => ?_⟩
  · rw [step_of_sched hl hs, agentStep, periphTxdone_of_slot hslot]
  · rw [step_of_sched hl hs, agentStep, periphRxin_of_unread hflag]
  · rw [step_of_sched hl hs, agentStep, periphRxin_of_empty hflag]

/-! ### TXB in POLLED mode -/

theorem exists_isTxbOf {i : Instr} {d : Byte} (h : i = .txb d ∨ i = .txbF d) : ∃ f, IsTxbOf i d f :=
  h.elim (fun h => ⟨false, .inl ⟨h, rfl⟩⟩) fun h => ⟨true, .inr ⟨h, rfl⟩⟩

/-- Settles O20: the slot is empty or occupied, and neither case of TXB looks at F. (The name `txbPolled` is the
model's function.) -/
theorem txbPolledWritesOrHolds : Obligations.TxbPolled := by
  intro s d i hi h0 hm
  obtain ⟨f, hi⟩ := exists_isTxbOf hi
  exact ⟨fun hslot => exec_of_did (.txbDirect hi h0 hm hslot), fun hslot => exec_of_did (.txbWait hi h0 hm hslot)⟩

/-! ### A byte with a hardware error -/

/-- Settles O34: by the case of DISP.RX that reaches no handler. -/
theorem dispRxDiscardsErroneousByte : Obligations.DispRxDiscardsErroneousByte := by
  intro s he
  rw [List.append_cons]
  exact exec_of_did (.rxError he)

end Sys2Proof.Machine
end

section
/-! PROOFS. What INIT leaves, and what power-on leaves (R191, R225, R240, R241). -/

namespace Sys2Proof.Machine

/-! ### INIT -/

theorem RingBuf.init_eq (r : RingBuf) : r.init = ⟨0, 0, 0, r.cells⟩ := rfl

/-- Of the peripheral INIT changes the two enables only: BAUDSEL has no effect on it, IE writes both (R191, R225). -/
@[simp] theorem initialised_periph (baud : BitVec 4) (m : TxMode) (pol : RxPolicy) (s : State) :
    (initialised baud m pol s).periph = { s.periph with rxie := true, txie := decide (m = .intr) } := rfl

/-- INIT changes the UDC's registers, the enables, the trace and the host's side, and no other field of the state. -/
theorem initialised_eq (baud : BitVec 4) (m : TxMode) (pol : RxPolicy) (s : State) :
    initialised baud m pol s = { s with
      udc := initUdc baud m pol s.udc
      periph := { s.periph with rxie := true, txie := decide (m = .intr) }
      trace := s.trace ++ [.baudsel baud, initEnables m]
      host := answered s .ok 0 } :=
  State.ext rfl rfl (initialised_periph baud m pol s) rfl rfl (initialised_trace baud m pol s) rfl rfl

/-- Settles O15: an accepted rate leaves the state `initialised`, whose registers are the table's. -/
theorem initLeavesInitialState : Obligations.InitLeavesInitialState := by
  intro s baud t hb i pol hi
  rw [exec_of_did (.init hi hb), initialised_eq, initUdc, RingBuf.init_eq, RingBuf.init_eq, initEnables]

/-! ### Power-on -/

@[simp] theorem Memory.read_nil (j : Nat) : Memory.read [] j = none := rfl

/-- No cell of the three arrays is written at power-on (R240). -/
theorem resetWith_unwritten (cfg : Config) (j : Nat) :
    (State.resetWith cfg).udc.txr.cells.read j = none ∧ (State.resetWith cfg).udc.rxr.cells.read j = none ∧
      (State.resetWith cfg).udc.lbs.read j = none :=
  ⟨Memory.read_nil j, Memory.read_nil j, Memory.read_nil j⟩

theorem exists_eq_resetWith {cfg : Config} {s : State} (h : s = State.reset ∨ s = State.resetWith cfg) :
    ∃ c, s = State.resetWith c :=
  h.elim (fun h => ⟨Config.vectors, h⟩) fun h => ⟨cfg, h⟩

/-- Settles O41: `State.reset` is power-on with the test vectors' parameters, and no field the statement names depends
on the parameters. -/
theorem resetLeaves : Obligations.ResetLeaves := by
  intro cfg s hs
  obtain ⟨c, rfl⟩ := exists_eq_resetWith hs
  exact ⟨rfl, rfl, rfl, resetWith_unwritten c, rfl, rfl, rfl, rfl, rfl, rfl⟩

end Sys2Proof.Machine
end


section
/-! PROOFS. Turns without an enabled step, the mapped host port, and the invariants at power-on (R52, R53, R57, R223, R240,
R244). -/

namespace Sys2Proof.Machine

/-! ### Turns without an enabled step -/

/-- TXDONE is enabled only while a byte is being shifted out (R223). -/
theorem periphTxdone_of_empty {p : Periph} (h : p.slot = none) : periphTxdone p = p := by
  simp only [periphTxdone, h]

/-- Settles O10: by the agent whose turn it is. -/
theorem disabledAgentsMakeNoStep : Obligations.DisabledAgentsMakeNoStep := by
  intro s es hl
  refine ⟨fun hs hp => ?_, fun hs hslot => ?_, step_idle hl⟩
  · exact (step_of_sched hl hs).trans (hostStep_noProgram hp)
  · rw [step_of_sched hl hs, agentStep, periphTxdone_of_empty hslot]

/-! ### The mapped host port -/

/-- An access at an offset of a port mapped at an even base reaches the register at that offset (R53, R57). -/
theorem busAccess_mapped {s : State} {base : Nat} (hb : s.cfg.udcBase = some base) (heven : base % 2 = 0) (off : Nat)
    (op : BusOp) : busAccess (base + off) op s = portAccessAt off op s := by
  simp [busAccess, hb, heven]

/-- A turn of the bus on a mapped port. -/
theorem step_mapped {s : State} {base off : Nat} {op : BusOp} {es : List Event} (hl : LegalConfig s.cfg)
    (hb : s.cfg.udcBase = some base) (heven : base % 2 = 0) (hs : s.sched = .bus (base + off) op :: es) :
    step s = portAccessAt off op { s with sched := es } :=
  (step_of_sched hl hs).trans (busAccess_mapped (s := { s with sched := es }) hb heven off op)

/-- A word is its two bytes, the low one at the lower address (R52). -/
theorem wordOfBytes_extract (w : Word) : wordOfBytes (w.extractLsb' 0 8) (w.extractLsb' 8 8) = w := by
  rw [wordOfBytes, BitVec.extractLsb'_append_extractLsb'_eq_extractLsb' (Nat.zero_add 8).symm, BitVec.extractLsb'_eq_self]

/-- After a response the status word shows its status in bits 3..0, whatever the open bits are (R57). -/
theorem statusWord_low {s : State} {r : Response} (h : s.host.resps.getLast? = some r) :
    (statusWord s).extractLsb' 0 4 = r.status.code := by
  simp only [statusWord, h]
  exact BitVec.extractLsb'_append_eq_right

theorem dataWord_of_response {s : State} {r : Response} (h : s.host.resps.getLast? = some r) : dataWord s = r.data := by
  simp only [dataWord, h]

theorem outsidePort_of_register {off : Nat} (h : off < 6) : outsidePort off = .refused .portAccess := if_pos h

/-- Settles O12: every clause is a turn of the bus at an offset from the base, and the register there decides. -/
theorem mappedPort : Obligations.MappedPort := by
  intro s base es hl hb heven
  refine ⟨fun w hs => ?_, fun r hr hs => ?_, fun r hr hs => ?_, fun off hoff b hs => ?_⟩
  · have hstep := step_mapped (off := 0) hl hb heven hs
    rwa [portAccessAt, if_pos rfl, wordOfBytes_extract] at hstep
  · exact ⟨statusWord { s with sched := es }, statusWord_low hr, step_mapped hl hb heven hs⟩
  · have hstep := step_mapped hl hb heven hs
    rwa [portAccessAt, if_neg (by decide), if_pos rfl, dataWord_of_response (s := { s with sched := es }) hr] at hstep
  · rw [← outsidePort_of_register hoff]
    exact hs.elim (step_mapped hl hb heven) (step_mapped hl hb heven)

/-! ### The invariants at power-on -/

theorem resetWith_not_inited (cfg : Config) : (State.resetWith cfg).udc.inited ≠ true := Bool.false_ne_true

/-- At power-on the arrays are empty and both enables 0; what is asked of an initialised machine is not asked yet
(R240). -/
theorem machineInv_resetWith {cfg : Config} (hl : LegalConfig cfg) : MachineInv (State.resetWith cfg) where
  legal := hl
  txs := .empty cfg.txCap
  rxs := .empty cfg.rxCap
  lbs := .empty cfg.lbCap
  rxie := rfl
  txie := rfl
  inited h := absurd h (resetWith_not_inited cfg)

theorem unusedRingsEmpty_resetWith (cfg : Config) : UnusedRingsEmpty (State.resetWith cfg) :=
  fun h => absurd h (resetWith_not_inited cfg)

/-- The slot is empty at power-on (R244). -/
theorem slotTracked_resetWith (cfg : Config) : SlotTracked (State.resetWith cfg) := .of_slot_eq_none rfl

/-- The parameters of the test vectors pass the check of every step (R8). -/
theorem legalConfig_vectors : LegalConfig Config.vectors := configCheck_none.1 (by decide)

/-- Settles O42: `State.reset` is power-on with the test vectors' parameters, which are legal. -/
theorem resetMeetsInvariant : Obligations.ResetMeetsInvariant :=
  ⟨machineInv_resetWith legalConfig_vectors,
    fun cfg hl => ⟨machineInv_resetWith hl, unusedRingsEmpty_resetWith cfg, slotTracked_resetWith cfg⟩⟩

end Sys2Proof.Machine
end
